-- ==== Sys2Proof/Word.lean ====
section
/-! DEFINITION. The words of the machine: a byte, a 64-bit register, and the container of a vector register. -/

namespace Sys2Proof

/-- One byte: what an address names (R40). -/
abbrev Byte := BitVec 8

/-- The contents of a general, control or opmask register and of the instruction pointer. -/
abbrev Word := BitVec 64

/-- The container of one vector register: the widest register of the spec has 512 bits (R4). On a processor with a smaller
`MAXVL` the bits at and above it do not exist and are held as 0 (log entry 2). -/
abbrev Vec := BitVec 512

/-- One 32-bit element of a vector (R23). -/
abbrev Elem := BitVec 32

end Sys2Proof
end

