-- ==== Sys2Proof/Config.lean ====
section
/-! DEFINITION. What is fixed for one processor (R4, R5, R8), the operating modes (R6), and the free values: what the spec
leaves open at each execution. A free value is an opaque constant, so nothing in Lean can say what it is. -/

namespace Sys2Proof

/-- The three vector lengths of the spec, `VL` and the values `MAXVL` may take (R4, R11). -/
inductive VLen where
  | v128 | v256 | v512
deriving DecidableEq, Repr

/-- The length in bits, `VL` (R11). -/
def VLen.bits : VLen → Nat
  | .v128 => 128
  | .v256 => 256
  | .v512 => 512

/-- The number of 32-bit elements, `KL = VL / 32` (R11). -/
def VLen.elems : VLen → Nat
  | .v128 => 4
  | .v256 => 8
  | .v512 => 16

/-- The number of 128-bit lanes, `VL / 128` (R102). -/
def VLen.lanes : VLen → Nat
  | .v128 => 1
  | .v256 => 2
  | .v512 => 4

/-- The length in bytes of a full-width memory operand, `VL / 8` (R42). -/
def VLen.bytes : VLen → Nat
  | .v128 => 16
  | .v256 => 32
  | .v512 => 64

/-- `FEAT`: the four CPUID feature flags the forms need (R5, R33). -/
structure Features where
  sse      : Bool
  avx      : Bool
  avx512f  : Bool
  avx512vl : Bool
deriving DecidableEq, Repr

/-- The default of decision D1: the widest register each feature set brings (R4). -/
def Features.defaultMaxvl (f : Features) : VLen :=
  if f.avx512f then .v512 else if f.avx then .v256 else .v128

/-- What is fixed for one processor. It is plain data and stands as one field of the state that no step changes, so that every
statement about every state is a statement about every processor (log entry 1). -/
structure Config where
  /-- `MAXVL` (R4). -/
  maxvl : VLen
  /-- `KW`, the width of an opmask register (R8). -/
  kw    : Nat
  /-- `FEAT` (R5). -/
  feat  : Features
deriving DecidableEq, Repr

/-- What R4 and R8 require of a processor's parameters: `MAXVL` at least the widest form the processor has, `KW` at least 16
(and at most the 64 bits of the container). -/
def Config.wf (c : Config) : Bool :=
  (!c.feat.avx || 256 ≤ c.maxvl.bits) && (!c.feat.avx512f || c.maxvl.bits == 512) && decide (16 ≤ c.kw) && decide (c.kw ≤ 64)

/-- The operating modes (R6). The first two are the modes the spec admits. The other four are the modes decision D3 excludes:
reset leaves the processor in real-address mode (R151), and R123 names two of them. -/
inductive Mode where
  | mode64 | mode32 | real | virtual8086 | protected16 | systemManagement
deriving DecidableEq, Repr

/-- The modes in which the spec gives the instruction a meaning (R3, R6, D3). -/
def Mode.admitted : Mode → Bool
  | .mode64 => true
  | .mode32 => true
  | _ => false

/-- FREE VALUE. `LEGACY_FETCH` of the execution with this draw number: true when the implementation fetches only the
appropriate 64 bits, false when it fetches 16 bytes (R7, R45, D6; log entry 10). -/
opaque Config.legacyFetchNarrow : Nat → Bool

/-- FREE VALUE. `AC_UNALIGNED_FAULTS` of the execution with this draw number: whether an unaligned operand of a VEX or EVEX
form raises the alignment-check fault while alignment checking is active (R9, R129, D13; log entry 11). -/
opaque Config.acUnalignedFaults : Nat → Bool

/-- FREE VALUE. Which of the faulting bytes of the operand a page fault reports, in the execution with this draw number
(R127, U7; log entry 12). -/
opaque Config.pageFaultPick : Nat → Nat

end Sys2Proof
end

