-- ==== Sys2Proof/Syntax.lean ====
section
/-! DEFINITION. The instructions: one constructor of `Instr` for each of the eight rows of spec/opcode_table.json, carrying
what its bytes say (legacy bytes in front, extension bits, operand fields), and the decoded-instruction record of R81 that the
meanings take as input. -/

namespace Sys2Proof

/-- The six segment registers (R29). -/
inductive SegReg where
  | es | cs | ss | ds | fs | gs
deriving DecidableEq, Repr

/-- One byte in front of the opcode or of the VEX or EVEX bytes (R63, R64). -/
inductive Prefix where
  /-- A segment override: 26, 2E, 36, 3E, 64, 65. -/
  | seg (r : SegReg)
  /-- The address-size override 67. -/
  | addrSize
  /-- The operand-size override 66. -/
  | opSize
  /-- REPNE, F2. -/
  | repne
  /-- REP, F3. -/
  | rep
  /-- LOCK, F0. -/
  | lock
  /-- A REX byte 0100WRXB, in 64-bit mode only. It takes effect when it is the last byte before 0F. -/
  | rex (w r x b : Bool)
deriving DecidableEq, Repr

/-- The `ModRM:r/m` operand as its bytes spell it: one constructor for each row of the tables of R72 (with R73) and R84. -/
inductive RM where
  /-- `mod = 11`: a vector register. -/
  | reg (rm : BitVec 3)
  /-- `mod = 00`, `r/m` not 100 or 101: a base register alone. -/
  | ind (rm : BitVec 3)
  /-- `mod = 00`, `r/m = 101`: disp32, relative to the next instruction in 64-bit mode. -/
  | disp32 (d : BitVec 32)
  /-- `mod = 01`, `r/m` not 100. -/
  | ind8 (rm : BitVec 3) (d : BitVec 8)
  /-- `mod = 10`, `r/m` not 100. -/
  | ind32 (rm : BitVec 3) (d : BitVec 32)
  /-- `mod = 00`, SIB with `base` not 101. -/
  | sib (scale : BitVec 2) (index base : BitVec 3)
  /-- `mod = 00`, SIB with `base = 101`: no base, disp32. -/
  | sibDisp32 (scale : BitVec 2) (index : BitVec 3) (d : BitVec 32)
  /-- `mod = 01`, SIB, disp8. -/
  | sib8 (scale : BitVec 2) (index base : BitVec 3) (d : BitVec 8)
  /-- `mod = 10`, SIB, disp32. -/
  | sib32 (scale : BitVec 2) (index base : BitVec 3) (d : BitVec 32)
  /-- 16-bit addressing, `mod = 00`, `r/m` not 110. -/
  | ind16 (rm : BitVec 3)
  /-- 16-bit addressing, `mod = 00`, `r/m = 110`: disp16 alone. -/
  | disp16 (d : BitVec 16)
  /-- 16-bit addressing, `mod = 01`: disp8. -/
  | ind16d8 (rm : BitVec 3) (d : BitVec 8)
  /-- 16-bit addressing, `mod = 10`: disp16. -/
  | ind16d16 (rm : BitVec 3) (d : BitVec 16)
deriving DecidableEq, Repr

/-- The instructions, in the order of spec/opcode_table.json. `dest` and `src1` are register numbers (the stored, inverted
extension bits are complemented and put in front by the decoder, R76); `x` and `b` are the extension bits X and B as used
(1 = extend); `w` is VEX.W, which is ignored (R67). -/
inductive Instr where
  /-- Form 1, `NP 0F 14 /r` (R103). -/
  | unpcklps (pfx : List Prefix) (reg : BitVec 3) (rm : RM)
  /-- Form 2 with the two-byte VEX spelling C5 (R104, R65). -/
  | vunpcklpsVex128C5 (pfx : List Prefix) (dest src1 : BitVec 4) (rm : RM)
  /-- Form 2 with the three-byte VEX spelling C4 (R104, R66). -/
  | vunpcklpsVex128C4 (pfx : List Prefix) (w x b : Bool) (dest src1 : BitVec 4) (rm : RM)
  /-- Form 3 with the two-byte VEX spelling C5 (R105, R65). -/
  | vunpcklpsVex256C5 (pfx : List Prefix) (dest src1 : BitVec 4) (rm : RM)
  /-- Form 3 with the three-byte VEX spelling C4 (R105, R66). -/
  | vunpcklpsVex256C4 (pfx : List Prefix) (w x b : Bool) (dest src1 : BitVec 4) (rm : RM)
  /-- Form 4 (R106, R69, R78). -/
  | vunpcklpsEvex128 (pfx : List Prefix) (x b : Bool) (dest src1 : BitVec 5) (aaa : BitVec 3) (z bcst : Bool) (rm : RM)
  /-- Form 5 (R107). -/
  | vunpcklpsEvex256 (pfx : List Prefix) (x b : Bool) (dest src1 : BitVec 5) (aaa : BitVec 3) (z bcst : Bool) (rm : RM)
  /-- Form 6 (R108). -/
  | vunpcklpsEvex512 (pfx : List Prefix) (x b : Bool) (dest src1 : BitVec 5) (aaa : BitVec 3) (z bcst : Bool) (rm : RM)
deriving DecidableEq, Repr

/-! The record of R81. -/

/-- The six forms (R2, R61). -/
inductive Form where
  | legacy128 | vex128 | vex256 | evex128 | evex256 | evex512
deriving DecidableEq, Repr

/-- The address sizes (R72, R84). -/
inductive ASize where
  | a16 | a32 | a64
deriving DecidableEq, Repr

/-- A memory operand's address (R81). `disp` is already scaled (R74). -/
structure Addr where
  seg    : SegReg
  base   : Option (Fin 16)
  index  : Option (Fin 16)
  scale  : Nat
  disp   : Int
  riprel : Bool
  asize  : ASize
deriving DecidableEq, Repr

/-- The second source: a vector register, or memory with or without broadcast (R81). -/
inductive Src2 where
  | reg (n : Fin 32)
  | mem (a : Addr) (bcst : Bool)
deriving DecidableEq, Repr

/-- The decoded instruction (R81). -/
structure DecodedInst where
  form : Form
  dest : Fin 32
  src1 : Fin 32
  src2 : Src2
  aaa  : BitVec 3
  z    : Bool
  len  : Nat
deriving DecidableEq, Repr

end Sys2Proof
end

