-- ==== Sys2Proof/Decode.lean ====
section
/-! DEFINITION. The decoder, total on any bytes, and after it the encoder, both written from the same tables of
30_encoding.md (R60 to R80). -/

namespace Sys2Proof

/-! ## Why bytes are not an instruction of the family -/

/-- Encodings that are invalid opcodes, `#UD` (the rows of R80 with that outcome). -/
inductive InvalidReason where
  /-- LOCK before any form (R54, R80). -/
  | lock
  /-- F2 or F3 before `0F 14` (R63, R80). -/
  | repBeforeLegacy
  /-- 66, F2, F3, F0 or a REX byte before a VEX or EVEX form (R68, R80). -/
  | badBeforeVex
  /-- VEX with `pp` 10 or 11 (R67, R80). -/
  | vexPp
  /-- EVEX `P0[3:2]` not 00 or `P1[2]` not 1 (R69, R80). -/
  | evexFixedBits
  /-- EVEX with `W = 1` (R78, R80). -/
  | evexW
  /-- EVEX with `L'L = 11` (R78, R80). -/
  | evexLength
  /-- EVEX with `z = 1` and `aaa = 000` (R78, R80). -/
  | evexZeroNoMask
  /-- EVEX with `b = 1` and a register operand (R78, R80). -/
  | evexBcstReg
deriving DecidableEq, Repr

/-- Encodings that belong to another instruction or to none of the rows of R80: not this instruction, refused. -/
inductive OtherReason where
  /-- An opcode other than `0F 14`, or other than `14` after a VEX or EVEX sequence. -/
  | opcode
  /-- 66 before `0F 14`: UNPCKLPD (R63). -/
  | opSizeBeforeLegacy
  /-- VEX with `pp = 01`: VUNPCKLPD (R67). -/
  | vexPd
  /-- VEX with another opcode map (R80). -/
  | vexMap
  /-- EVEX with another opcode map (R78), and no invalid field. -/
  | evexMap
  /-- EVEX with `pp` not 00 (R78), and no invalid field. -/
  | evexPp
  /-- 32-bit mode: C4, C5 or 62 followed by a byte whose bits 7:6 are not 11, that is LES, LDS or BOUND (R70). -/
  | lesLdsBound
  /-- A mode the spec excludes (D3). -/
  | mode
deriving DecidableEq, Repr

/-- Encodings the spec is not sure of and refuses (D22). -/
inductive UncertainReason where
  /-- 32-bit mode, an extension bit that is not neutral (R70). -/
  | mode32Extension
  /-- 32-bit mode, an EVEX form with the address-size override (R84). -/
  | evexAddr16
deriving DecidableEq, Repr

/-- What the decoder answers where it gives no instruction. -/
inductive DecodeError where
  /-- The bytes end before the instruction does. -/
  | truncated
  /-- The instruction is longer than 15 bytes: `#GP(0)` (R60). -/
  | tooLong
  | invalid (r : InvalidReason)
  | other (r : OtherReason)
  | uncertain (r : UncertainReason)
deriving DecidableEq, Repr

/-! ## The bytes in front (R63, R64) -/

/-- The byte of a `Prefix` (R63, R64). -/
def Prefix.byte : Prefix → Byte
  | .seg .es => 0x26#8
  | .seg .cs => 0x2E#8
  | .seg .ss => 0x36#8
  | .seg .ds => 0x3E#8
  | .seg .fs => 0x64#8
  | .seg .gs => 0x65#8
  | .addrSize => 0x67#8
  | .opSize => 0x66#8
  | .repne => 0xF2#8
  | .rep => 0xF3#8
  | .lock => 0xF0#8
  | .rex w r x b => 4#4 ++ BitVec.ofBool w ++ BitVec.ofBool r ++ BitVec.ofBool x ++ BitVec.ofBool b

/-- The bytes 40 to 4F are REX bytes in 64-bit mode only; in 32-bit mode they are other instructions (R64). -/
def decodePrefix (m : Mode) (b : Byte) : Option Prefix :=
  if b = 0x26#8 then some (.seg .es)
  else if b = 0x2E#8 then some (.seg .cs)
  else if b = 0x36#8 then some (.seg .ss)
  else if b = 0x3E#8 then some (.seg .ds)
  else if b = 0x64#8 then some (.seg .fs)
  else if b = 0x65#8 then some (.seg .gs)
  else if b = 0x67#8 then some .addrSize
  else if b = 0x66#8 then some .opSize
  else if b = 0xF2#8 then some .repne
  else if b = 0xF3#8 then some .rep
  else if b = 0xF0#8 then some .lock
  else if m = .mode64 ∧ b.extractLsb' 4 4 = 4#4 then
    some (.rex (b.getLsbD 3) (b.getLsbD 2) (b.getLsbD 1) (b.getLsbD 0))
  else none

/-- The longest run of such bytes at the front, and what follows it (R60). -/
def splitFront (m : Mode) : List Byte → List Prefix × List Byte
  | [] => ([], [])
  | b :: bs =>
    match decodePrefix m b with
    | some p => (p :: (splitFront m bs).1, (splitFront m bs).2)
    | none => ([], b :: bs)

/-- A REX byte is among them. -/
def hasRex (pfx : List Prefix) : Bool :=
  pfx.any fun p => match p with
    | .rex _ _ _ _ => true
    | _ => false

/-- The bits R, X and B of the REX byte that takes effect: the one that is the last byte before `0F` (R63, R64). -/
def liveRex (pfx : List Prefix) : Bool × Bool × Bool :=
  match pfx.getLast? with
  | some (.rex _ r x b) => (r, x, b)
  | _ => (false, false, false)

/-- Those a VEX or EVEX form may have in front of it: segment overrides and 67 (R68). -/
def Prefix.okBeforeVex : Prefix → Bool
  | .seg _ => true
  | .addrSize => true
  | _ => false

/-- Those the legacy form may have: segment overrides, 67 and REX bytes (R63). -/
def Prefix.okBeforeLegacy : Prefix → Bool
  | .seg _ => true
  | .addrSize => true
  | .rex _ _ _ _ => true
  | _ => false

/-- The address size: 64 bits in 64-bit mode, 32 with 67; 32 bits in 32-bit mode, 16 with 67 (R72, R84). -/
def addrSize (m : Mode) (pfx : List Prefix) : ASize :=
  match m, pfx.contains .addrSize with
  | .mode64, false => .a64
  | .mode64, true => .a32
  | _, false => .a32
  | _, true => .a16

/-! ## ModRM, SIB and displacement (R71, R72, R73, R84) -/

/-- A little-endian disp32 (R74). -/
def takeDisp32 : List Byte → Option (BitVec 32)
  | b0 :: b1 :: b2 :: b3 :: _ => some (b3 ++ b2 ++ b1 ++ b0)
  | _ => none

/-- A little-endian disp16 (R74, R84). -/
def takeDisp16 : List Byte → Option (BitVec 16)
  | b0 :: b1 :: _ => some (b1 ++ b0)
  | _ => none

/-- What follows ModRM with 32- or 64-bit addressing, `mod` not 11 (R72, R73). -/
def parseMem (md : BitVec 2) (rm : BitVec 3) (bs : List Byte) : Option RM :=
  if rm = 4#3 then
    match bs with
    | [] => none
    | s :: rest =>
      let scale : BitVec 2 := s.extractLsb' 6 2
      let index : BitVec 3 := s.extractLsb' 3 3
      let base : BitVec 3 := s.extractLsb' 0 3
      if md = 0#2 then
        if base = 5#3 then (takeDisp32 rest).map (RM.sibDisp32 scale index)
        else some (.sib scale index base)
      else if md = 1#2 then rest.head?.map (RM.sib8 scale index base)
      else (takeDisp32 rest).map (RM.sib32 scale index base)
  else if md = 0#2 then
    if rm = 5#3 then (takeDisp32 bs).map RM.disp32 else some (.ind rm)
  else if md = 1#2 then bs.head?.map (RM.ind8 rm)
  else (takeDisp32 bs).map (RM.ind32 rm)

/-- What follows ModRM with 16-bit addressing, `mod` not 11 (R84). -/
def parseMem16 (md : BitVec 2) (rm : BitVec 3) (bs : List Byte) : Option RM :=
  if md = 0#2 then
    if rm = 6#3 then (takeDisp16 bs).map RM.disp16 else some (.ind16 rm)
  else if md = 1#2 then bs.head?.map (RM.ind16d8 rm)
  else (takeDisp16 bs).map (RM.ind16d16 rm)

/-- The ModRM byte and what it calls for: the `reg` field and the `r/m` operand (R71). None when the bytes end too early. -/
def parseModRM (a : ASize) : List Byte → Option (BitVec 3 × RM)
  | [] => none
  | b :: bs =>
    let md : BitVec 2 := b.extractLsb' 6 2
    let reg : BitVec 3 := b.extractLsb' 3 3
    let rm : BitVec 3 := b.extractLsb' 0 3
    if md = 3#2 then some (reg, .reg rm)
    else if a = .a16 then (parseMem16 md rm bs).map fun o => (reg, o)
    else (parseMem md rm bs).map fun o => (reg, o)

/-- The `r/m` operand is a register (`mod = 11`). -/
def RM.isReg : RM → Bool
  | .reg _ => true
  | _ => false

/-! ## The decoder -/

/-- After `0F`: the legacy form (R62, R63). 66 in front is refused before the length is looked at (log entry 19). -/
def decodeLegacy (m : Mode) (pfx : List Prefix) : List Byte → Except DecodeError Instr
  | [] => .error .truncated
  | op :: bs =>
    if op ≠ 0x14#8 then .error (.other .opcode)
    else if pfx.contains .opSize then .error (.other .opSizeBeforeLegacy)
    else
      match parseModRM (addrSize m pfx) bs with
      | none => .error .truncated
      | some (reg, rm) =>
        if pfx.contains .lock then .error (.invalid .lock)
        else if pfx.contains .rep || pfx.contains .repne then .error (.invalid .repBeforeLegacy)
        else .ok (.unpcklps pfx reg rm)

/-- After VEX bytes, an opcode other than `14`: what stands in front of the VEX bytes may be invalid whatever the opcode (R68; log
entry 19). -/
def otherVexOpcode (pfx : List Prefix) : DecodeError :=
  if pfx.all Prefix.okBeforeVex then .other .opcode else .invalid .badBeforeVex

/-- From the opcode byte of a VEX form on: the opcode, the operands, then the invalid encodings (R67, R68). -/
def decodeVexTail (m : Mode) (pfx : List Prefix) (pp : BitVec 2) (build : BitVec 3 → RM → Instr) :
    List Byte → Except DecodeError Instr
  | [] => .error .truncated
  | op :: bs =>
    if op ≠ 0x14#8 then .error (otherVexOpcode pfx)
    else
      match parseModRM (addrSize m pfx) bs with
      | none => .error .truncated
      | some (reg, rm) =>
        if !pfx.all Prefix.okBeforeVex then .error (.invalid .badBeforeVex)
        else if pp ≠ 0#2 then .error (.invalid .vexPp)
        else .ok (build reg rm)

/-- After `C5`: the two-byte VEX sequence (R65, R67, R70). `pp = 01` is refused before the length is looked at (log entry 19). -/
def decodeVexC5 (m : Mode) (pfx : List Prefix) : List Byte → Except DecodeError Instr
  | [] => .error .truncated
  | p :: bs =>
    if m = .mode32 ∧ p.extractLsb' 6 2 ≠ 3#2 then .error (.other .lesLdsBound)
    else if p.extractLsb' 0 2 = 1#2 then .error (.other .vexPd)
    else
      let r : BitVec 1 := ~~~p.extractLsb' 7 1
      let src1 : BitVec 4 := ~~~p.extractLsb' 3 4
      decodeVexTail m pfx (p.extractLsb' 0 2)
        (fun reg rm =>
          if p.getLsbD 2 then .vunpcklpsVex256C5 pfx (r ++ reg) src1 rm
          else .vunpcklpsVex128C5 pfx (r ++ reg) src1 rm) bs

/-- After `C4 P0`: the second byte of the three-byte VEX sequence and the rest (R66, R67, R70). `pp = 01` and the uncertain bits of
32-bit mode are refused before the length is looked at (log entry 19). -/
def decodeVexC4P1 (m : Mode) (pfx : List Prefix) (p0 : Byte) : List Byte → Except DecodeError Instr
  | [] => .error .truncated
  | p1 :: bs =>
    if p1.extractLsb' 0 2 = 1#2 then .error (.other .vexPd)
    else if m = .mode32 ∧ (p0.getLsbD 5 = false ∨ p1.getLsbD 6 = false) then .error (.uncertain .mode32Extension)
    else
      let r : BitVec 1 := ~~~p0.extractLsb' 7 1
      let src1 : BitVec 4 := ~~~p1.extractLsb' 3 4
      decodeVexTail m pfx (p1.extractLsb' 0 2)
        (fun reg rm =>
          if p1.getLsbD 2 then
            .vunpcklpsVex256C4 pfx (p1.getLsbD 7) (!p0.getLsbD 6) (!p0.getLsbD 5) (r ++ reg) src1 rm
          else .vunpcklpsVex128C4 pfx (p1.getLsbD 7) (!p0.getLsbD 6) (!p0.getLsbD 5) (r ++ reg) src1 rm) bs

/-- After `C4` (R66, R70). Another map is refused before the length is looked at (log entry 19). -/
def decodeVexC4 (m : Mode) (pfx : List Prefix) : List Byte → Except DecodeError Instr
  | [] => .error .truncated
  | p0 :: bs =>
    if m = .mode32 ∧ p0.extractLsb' 6 2 ≠ 3#2 then .error (.other .lesLdsBound)
    else if p0.extractLsb' 0 5 ≠ 1#5 then .error (.other .vexMap)
    else decodeVexC4P1 m pfx p0 bs

/-- What of the three EVEX bytes must hold in 32-bit mode: every extension bit stored as 1 (R70, D22). -/
def evexNeutral (p0 p1 p2 : Byte) : Bool :=
  p0.getLsbD 5 && p0.getLsbD 4 && p1.getLsbD 6 && p2.getLsbD 3

/-- `P0[3:2]` is 00 and `P1[2]` is 1 (R69). -/
def evexFixed (p0 p1 : Byte) : Bool := p0.extractLsb' 2 2 == 0#2 && p1.getLsbD 2

/-- The EVEX form with vector length `L'L` 00, 01 or 10 (R78). -/
def evexInstr (ll : BitVec 2) (pfx : List Prefix) (x b : Bool) (dest src1 : BitVec 5) (aaa : BitVec 3) (z bcst : Bool) (rm : RM) :
    Instr :=
  if ll = 0#2 then .vunpcklpsEvex128 pfx x b dest src1 aaa z bcst rm
  else if ll = 1#2 then .vunpcklpsEvex256 pfx x b dest src1 aaa z bcst rm
  else .vunpcklpsEvex512 pfx x b dest src1 aaa z bcst rm

/-- The rows of R80 for EVEX bytes with opcode `14`: first the invalid ones (R68, R69, R78), whatever `pp` and the map are where
the row names neither; then another `pp` or map, for which R80 has no row; then the fields of the form, register numbers with
the stored bits complemented (R76; log entry 19). -/
def decodeEvexFields (pfx : List Prefix) (p0 p1 p2 : Byte) (reg : BitVec 3) (rm : RM) : Except DecodeError Instr :=
  if !pfx.all Prefix.okBeforeVex then .error (.invalid .badBeforeVex)
  else if !evexFixed p0 p1 then .error (.invalid .evexFixedBits)
  else if p1.getLsbD 7 ∧ p1.extractLsb' 0 2 = 0#2 then .error (.invalid .evexW)
  else if p2.extractLsb' 5 2 = 3#2 then .error (.invalid .evexLength)
  else if p2.getLsbD 7 ∧ p2.extractLsb' 0 3 = 0#3 then .error (.invalid .evexZeroNoMask)
  else if p2.getLsbD 4 ∧ rm.isReg then .error (.invalid .evexBcstReg)
  else if p1.extractLsb' 0 2 ≠ 0#2 then .error (.other .evexPp)
  else if p0.extractLsb' 0 2 ≠ 1#2 then .error (.other .evexMap)
  else .ok (evexInstr (p2.extractLsb' 5 2) pfx (!p0.getLsbD 6) (!p0.getLsbD 5)
    ((~~~p0.extractLsb' 4 1) ++ (~~~p0.extractLsb' 7 1) ++ reg) ((~~~p2.extractLsb' 3 1) ++ (~~~p1.extractLsb' 3 4))
    (p2.extractLsb' 0 3) (p2.getLsbD 7) (p2.getLsbD 4) rm)

/-- After EVEX bytes, an opcode other than `14`: what stands in front of the EVEX bytes, or their fixed bits, may be invalid
whatever the opcode (R68, R69; log entry 19). -/
def otherEvexOpcode (pfx : List Prefix) (p0 p1 : Byte) : DecodeError :=
  if !pfx.all Prefix.okBeforeVex then .invalid .badBeforeVex
  else if !evexFixed p0 p1 then .invalid .evexFixedBits
  else .other .opcode

/-- From the opcode byte of an EVEX form on (R69, R78). In 32-bit mode the uncertain encodings are refused before the length is looked
at (log entry 19). -/
def decodeEvexTail (m : Mode) (pfx : List Prefix) (p0 p1 p2 : Byte) : List Byte → Except DecodeError Instr
  | [] => .error .truncated
  | op :: bs =>
    if m = .mode32 ∧ evexNeutral p0 p1 p2 = false then .error (.uncertain .mode32Extension)
    else if m = .mode32 ∧ pfx.contains .addrSize then .error (.uncertain .evexAddr16)
    else if op ≠ 0x14#8 then .error (otherEvexOpcode pfx p0 p1)
    else
      match parseModRM (addrSize m pfx) bs with
      | none => .error .truncated
      | some (reg, rm) => decodeEvexFields pfx p0 p1 p2 reg rm

/-- After `62` (R69, R70). -/
def decodeEvex (m : Mode) (pfx : List Prefix) : List Byte → Except DecodeError Instr
  | [] => .error .truncated
  | p0 :: bs =>
    if m = .mode32 ∧ p0.extractLsb' 6 2 ≠ 3#2 then .error (.other .lesLdsBound)
    else
      match bs with
      | p1 :: p2 :: rest => decodeEvexTail m pfx p0 p1 p2 rest
      | _ => .error .truncated

/-- After the bytes in front: the four ways one of the templates can begin (R60). -/
def decodeBody (m : Mode) (pfx : List Prefix) : List Byte → Except DecodeError Instr
  | [] => .error .truncated
  | b :: bs =>
    if b = 0x0F#8 then decodeLegacy m pfx bs
    else if b = 0xC5#8 then decodeVexC5 m pfx bs
    else if b = 0xC4#8 then decodeVexC4 m pfx bs
    else if b = 0x62#8 then decodeEvex m pfx bs
    else .error (.other .opcode)

/-- The longest instruction (R60). -/
def maxLength : Nat := 15

/-- The decoder: total on any bytes. An instruction that would need a sixteenth byte is too long (R60). -/
def decode (m : Mode) (bs : List Byte) : Except DecodeError Instr :=
  if m.admitted then
    let window := bs.take maxLength
    match decodeBody m (splitFront m window).1 (splitFront m window).2 with
    | .error .truncated => if maxLength ≤ bs.length then .error .tooLong else .error .truncated
    | r => r
  else .error (.other .mode)

/-! ## The encoder -/

/-- The little-endian bytes of a disp32 (R74). -/
def disp32Bytes (d : BitVec 32) : List Byte :=
  [d.extractLsb' 0 8, d.extractLsb' 8 8, d.extractLsb' 16 8, d.extractLsb' 24 8]

/-- The little-endian bytes of a disp16 (R84). -/
def disp16Bytes (d : BitVec 16) : List Byte :=
  [d.extractLsb' 0 8, d.extractLsb' 8 8]

/-- The ModRM byte, the SIB byte and the displacement (R71, R72, R73, R84). -/
def modrmBytes (reg : BitVec 3) : RM → List Byte
  | .reg rm => [3#2 ++ reg ++ rm]
  | .ind rm => [0#2 ++ reg ++ rm]
  | .disp32 d => (0#2 ++ reg ++ 5#3) :: disp32Bytes d
  | .ind8 rm d => [1#2 ++ reg ++ rm, d]
  | .ind32 rm d => (2#2 ++ reg ++ rm) :: disp32Bytes d
  | .sib s i b => [0#2 ++ reg ++ 4#3, s ++ i ++ b]
  | .sibDisp32 s i d => (0#2 ++ reg ++ 4#3) :: (s ++ i ++ 5#3) :: disp32Bytes d
  | .sib8 s i b d => [1#2 ++ reg ++ 4#3, s ++ i ++ b, d]
  | .sib32 s i b d => (2#2 ++ reg ++ 4#3) :: (s ++ i ++ b) :: disp32Bytes d
  | .ind16 rm => [0#2 ++ reg ++ rm]
  | .disp16 d => (0#2 ++ reg ++ 6#3) :: disp16Bytes d
  | .ind16d8 rm d => [1#2 ++ reg ++ rm, d]
  | .ind16d16 rm d => (2#2 ++ reg ++ rm) :: disp16Bytes d

/-- The two bytes `C5 P` (R65). -/
def vexC5Bytes (l : Bool) (dest src1 : BitVec 4) : List Byte :=
  [0xC5#8, (~~~dest.extractLsb' 3 1) ++ (~~~src1) ++ BitVec.ofBool l ++ 0#2]

/-- The three bytes `C4 P0 P1` (R66). -/
def vexC4Bytes (w x b l : Bool) (dest src1 : BitVec 4) : List Byte :=
  [0xC4#8, (~~~dest.extractLsb' 3 1) ++ BitVec.ofBool (!x) ++ BitVec.ofBool (!b) ++ 1#5,
    BitVec.ofBool w ++ (~~~src1) ++ BitVec.ofBool l ++ 0#2]

/-- The four bytes `62 P0 P1 P2` (R69, R78). -/
def evexBytes (ll : BitVec 2) (x b : Bool) (dest src1 : BitVec 5) (aaa : BitVec 3) (z bcst : Bool) : List Byte :=
  [0x62#8,
    (~~~dest.extractLsb' 3 1) ++ BitVec.ofBool (!x) ++ BitVec.ofBool (!b) ++ (~~~dest.extractLsb' 4 1) ++ 1#4,
    0#1 ++ (~~~src1.extractLsb' 0 4) ++ 4#3,
    BitVec.ofBool z ++ ll ++ BitVec.ofBool bcst ++ (~~~src1.extractLsb' 4 1) ++ aaa]

/-- The low three bits of a register number stand in `ModRM.reg` (R76). -/
def lowReg {n : Nat} (dest : BitVec n) : BitVec 3 := dest.extractLsb' 0 3

/-- The bytes of an instruction (R60). -/
def encode : Instr → List Byte
  | .unpcklps pfx reg rm => pfx.map Prefix.byte ++ [0x0F#8, 0x14#8] ++ modrmBytes reg rm
  | .vunpcklpsVex128C5 pfx dest src1 rm =>
    pfx.map Prefix.byte ++ vexC5Bytes false dest src1 ++ [0x14#8] ++ modrmBytes (lowReg dest) rm
  | .vunpcklpsVex128C4 pfx w x b dest src1 rm =>
    pfx.map Prefix.byte ++ vexC4Bytes w x b false dest src1 ++ [0x14#8] ++ modrmBytes (lowReg dest) rm
  | .vunpcklpsVex256C5 pfx dest src1 rm =>
    pfx.map Prefix.byte ++ vexC5Bytes true dest src1 ++ [0x14#8] ++ modrmBytes (lowReg dest) rm
  | .vunpcklpsVex256C4 pfx w x b dest src1 rm =>
    pfx.map Prefix.byte ++ vexC4Bytes w x b true dest src1 ++ [0x14#8] ++ modrmBytes (lowReg dest) rm
  | .vunpcklpsEvex128 pfx x b dest src1 aaa z bcst rm =>
    pfx.map Prefix.byte ++ evexBytes 0#2 x b dest src1 aaa z bcst ++ [0x14#8] ++ modrmBytes (lowReg dest) rm
  | .vunpcklpsEvex256 pfx x b dest src1 aaa z bcst rm =>
    pfx.map Prefix.byte ++ evexBytes 1#2 x b dest src1 aaa z bcst ++ [0x14#8] ++ modrmBytes (lowReg dest) rm
  | .vunpcklpsEvex512 pfx x b dest src1 aaa z bcst rm =>
    pfx.map Prefix.byte ++ evexBytes 2#2 x b dest src1 aaa z bcst ++ [0x14#8] ++ modrmBytes (lowReg dest) rm

/-! ## Length (R79) -/

/-- ModRM, SIB and displacement: 1, plus 1 for an SIB byte, plus 0, 1, 2 or 4 (R72, R73, R79, R84). -/
def RM.len : RM → Nat
  | .reg _ => 1
  | .ind _ => 1
  | .disp32 _ => 5
  | .ind8 _ _ => 2
  | .ind32 _ _ => 5
  | .sib _ _ _ => 2
  | .sibDisp32 _ _ _ => 6
  | .sib8 _ _ _ _ => 3
  | .sib32 _ _ _ _ => 6
  | .ind16 _ => 1
  | .disp16 _ => 3
  | .ind16d8 _ _ => 2
  | .ind16d16 _ _ => 3

/-- The length in bytes: the bytes in front, 2 for `C5`, 3 for `C4`, 4 for `62`, the opcode bytes, the operand (R79). -/
def Instr.len : Instr → Nat
  | .unpcklps pfx _ rm => pfx.length + 2 + rm.len
  | .vunpcklpsVex128C5 pfx _ _ rm => pfx.length + 2 + 1 + rm.len
  | .vunpcklpsVex128C4 pfx _ _ _ _ _ rm => pfx.length + 3 + 1 + rm.len
  | .vunpcklpsVex256C5 pfx _ _ rm => pfx.length + 2 + 1 + rm.len
  | .vunpcklpsVex256C4 pfx _ _ _ _ _ rm => pfx.length + 3 + 1 + rm.len
  | .vunpcklpsEvex128 pfx _ _ _ _ _ _ _ rm => pfx.length + 4 + 1 + rm.len
  | .vunpcklpsEvex256 pfx _ _ _ _ _ _ _ rm => pfx.length + 4 + 1 + rm.len
  | .vunpcklpsEvex512 pfx _ _ _ _ _ _ _ rm => pfx.length + 4 + 1 + rm.len

/-! ## Words numbered as spec/opcode_table.json numbers them -/

/-- The bytes of a table word of `nbytes` bytes: the table's convention is 'first byte most significant' (log entry 9). -/
def tableBytes (w : Nat) : Nat → List Byte
  | 0 => []
  | n + 1 => BitVec.ofNat 8 (w / 2 ^ (8 * n)) :: tableBytes w n

/-- The whole instruction: the table word's bytes and then bytes of zero, up to the longest instruction. -/
def wordBytes (nbits w : Nat) : List Byte :=
  (tableBytes w (nbits / 8) ++ List.replicate maxLength 0#8).take maxLength

/-- The instruction the decoder reads, in 64-bit mode, from a table word. -/
def decodeTableWord (nbits w : Nat) : Option Instr :=
  match decode .mode64 (wordBytes nbits w) with
  | .ok i => some i
  | .error _ => none

end Sys2Proof
end

