-- ==== Sys2Proof/Machine/Interleave.lean ====
section
/-! DEFINITION. What the six forms compute: the interleave of one lane (R101), of a vector (R102), the broadcast of one element
(R50, R109), write-masking (R111), and the three ways the result fills the destination register (R103 to R108). -/

namespace Sys2Proof.Machine

/-- Element `j`: bits `32j+31:32j` (R14, R23). -/
def elem (j : Nat) (v : Vec) : Elem := v.extractLsb' (32 * j) 32

/-- Lane `n`: bits `128n+127:128n` (R23). -/
def lane (n : Nat) (v : Vec) : BitVec 128 := v.extractLsb' (128 * n) 128

/-- The vector whose elements `0 .. n-1` are those given, and whose other bits are 0. -/
def ofElems (f : Nat → Elem) : Nat → Vec
  | 0 => 0#512
  | n + 1 => ofElems f n ||| ((f n).setWidth 512 <<< (32 * n))

/-- The vector whose lanes `0 .. n-1` are those given, and whose other bits are 0. -/
def ofLanes (f : Nat → BitVec 128) : Nat → Vec
  | 0 => 0#512
  | n + 1 => ofLanes f n ||| ((f n).setWidth 512 <<< (128 * n))

/-- Bits `VL-1:0`, and 0 above. -/
def truncate (v : VLen) (x : Vec) : Vec :=
  match v with
  | .v128 => (x.extractLsb' 0 128).setWidth 512
  | .v256 => (x.extractLsb' 0 256).setWidth 512
  | .v512 => x

/-- `Lane128(a, b) = b[63:32] ++ a[63:32] ++ b[31:0] ++ a[31:0]` (R101). -/
def lane128 (a b : BitVec 128) : BitVec 128 :=
  b.extractLsb' 32 32 ++ a.extractLsb' 32 32 ++ b.extractLsb' 0 32 ++ a.extractLsb' 0 32

/-- `InterleaveLow(VL, s1, s2)`: lane by lane (R102). -/
def interleaveLow (v : VLen) (s1 s2 : Vec) : Vec := ofLanes (fun n => lane128 (lane n s1) (lane n s2)) v.lanes

/-- The `VL`-bit value whose every element is the 32-bit value read (R50, R109). -/
def broadcast (v : VLen) (w : Vec) : Vec := ofElems (fun _ => elem 0 w) v.elems

/-- `enabled_j`: `(aaa = 0) OR (m[j] = 1)` (R25, R111). -/
def enabled (aaa : BitVec 3) (m : Word) (j : Nat) : Bool := aaa == 0#3 || m.getLsbD j

/-- `ApplyMask(VL, tmp, old, aaa, z, m)`: element by element, with bits `MAXVL-1:VL` zero (R111). -/
def applyMask (v : VLen) (tmp old : Vec) (aaa : BitVec 3) (z : Bool) (m : Word) : Vec :=
  ofElems (fun j => if enabled aaa m j then elem j tmp else if z then 0#32 else elem j old) v.elems

/-- Form 1: lane 0 is interleaved, bits `MAXVL-1:128` stay those of the first source, which is the destination (R103). -/
def legacyResult (s1 s2 : Vec) : Vec :=
  s1.extractLsb' 128 384 ++ lane128 (lane 0 s1) (lane 0 s2)

/-- Forms 2 and 3: bits `MAXVL-1:VL` become 0 (R104, R105). -/
def vexResult (v : VLen) (s1 s2 : Vec) : Vec := interleaveLow v s1 s2

/-- Forms 4, 5 and 6 (R106, R107, R108). -/
def evexResult (v : VLen) (s1 s2 old : Vec) (aaa : BitVec 3) (z : Bool) (m : Word) : Vec :=
  applyMask v (interleaveLow v s1 s2) old aaa z m

end Sys2Proof.Machine
end

