-- ==== Sys2Proof/Machine/Forms.lean ====
section
/-! DEFINITION. What each of the six forms is: its vector length, its CPUID flags, whether it has the EVEX fields, the registers
it can name (R2, R22, R61). -/

namespace Sys2Proof

/-- `FEAT` as CPUID reports it (R5, R33): SSE is bit 25 of EDX and AVX bit 28 of ECX of leaf 01H; AVX512F is bit 16 and AVX512VL
bit 31 of EBX of leaf 07H, subleaf 0. -/
def Features.ofCpuid (edx1 ecx1 ebx7 : BitVec 32) : Features where
  sse := edx1.getLsbD 25
  avx := ecx1.getLsbD 28
  avx512f := ebx7.getLsbD 16
  avx512vl := ebx7.getLsbD 31

/-- The form's vector length (R11, R61). -/
def Form.vlen : Form → VLen
  | .legacy128 => .v128
  | .vex128 => .v128
  | .vex256 => .v256
  | .evex128 => .v128
  | .evex256 => .v256
  | .evex512 => .v512

/-- Forms 4, 5 and 6: the forms with a writemask, zeroing and broadcast (R61). -/
def Form.isEvex : Form → Bool
  | .legacy128 => false
  | .vex128 => false
  | .vex256 => false
  | .evex128 => true
  | .evex256 => true
  | .evex512 => true

/-- The CPUID flags the form needs are all 1 (R2). -/
def Form.featuresPresent (f : Features) : Form → Bool
  | .legacy128 => f.sse
  | .vex128 => f.avx
  | .vex256 => f.avx
  | .evex128 => f.avx512vl && f.avx512f
  | .evex256 => f.avx512vl && f.avx512f
  | .evex512 => f.avx512f

/-- How many vector registers the form can name in the mode, the legacy form with a REX byte (R22). -/
def Form.nameable (m : Mode) : Form → Nat
  | .legacy128 => if m = .mode64 then 16 else 8
  | .vex128 => if m = .mode64 then 16 else 8
  | .vex256 => if m = .mode64 then 16 else 8
  | .evex128 => if m = .mode64 then 32 else 8
  | .evex256 => if m = .mode64 then 32 else 8
  | .evex512 => if m = .mode64 then 32 else 8

end Sys2Proof
end

