-- ==== Sys2Proof/Machine/State.lean ====
section
/-! DEFINITION. The machine's state as plain data, its faults and refusals, and the state after reset. INVENTORY.md lists every
field with the rule that names it and its reset value. -/

namespace Sys2Proof

namespace Machine

/-! ## How a step can stop -/

/-- The page-fault error code (R127), by the names of its bits. -/
structure PageFaultCode where
  /-- The page is present: the fault is a protection violation, not an absent page. -/
  present  : Bool
  /-- The access was a write. -/
  write    : Bool
  /-- The access was made at `CPL = 3`. -/
  user     : Bool
  /-- A reserved bit was set in a paging structure. -/
  reserved : Bool
  /-- The access was an instruction fetch. -/
  fetch    : Bool
  /-- A protection key denied the access. -/
  key      : Bool
deriving DecidableEq, Repr

/-- The exceptions of R122. A fault is an outcome of the step (R131, D9): no state changes and the program counter stays on
the faulting instruction. Each is raised by the machine itself, and each is safe: the spec names the exception. -/
inductive Fault where
  /-- `#UD`, vector 6 (R123). Raised by the decoder's invalid encodings and by every meaning's first check. Safe. -/
  | invalidOpcode
  /-- `#NM`, vector 7 (R124). Raised by every meaning when `CR0.TS = 1`. Safe. -/
  | deviceNotAvailable
  /-- `#SS(0)`, vector 12 (R125). Raised by the segment check of an operand addressed through SS. Safe. -/
  | stackSegment
  /-- `#GP(0)`, vector 13 (R126). Raised by the legacy form's alignment check, by the segment check of an operand addressed
  through another segment, and by a step whose instruction is longer than 15 bytes. Safe. -/
  | generalProtection
  /-- `#PF(code)`, vector 14, with the faulting linear address (R127). Raised by the translation of an operand's bytes.
  Safe: which of several faulting bytes is reported is a free value. -/
  | pageFault (code : PageFaultCode) (la : Word)
  /-- `#AC(0)`, vector 17 (R129). Raised by the alignment check of forms 2 to 6, as a free value says. Safe. -/
  | alignmentCheck
deriving DecidableEq, Repr

/-- What the spec refuses or gives no meaning. Every one is safe: the model stops where the hardware may go on. -/
inductive Refusal where
  /-- An instruction without a meaning yet. No arm of exec answers it. Safe. -/
  | notModelled (mnemonic : String)
  /-- Raised by step: the bytes are not an instruction of the family (R80). Safe. -/
  | notThisInstruction
  /-- Raised by step: an encoding the spec is not sure of and refuses (R70, R84, D22). Safe. -/
  | uncertainEncoding
  /-- Raised by step, and by the legacy form's meaning: a mode the spec excludes (D3), or `EFLAGS.VM = 1` (R30, log entry 30).
  Safe. -/
  | excludedMode
  /-- Raised by step: an instruction byte cannot be fetched. Faults of the fetch are outside the spec (R130, R28). Safe. -/
  | codeFetch
  /-- Raised by step: `EFLAGS.TF = 1`, which the launch premise `P_quiet` excludes (R139, R150). Safe. -/
  | singleStep
  /-- Raised by the memory read: the operand passes the top of the address space (R43, D19). Safe. -/
  | addressWrap
  /-- Raised by the legacy form's memory read: the segment base is not a multiple of 16, where the two readings of the
  alignment rule differ (R44, D19). Safe. -/
  | legacyBaseUnaligned
  /-- Raised by the memory read: a byte of the operand is on device memory (R58, D18), of the legacy form one of all 16. Safe. -/
  | deviceMemory
  /-- Raised by the memory read: a byte of the operand is outside the platform's memory (R57). Safe. -/
  | absentMemory
deriving DecidableEq, Repr

/-- Why a part of an execution does not finish. -/
inductive Stop where
  | fault (f : Fault)
  | refused (r : Refusal)
deriving DecidableEq, Repr

/-! ## Parts of the state -/

/-- A segment register: the selector and the hidden base, limit and access rights (R29, R48). Of the access rights, the two
the segment check tests. -/
structure Segment where
  selector : BitVec 16
  base     : Word
  limit    : BitVec 32
  present  : Bool
  readable : Bool
deriving DecidableEq, Repr

/-- The x87 state, which R32 names and no instruction of the family touches (layout PRESUMED, log entry 5). -/
structure X87 where
  control : BitVec 16
  status  : BitVec 16
  tag     : BitVec 16
  opcode  : BitVec 16
  ip      : Word
  dp      : Word
  st      : Vector (BitVec 80) 8
deriving DecidableEq, Repr

/-- Why a range of linear addresses translates or faults: the causes of R127 (log entry 14). -/
inductive PageKind where
  /-- Readable at every privilege level. -/
  | user
  /-- Readable below `CPL = 3`; at 3 a page fault. -/
  | supervisor
  /-- Present, and the access is a protection violation. -/
  | denied
  /-- Not present. -/
  | absent
  /-- A reserved bit is set in a paging structure. -/
  | reservedBit
  /-- A protection key denies the access. -/
  | keyDenied
deriving DecidableEq, Repr

/-- One range of the translation (R49): the linear addresses `first` to `first + size - 1`, the accesses and privilege levels it
is for, and what becomes of them. The spec leaves the dependence of `Translate` on all three arguments open (D19); so does a list
of ranges (log entry 14). -/
structure PageRange where
  first  : Nat
  size   : Nat
  phys   : Nat
  /-- The range is for reads. -/
  read   : Bool
  /-- The range is for instruction fetches. -/
  fetch  : Bool
  /-- The privilege levels the range is for. -/
  levels : List Nat
  kind   : PageKind
deriving DecidableEq, Repr

/-- What a window of the platform's address map is (R57, R58). -/
inductive WindowKind where
  | device | absent
deriving DecidableEq, Repr

/-- A window of physical addresses that is not ordinary memory (R57, R58). -/
structure Window where
  first : Nat
  size  : Nat
  kind  : WindowKind
deriving DecidableEq, Repr

/-- Memory: the listed bytes by physical address, addresses strictly rising. -/
abbrev Memory := List Host.Cell

/-- The whole state. -/
structure State where
  /-- The processor's parameters, which no step changes (R4, R5, R8). -/
  cfg     : Config
  /-- `MODE` (R6). -/
  mode    : Mode
  /-- ZMM0 to ZMM31 (R20, R21). -/
  zmm     : Vector Vec 32
  /-- k0 to k7 (R24). -/
  k       : Vector Word 8
  /-- RAX to R15 (R26). -/
  gpr     : Vector Word 16
  /-- RIP or EIP (R27). -/
  rip     : Word
  es      : Segment
  cs      : Segment
  ss      : Segment
  ds      : Segment
  fs      : Segment
  gs      : Segment
  /-- EFLAGS or RFLAGS (R30). One 64-bit field in both modes: no rule states the width (PRESUMED, log entry 5). -/
  rflags  : Word
  /-- MXCSR (R31). Its width of 32 bits is PRESUMED (log entry 5). -/
  mxcsr   : BitVec 32
  /-- The x87 state (R32). -/
  x87     : X87
  cr0     : Word
  cr2     : Word
  cr3     : Word
  cr4     : Word
  cr8     : Word
  xcr0    : Word
  efer    : Word
  /-- The content of `Translate` while paging is on (R49). -/
  pages   : List PageRange
  /-- The platform's windows that are not ordinary memory (R57, R58). -/
  windows : List Window
  /-- The bytes of memory (R40). -/
  mem     : Memory
  /-- THE MODEL'S OWN: the number of the next draw of the free values of Config (log entry 13). -/
  draws   : Nat
deriving DecidableEq, Repr

/-- The reset values of a data segment register and of SS (PRESUMED: the family's, log entry 5). -/
def Segment.resetData : Segment where
  selector := 0
  base := 0
  limit := 0xFFFF
  present := true
  readable := true

/-- CS after reset: the base is R151's, the rest the family's (log entry 5). -/
def Segment.resetCode : Segment where
  selector := 0xF000
  base := 0xFFFF0000
  limit := 0xFFFF
  present := true
  readable := true

/-- The x87 state after reset (PRESUMED: the family's, log entry 5). -/
def X87.reset : X87 where
  control := 0x0040
  status := 0
  tag := 0x5555
  opcode := 0
  ip := 0
  dp := 0
  st := Vector.replicate 8 0

/-- The processor of the reset state: every feature of the spec, `MAXVL = 512`, `KW = 64` (DESIGN CHOICE, log entry 1). -/
def resetConfig : Config where
  maxvl := .v512
  kw := 64
  feat := ⟨true, true, true, true⟩

/-- The machine right after reset: the values of R151, and for what R151 leaves out those of log entries 4 to 7. -/
def State.reset : State where
  cfg := resetConfig
  mode := .real
  zmm := Vector.replicate 32 0
  k := Vector.replicate 8 0
  gpr := Vector.replicate 16 0
  rip := 0xFFF0
  es := Segment.resetData
  cs := Segment.resetCode
  ss := Segment.resetData
  ds := Segment.resetData
  fs := Segment.resetData
  gs := Segment.resetData
  rflags := 0x2
  mxcsr := 0x1F80
  x87 := X87.reset
  cr0 := 0x60000010
  cr2 := 0
  cr3 := 0
  cr4 := 0
  cr8 := 0
  xcr0 := 1
  efer := 0
  pages := []
  windows := []
  mem := []
  draws := 0

end Machine

end Sys2Proof
end

