-- ==== Sys2Proof/Machine/Flags.lean ====
section
/-! DEFINITION. The status and control bits that the checks around an instruction read, by their places (R30, R34), and the two
checks made before any operand is read: invalid opcode (R123) and device not available (R124). The instruction computes no
flag: it writes no bit of EFLAGS or MXCSR (R30, R31, R112). -/

namespace Sys2Proof.Machine

/-- `CR0.EM`, bit 2. -/
def State.em (s : State) : Bool := s.cr0.getLsbD 2

/-- `CR0.TS`, bit 3. -/
def State.ts (s : State) : Bool := s.cr0.getLsbD 3

/-- `CR0.AM`, bit 18. -/
def State.am (s : State) : Bool := s.cr0.getLsbD 18

/-- `CR0.PG`: paging is on. R49 and R151 name it; its place, bit 31, is PRESUMED (log entry 14). -/
def State.pagingOn (s : State) : Bool := s.cr0.getLsbD 31

/-- `CR4.OSFXSR`, bit 9. -/
def State.osfxsr (s : State) : Bool := s.cr4.getLsbD 9

/-- `CR4.OSXSAVE`, bit 18. -/
def State.osxsave (s : State) : Bool := s.cr4.getLsbD 18

/-- `CR4.LA57`, bit 12. -/
def State.la57 (s : State) : Bool := s.cr4.getLsbD 12

/-- `XCR0[2:1] = 11b`: SSE and AVX state enabled. -/
def State.xcr0Avx (s : State) : Bool := s.xcr0.getLsbD 1 && s.xcr0.getLsbD 2

/-- `XCR0[7:5] = 111b`: opmask, ZMM_Hi256 and Hi16_ZMM state enabled. -/
def State.xcr0Avx512 (s : State) : Bool := s.xcr0.getLsbD 5 && s.xcr0.getLsbD 6 && s.xcr0.getLsbD 7

/-- `EFLAGS.AC`, bit 18 (R30). -/
def State.acFlag (s : State) : Bool := s.rflags.getLsbD 18

/-- `EFLAGS.VM`, bit 17 (R30). -/
def State.vmFlag (s : State) : Bool := s.rflags.getLsbD 17

/-- `EFLAGS.TF` (R139). Its place, bit 8, is PRESUMED (log entry 16). -/
def State.trapFlag (s : State) : Bool := s.rflags.getLsbD 8

/-- `CPL`: the low two bits of the CS selector (R34, R135). -/
def State.cpl (s : State) : Nat := (s.cs.selector.extractLsb' 0 2).toNat

/-- `LA`: 57 linear-address bits when `CR4.LA57 = 1`, else 48 (R9, R34, D21). -/
def State.linearBits (s : State) : Nat := if s.la57 then 57 else 48

/-- Alignment checking is active: `CR0.AM = 1`, `EFLAGS.AC = 1` and `CPL = 3` (R129). -/
def State.alignmentChecking (s : State) : Bool := s.am && s.acFlag && s.cpl == 3

/-- The state is in a mode the spec admits: `MODE` is one of the two, and `EFLAGS.VM`, which is 0 in them, is 0 (R6, R30, D3; log
entry 30). -/
def State.admitted (s : State) : Bool := s.mode.admitted && !s.vmFlag

/-- The processor is in real-address or virtual-8086 mode, where the VEX and EVEX forms are invalid opcodes (R123).
`EFLAGS.VM = 1` is virtual-8086 mode (R30; log entry 30). -/
def State.realOrV86 (s : State) : Bool := s.mode == .real || s.mode == .virtual8086 || s.vmFlag

/-- The control bits the form needs set or clear, but for `CR0.TS` (R123, R152). -/
def controlsAllow (s : State) : Form → Bool
  | .legacy128 => !s.em && s.osfxsr
  | .vex128 => s.osxsave && s.xcr0Avx && !s.realOrV86
  | .vex256 => s.osxsave && s.xcr0Avx && !s.realOrV86
  | .evex128 => s.osxsave && s.xcr0Avx && s.xcr0Avx512 && !s.realOrV86
  | .evex256 => s.osxsave && s.xcr0Avx && s.xcr0Avx512 && !s.realOrV86
  | .evex512 => s.osxsave && s.xcr0Avx && s.xcr0Avx512 && !s.realOrV86

/-- `z = 1` with no writemask, or broadcast with a register operand: reserved field values (R80, R123). The decoder gives no
such instruction. -/
def reservedFields (z : Bool) (aaa : BitVec 3) (bcst regOperand : Bool) : Bool :=
  (z && aaa == 0#3) || (bcst && regOperand)

/-- The conditions of R123 that a decoded instruction can meet: `#UD`. -/
def invalidOpcode (s : State) (f : Form) (reserved : Bool) : Bool :=
  !f.featuresPresent s.cfg.feat || !controlsAllow s f || reserved

/-- The condition of R124: `#NM`. -/
def deviceNotAvailable (s : State) : Bool := s.ts

end Sys2Proof.Machine
end

