-- ==== Sys2Proof/Machine/Ops.lean ====
section
/-! DEFINITION. The named operations over registers and memory, and the raising of an exception. -/

namespace Sys2Proof.Machine

/-- What a step or a meaning answers. -/
abbrev Result := Host.Outcome State Fault Refusal

/-! ## Taking an exception -/

/-- `raise` (R13, R131, D9): the step ends with the fault. No state is changed and the program counter is not advanced, so
there is no next state; delivery through the descriptor table, and the return from it, are no part of the spec (R131, R132). -/
def raise (f : Fault) : Result := .fault f

/-- A part of an execution that stopped stops the whole. -/
def Stop.result : Stop → Result
  | .fault f => raise f
  | .refused r => .refused r

/-- The exception's vector number (R122). -/
def Fault.vector : Fault → Nat
  | .invalidOpcode => 6
  | .deviceNotAvailable => 7
  | .stackSegment => 12
  | .generalProtection => 13
  | .pageFault _ _ => 14
  | .alignmentCheck => 17

/-- The bits of a page-fault error code at the family's places: P 0, W/R 1, U/S 2, RSVD 3, I/D 4, PK 5 (PRESUMED, log
entry 12). -/
def PageFaultCode.bits (c : PageFaultCode) : BitVec 32 :=
  0#26 ++ BitVec.ofBool c.key ++ BitVec.ofBool c.fetch ++ BitVec.ofBool c.reserved ++ BitVec.ofBool c.user
    ++ BitVec.ofBool c.write ++ BitVec.ofBool c.present

/-- The exception's error code, if it has one (R122). That a code has 32 bits is PRESUMED (log entry 12). -/
def Fault.errorCode : Fault → Option (BitVec 32)
  | .invalidOpcode => none
  | .deviceNotAvailable => none
  | .stackSegment => some 0
  | .generalProtection => some 0
  | .pageFault c _ => some c.bits
  | .alignmentCheck => some 0

/-- The value recorded with the exception: the faulting linear address of a page fault (R122). -/
def Fault.recorded : Fault → Option Word
  | .pageFault _ la => some la
  | _ => none

/-! ## Registers -/

/-- The bits a vector register of the processor has: bits `MAXVL-1:0` (R4). -/
def registerOnes (v : VLen) : Vec := BitVec.ofNat 512 (2 ^ v.bits - 1)

/-- `zmm[i]` (R13, R20). -/
def State.readZmm (s : State) (i : Fin 32) : Vec := s.zmm[i]

/-- `zmm[i] <- v`: all `MAXVL` bits (R13, R21). -/
def State.writeZmm (s : State) (i : Fin 32) (v : Vec) : State :=
  { s with zmm := s.zmm.set i (v &&& registerOnes s.cfg.maxvl) }

/-- `k[a]` (R13, R24). -/
def State.readMask (s : State) (a : BitVec 3) : Word := s.k[a.toFin]

/-- `gpr[n]` (R26). -/
def State.readGpr (s : State) (n : Fin 16) : Word := s.gpr[n]

/-- The value of a base or index register, 0 when there is none (R72, R73). -/
def State.readGprOpt (s : State) : Option (Fin 16) → Nat
  | none => 0
  | some n => (s.readGpr n).toNat

/-- A segment register (R29). -/
def State.segment (s : State) : SegReg → Segment
  | .es => s.es
  | .cs => s.cs
  | .ss => s.ss
  | .ds => s.ds
  | .fs => s.fs
  | .gs => s.gs

/-- `pc + len`, modulo `2^64` in 64-bit mode and `2^32` in 32-bit mode (R28, D11). -/
def State.nextPc (s : State) (len : Nat) : Word :=
  match s.mode with
  | .mode64 => BitVec.ofNat 64 (s.rip.toNat + len)
  | _ => BitVec.ofNat 64 ((s.rip.toNat + len) % 2 ^ 32)

/-- The end of an execution (R100, step 5): the destination is written, the program counter advances. The next execution
has the next draw (log entry 13). -/
def State.finish (s : State) (dest : Fin 32) (v : Vec) (len : Nat) : State :=
  { s.writeZmm dest v with rip := s.nextPc len, draws := s.draws + 1 }

/-! ## Memory -/

/-- What a byte of memory that is not listed reads as (DESIGN CHOICE, log entry 7). -/
def Memory.unlisted : Byte := 0#8

/-- The byte at a physical address. -/
def Memory.read : Memory → Nat → Byte
  | [], _ => Memory.unlisted
  | (a, b) :: m, x => if x = a then b else Memory.read m x

/-- The listed bytes after a write, when the new byte is one that is listed. -/
def Memory.insert : Memory → Nat → Byte → Memory
  | [], x, v => [(x, v)]
  | (a, b) :: m, x, v =>
    if x < a then (x, v) :: (a, b) :: m
    else if x = a then (x, v) :: m
    else (a, b) :: Memory.insert m x v

/-- The listed bytes without one address. -/
def Memory.erase : Memory → Nat → Memory
  | [], _ => []
  | (a, b) :: m, x => if x = a then m else (a, b) :: Memory.erase m x

/-- A write of one byte. No instruction of the family writes memory (R46): the launch of a program does. -/
def Memory.write (m : Memory) (x : Nat) (v : Byte) : Memory :=
  if v = Memory.unlisted then Memory.erase m x else Memory.insert m x v

/-- Every listed address is above `lo`, addresses rise, and no listed byte is what an unlisted address reads as. -/
def Memory.wfAbove : Memory → Nat → Bool
  | [], _ => true
  | (a, b) :: m, lo => decide (lo ≤ a) && b != Memory.unlisted && Memory.wfAbove m (a + 1)

/-- The canonical form of memory: equal memories are equal lists. -/
def Memory.wf (m : Memory) : Bool := Memory.wfAbove m 0

/-! ## Linear addresses (R40, R48) -/

/-- The width in bits of a linear address (R40). -/
def State.linearWidth (s : State) : Nat :=
  match s.mode with
  | .mode64 => 64
  | _ => 32

/-- The base that is added: in 64-bit mode only FS and GS have one (R29, R48). -/
def State.segmentBase (s : State) (r : SegReg) : Nat :=
  match s.mode, r with
  | .mode64, .fs => s.fs.base.toNat
  | .mode64, .gs => s.gs.base.toNat
  | .mode64, _ => 0
  | _, r => (s.segment r).base.toNat

/-- `la = SegBase(seg) + ea`, modulo `2^64` or `2^32` (R40). -/
def State.linear (s : State) (r : SegReg) (ea : Nat) : Nat := (s.segmentBase r + ea) % 2 ^ s.linearWidth

/-- Bits `63:LA-1` of the address are all equal (R48). -/
def State.canonical (s : State) (la : Nat) : Bool :=
  la / 2 ^ (s.linearBits - 1) == 0 || la / 2 ^ (s.linearBits - 1) == 2 ^ (65 - s.linearBits) - 1

/-- A selector that is not null: an index or the table bit is set (R48; log entry 17). -/
def Segment.notNull (g : Segment) : Bool := g.selector.extractLsb' 2 14 != 0#14

/-- The segment is present, readable and not null (R48, R125). -/
def Segment.usable (g : Segment) : Bool := g.present && g.readable && g.notNull

/-- The segment check of an access of `n` bytes (R48): in 64-bit mode every byte's linear address is canonical; in 32-bit
mode the segment is usable and every byte's offset is within its limit. -/
def State.segmentAllows (s : State) (r : SegReg) (ea n : Nat) : Bool :=
  match s.mode with
  | .mode64 => (List.range n).all fun i => s.canonical ((s.linear r ea + i) % 2 ^ 64)
  | _ => (s.segment r).usable && decide (ea + n ≤ (s.segment r).limit.toNat + 1)

/-- A violation is `#SS(0)` through SS and `#GP(0)` through the other segments (R48, R125, R126). -/
def segmentFault (r : SegReg) : Fault := if r = .ss then .stackSegment else .generalProtection

/-! ## Translation (R49, R127) -/

/-- How memory is accessed (R49). -/
inductive Access where
  | read | fetch
deriving DecidableEq, Repr

/-- A range for both accesses and every privilege level. -/
def PageRange.anyAccess (first size phys : Nat) (kind : PageKind) : PageRange where
  first := first
  size := size
  phys := phys
  read := true
  fetch := true
  levels := [0, 1, 2, 3]
  kind := kind

/-- The range is for this access. -/
def PageRange.allows (p : PageRange) : Access → Bool
  | .read => p.read
  | .fetch => p.fetch

/-- The range that holds a linear address, for an access at a privilege level. -/
def PageRange.holds (acc : Access) (cpl la : Nat) (p : PageRange) : Bool :=
  decide (p.first ≤ la) && decide (la < p.first + p.size) && p.allows acc && p.levels.contains cpl

/-- The error code of a page fault: no write; the user bit exactly at `CPL = 3`; the fetch bit for a fetch (R127). -/
def State.pageFaultCode (s : State) (acc : Access) (present reserved key : Bool) : PageFaultCode where
  present := present
  write := false
  user := s.cpl == 3
  reserved := reserved
  fetch := acc == .fetch
  key := key

/-- `Translate(la, access, cpl)`: the physical address, or the error code of a page fault. The identity with paging off; with
paging on the content is the state's list of ranges, the first that holds the address for the access and the privilege level,
and an address in none of them is not present (R49, R57, R127). DESIGN CHOICE (log entry 14): how each kind of range answers. The
dependence on access and privilege level is as open as in D19: a range is for the accesses and levels it lists. -/
def State.translate (s : State) (acc : Access) (la : Nat) : Except PageFaultCode Nat :=
  if s.pagingOn then
    match s.pages.find? (PageRange.holds acc s.cpl la) with
    | none => .error (s.pageFaultCode acc false false false)
    | some p =>
      match p.kind with
      | .user => .ok (p.phys + (la - p.first))
      | .supervisor =>
        if s.cpl = 3 then .error (s.pageFaultCode acc true false false) else .ok (p.phys + (la - p.first))
      | .denied => .error (s.pageFaultCode acc true false false)
      | .absent => .error (s.pageFaultCode acc false false false)
      | .reservedBit => .error (s.pageFaultCode acc true true false)
      | .keyDenied => .error (s.pageFaultCode acc true false true)
  else .ok la

/-- The window that holds a physical address. -/
def Window.holds (pa : Nat) (w : Window) : Bool := decide (w.first ≤ pa) && decide (pa < w.first + w.size)

/-- Why a physical address is not ordinary memory (R57, R58). -/
def State.windowAt (s : State) (pa : Nat) : Option Refusal :=
  (s.windows.find? (Window.holds pa)).map fun w =>
    match w.kind with
    | .device => .deviceMemory
    | .absent => .absentMemory

/-! ## The read primitive (R43) -/

/-- The page fault of one byte, if it has one. -/
def State.byteFault (s : State) (la : Nat) : Option Fault :=
  match s.translate .read la with
  | .ok _ => none
  | .error c => some (.pageFault c (BitVec.ofNat 64 la))

/-- The page faults of the bytes `la .. la+n-1`, in order. -/
def State.byteFaults (s : State) (la n : Nat) : List Fault := (List.range n).filterMap fun i => s.byteFault (la + i)

/-- The page fault that is reported: one of the faulting bytes', drawn (R127, U7). -/
def State.pickFault (s : State) (f : Fault) (fs : List Fault) : Fault :=
  (f :: fs).getD (Config.pageFaultPick s.draws % (f :: fs).length) f

/-- Where a byte that translates is. -/
def State.physical (s : State) (acc : Access) (la : Nat) : Nat :=
  match s.translate acc la with
  | .ok pa => pa
  | .error _ => 0

/-- The byte at a linear address that translates. -/
def State.byteAt (s : State) (la : Nat) : Byte := s.mem.read (s.physical .read la)

/-- `b_(n-1) ++ ... ++ b_1 ++ b_0`: the byte at the lowest address in bits 7:0 (R41, D4). -/
def leValue : List Byte → Vec
  | [] => 0#512
  | b :: bs => (leValue bs <<< 8) ||| b.setWidth 512

/-- The first byte of `la .. la+n-1` that translates to memory that is not ordinary, and why (R57, R58). -/
def State.windowIn (s : State) (la n : Nat) : Option Refusal :=
  (List.range n).findSome? fun i =>
    match s.translate .read (la + i) with
    | .ok pa => s.windowAt pa
    | .error _ => none

/-- Steps 4 to 6 of `MemRead` (R43): translate all `n` bytes, then read them. A byte that is not ordinary memory is refused
(R57, R58). -/
def State.readLinear (s : State) (la n : Nat) : Except Stop Vec :=
  match s.byteFaults la n with
  | f :: fs => .error (.fault (s.pickFault f fs))
  | [] =>
    match s.windowIn la n with
    | some r => .error (.refused r)
    | none => .ok (leValue ((List.range n).map fun i => s.byteAt (la + i)))

/-- Step 1 of `MemRead` (R43), for the legacy form only: the linear address is a multiple of 16, else `#GP(0)` (R44, R126).
A segment base that is not a multiple of 16 is refused (R44, D19). -/
def State.checkLegacyAlignment (s : State) (r : SegReg) (ea : Nat) : Except Stop Unit :=
  if s.segmentBase r % 16 ≠ 0 then .error (.refused .legacyBaseUnaligned)
  else if s.linear r ea % 16 ≠ 0 then .error (.fault .generalProtection)
  else .ok ()

/-- Step 2 of `MemRead`, the segment or canonical check over all `n` bytes (R43, R48). -/
def State.checkSegment (s : State) (r : SegReg) (ea n : Nat) : Except Stop Unit :=
  if s.segmentAllows r ea n then .ok () else .error (.fault (segmentFault r))

/-- An operand that passes the top of the address space is refused (R43, D19). -/
def State.checkWrap (s : State) (r : SegReg) (ea n : Nat) : Except Stop Unit :=
  if s.linear r ea + n ≤ 2 ^ s.linearWidth then .ok () else .error (.refused .addressWrap)

/-- Step 3 of `MemRead`: while alignment checking is active, an operand that is not aligned to its size may raise `#AC(0)`;
whether it does is drawn (R129, D13). -/
def State.checkAlignment (s : State) (r : SegReg) (ea n : Nat) : Except Stop Unit :=
  if s.alignmentChecking && s.linear r ea % n != 0 && Config.acUnalignedFaults s.draws then
    .error (.fault .alignmentCheck)
  else .ok ()

/-- `MemRead(seg, ea, n)` for forms 2 to 6 (R43). -/
def State.memRead (s : State) (r : SegReg) (ea n : Nat) : Except Stop Vec :=
  match s.checkSegment r ea n with
  | .error e => .error e
  | .ok () =>
    match s.checkWrap r ea n with
    | .error e => .error e
    | .ok () =>
      match s.checkAlignment r ea n with
      | .error e => .error e
      | .ok () => s.readLinear (s.linear r ea) n

/-- The low quadword of a value read: all that the legacy form uses (R45, R109). -/
def lowQuad (v : Vec) : Vec := (v.extractLsb' 0 64).setWidth 512

/-- The read of the legacy form under one draw of `LEGACY_FETCH` (R45, D6). With 16 bytes drawn all 16 are translated and read;
with 8 drawn the 8 bytes of the low quadword are. Where all 16 can be read both draws give the same low quadword, so the
draw is looked at only where they cannot. Under either draw the 16 bytes the operand covers must be ordinary memory, else the
access is refused (R58, R137, D18). -/
def State.readLegacy (s : State) (narrow : Bool) (la : Nat) : Except Stop Vec :=
  match s.readLinear la 16 with
  | .ok v => .ok (lowQuad v)
  | .error e =>
    if narrow then
      match s.readLinear la 8 with
      | .error e => .error e
      | .ok v =>
        match s.windowIn la 16 with
        | some r => .error (.refused r)
        | none => .ok v
    else .error e

/-- `MemRead` of the legacy form (R43, R45): the alignment and segment checks cover 16 bytes under either draw. -/
def State.memReadLegacy (s : State) (narrow : Bool) (r : SegReg) (ea : Nat) : Except Stop Vec :=
  match s.checkLegacyAlignment r ea with
  | .error e => .error e
  | .ok () =>
    match s.checkSegment r ea 16 with
    | .error e => .error e
    | .ok () =>
      match s.checkWrap r ea 16 with
      | .error e => .error e
      | .ok () => s.readLegacy narrow (s.linear r ea)

end Sys2Proof.Machine
end

