-- ==== Sys2Proof/Machine/Operands.lean ====
section
/-! DEFINITION. Every operand form: from an instruction's fields to the decoded record of R81 (register numbers R76, addresses
R72, R73, R84, displacements R74, segments R77), the effective address, and the value of the second source (R109). -/

namespace Sys2Proof.Machine

/-! ## Register numbers (R76) -/

/-- A vector register number of at most five bits. -/
def vecNum (n : BitVec 5) : Fin 32 := ⟨n.toNat, n.isLt⟩

/-- A general register number: the extension bit in front of a three-bit field (R64, R76). -/
def gprNum (ext : Bool) (n : BitVec 3) : Fin 16 := ⟨(BitVec.ofBool ext ++ n).toNat, (BitVec.ofBool ext ++ n).isLt⟩

/-- The register an `r/m` field names: `B:r/m`, under EVEX `X:B:r/m` (R76). -/
def rmNum (evex x b : Bool) (rm : BitVec 3) : Fin 32 := vecNum (BitVec.ofBool (evex && x) ++ BitVec.ofBool b ++ rm)

/-! ## Segments (R63, R77) -/

/-- The segment override that has an effect: the last one; in 64-bit mode only FS and GS count (R63, R77; log entry 18). -/
def segOverride (m : Mode) (pfx : List Prefix) : Option SegReg :=
  pfx.foldl (fun acc p => match p with
    | .seg r => if m = .mode64 ∧ r ≠ .fs ∧ r ≠ .gs then acc else some r
    | _ => acc) none

/-- SS when the base register is RSP or RBP, else DS (R77). -/
def defaultSeg (base : Option (Fin 16)) : SegReg := if base = some 4 ∨ base = some 5 then .ss else .ds

/-! ## Addresses (R72, R73, R74, R84) -/

/-- An address with its segment and address size. -/
def mkAddr (m : Mode) (pfx : List Prefix) (base index : Option (Fin 16)) (scale : Nat) (disp : Int) (riprel : Bool) :
    Addr where
  seg := (segOverride m pfx).getD (defaultSeg base)
  base := base
  index := index
  scale := scale
  disp := disp
  riprel := riprel
  asize := addrSize m pfx

/-- The index register of an SIB byte: `X:index = 0100` means none (R73). -/
def sibIndex (x : Bool) (index : BitVec 3) : Option (Fin 16) :=
  if x = false ∧ index = 4#3 then none else some (gprNum x index)

/-- The base register of 16-bit addressing: BX 3, BP 5, SI 6, DI 7 (R84, R26). -/
def base16 (rm : BitVec 3) : Fin 16 :=
  if rm = 0#3 ∨ rm = 1#3 then 3
  else if rm = 2#3 ∨ rm = 3#3 then 5
  else if rm = 4#3 then 6
  else if rm = 5#3 then 7
  else if rm = 6#3 then 5
  else 3

/-- The index register of 16-bit addressing (R84). -/
def index16 (rm : BitVec 3) : Option (Fin 16) :=
  if rm = 0#3 ∨ rm = 2#3 then some 6
  else if rm = 1#3 ∨ rm = 3#3 then some 7
  else none

/-- The address an `r/m` operand names; none for a register. `n` is the factor of a disp8 (R74). -/
def rmAddr (m : Mode) (pfx : List Prefix) (x b : Bool) (n : Nat) : RM → Option Addr
  | .reg _ => none
  | .ind rm => some (mkAddr m pfx (some (gprNum b rm)) none 1 0 false)
  | .disp32 d => some (mkAddr m pfx none none 1 d.toInt (m == .mode64))
  | .ind8 rm d => some (mkAddr m pfx (some (gprNum b rm)) none 1 (d.toInt * n) false)
  | .ind32 rm d => some (mkAddr m pfx (some (gprNum b rm)) none 1 d.toInt false)
  | .sib s i base => some (mkAddr m pfx (some (gprNum b base)) (sibIndex x i) (2 ^ s.toNat) 0 false)
  | .sibDisp32 s i d => some (mkAddr m pfx none (sibIndex x i) (2 ^ s.toNat) d.toInt false)
  | .sib8 s i base d => some (mkAddr m pfx (some (gprNum b base)) (sibIndex x i) (2 ^ s.toNat) (d.toInt * n) false)
  | .sib32 s i base d => some (mkAddr m pfx (some (gprNum b base)) (sibIndex x i) (2 ^ s.toNat) d.toInt false)
  | .ind16 rm => some (mkAddr m pfx (some (base16 rm)) (index16 rm) 1 0 false)
  | .disp16 d => some (mkAddr m pfx none none 1 d.toInt false)
  | .ind16d8 rm d => some (mkAddr m pfx (some (base16 rm)) (index16 rm) 1 (d.toInt * n) false)
  | .ind16d16 rm d => some (mkAddr m pfx (some (base16 rm)) (index16 rm) 1 d.toInt false)

/-- The second source (R75, R76). -/
def rmSrc2 (m : Mode) (pfx : List Prefix) (evex x b : Bool) (n : Nat) (bcst : Bool) (rm : RM) : Src2 :=
  match rmAddr m pfx x b n rm with
  | some a => .mem a bcst
  | none =>
    match rm with
    | .reg r => .reg (rmNum evex x b r)
    | _ => .reg 0

/-- The factor of a disp8 under EVEX, tuple type Full: `VL/8`, or 4 with broadcast (R74). -/
def disp8Factor (v : VLen) (bcst : Bool) : Nat := if bcst then 4 else v.bytes

/-! ## The record (R75, R81) -/

/-- Encoding A: the destination, which is also the first source, is `REX.R:reg` (R75, R76). -/
def legacyRecord (m : Mode) (pfx : List Prefix) (reg : BitVec 3) (rm : RM) (len : Nat) : DecodedInst where
  form := .legacy128
  dest := vecNum (0#1 ++ BitVec.ofBool (liveRex pfx).1 ++ reg)
  src1 := vecNum (0#1 ++ BitVec.ofBool (liveRex pfx).1 ++ reg)
  src2 := rmSrc2 m pfx false (liveRex pfx).2.1 (liveRex pfx).2.2 1 false rm
  aaa := 0
  z := false
  len := len

/-- Encoding B (R75, R76). -/
def vexRecord (m : Mode) (f : Form) (pfx : List Prefix) (x b : Bool) (dest src1 : BitVec 4) (rm : RM) (len : Nat) :
    DecodedInst where
  form := f
  dest := vecNum (0#1 ++ dest)
  src1 := vecNum (0#1 ++ src1)
  src2 := rmSrc2 m pfx false x b 1 false rm
  aaa := 0
  z := false
  len := len

/-- Encoding C (R75, R76). -/
def evexRecord (m : Mode) (f : Form) (pfx : List Prefix) (x b : Bool) (dest src1 : BitVec 5) (aaa : BitVec 3) (z bcst : Bool)
    (rm : RM) (len : Nat) : DecodedInst where
  form := f
  dest := vecNum dest
  src1 := vecNum src1
  src2 := rmSrc2 m pfx true x b (disp8Factor f.vlen bcst) bcst rm
  aaa := aaa
  z := z
  len := len

/-- The decoded record of an instruction (R81). Two-byte VEX implies `X = B = 0` (R65). -/
def record (m : Mode) : Instr → DecodedInst
  | .unpcklps pfx reg rm => legacyRecord m pfx reg rm (Instr.len (.unpcklps pfx reg rm))
  | .vunpcklpsVex128C5 pfx dest src1 rm =>
    vexRecord m .vex128 pfx false false dest src1 rm (Instr.len (.vunpcklpsVex128C5 pfx dest src1 rm))
  | .vunpcklpsVex128C4 pfx w x b dest src1 rm =>
    vexRecord m .vex128 pfx x b dest src1 rm (Instr.len (.vunpcklpsVex128C4 pfx w x b dest src1 rm))
  | .vunpcklpsVex256C5 pfx dest src1 rm =>
    vexRecord m .vex256 pfx false false dest src1 rm (Instr.len (.vunpcklpsVex256C5 pfx dest src1 rm))
  | .vunpcklpsVex256C4 pfx w x b dest src1 rm =>
    vexRecord m .vex256 pfx x b dest src1 rm (Instr.len (.vunpcklpsVex256C4 pfx w x b dest src1 rm))
  | .vunpcklpsEvex128 pfx x b dest src1 aaa z bcst rm =>
    evexRecord m .evex128 pfx x b dest src1 aaa z bcst rm (Instr.len (.vunpcklpsEvex128 pfx x b dest src1 aaa z bcst rm))
  | .vunpcklpsEvex256 pfx x b dest src1 aaa z bcst rm =>
    evexRecord m .evex256 pfx x b dest src1 aaa z bcst rm (Instr.len (.vunpcklpsEvex256 pfx x b dest src1 aaa z bcst rm))
  | .vunpcklpsEvex512 pfx x b dest src1 aaa z bcst rm =>
    evexRecord m .evex512 pfx x b dest src1 aaa z bcst rm (Instr.len (.vunpcklpsEvex512 pfx x b dest src1 aaa z bcst rm))

/-! ## Effective address and the second source's value (R81, R109) -/

/-- The address size in bits. -/
def asizeBits : ASize → Nat
  | .a16 => 16
  | .a32 => 32
  | .a64 => 64

/-- `ea = (riprel ? pc + len : 0) + base + index*scale + disp`, truncated to the address size (R72, R81, R84). -/
def effectiveAddress (s : State) (len : Nat) (a : Addr) : Nat :=
  (((if a.riprel then (s.rip.toNat : Int) + len else 0) + s.readGprOpt a.base + s.readGprOpt a.index * a.scale + a.disp)
    % (2 ^ asizeBits a.asize : Nat)).toNat

/-- How many bytes of memory the form's full-width operand has (R42). -/
def operandBytes (f : Form) (bcst : Bool) : Nat := if bcst then 4 else f.vlen.bytes

/-- `Src2Value(inst)` (R109). `narrow` is the execution's draw of `LEGACY_FETCH`, looked at by form 1 only. -/
def src2Value (s : State) (narrow : Bool) (r : DecodedInst) : Except Stop Vec :=
  match r.src2 with
  | .reg n => .ok (truncate r.form.vlen (s.readZmm n))
  | .mem a true =>
    match s.memRead a.seg (effectiveAddress s r.len a) 4 with
    | .ok w => .ok (broadcast r.form.vlen w)
    | .error e => .error e
  | .mem a false =>
    if r.form = .legacy128 then s.memReadLegacy narrow a.seg (effectiveAddress s r.len a)
    else s.memRead a.seg (effectiveAddress s r.len a) r.form.vlen.bytes

end Sys2Proof.Machine
end

