-- ==== Sys2Proof/Machine/Execute.lean ====
section
/-! DEFINITION. One execution, the five steps of R100, shared by the meanings of the forms. -/

namespace Sys2Proof.Machine

/-- The steps of R100: `#UD`, `#NM`, the snapshot of the operands (R12), the second source, the one write of the destination.
`result` is the form's step 5 as a function of the first source, the second source, the old destination and the mask.
A mode the spec excludes is refused once the two checks it does describe have passed (D3). -/
def execute (s : State) (r : DecodedInst) (reserved narrow : Bool) (result : Vec → Vec → Vec → Word → Vec) : Result :=
  if invalidOpcode s r.form reserved then raise .invalidOpcode
  else if deviceNotAvailable s then raise .deviceNotAvailable
  else if !s.admitted then .refused .excludedMode
  else
    match src2Value s narrow r with
    | .error e => e.result
    | .ok s2 =>
      .next (s.finish r.dest (result (s.readZmm r.src1) s2 (s.readZmm r.dest) (s.readMask r.aaa)) r.len)

end Sys2Proof.Machine
end

