-- ==== Sys2Proof/Machine/Evex.lean ====
section
/-! DEFINITION. Forms 4, 5 and 6, the EVEX forms, with writemask, zeroing and broadcast (R106, R107, R108). -/

namespace Sys2Proof.Machine

/-- `VUNPCKLPS xmm1 {k1}{z}, xmm2, xmm3/m128/m32bcst` (R106). -/
def execEvex128 (pfx : List Prefix) (x b : Bool) (dest src1 : BitVec 5) (aaa : BitVec 3) (z bcst : Bool) (rm : RM) (s : State) :
    Result :=
  execute s (record s.mode (.vunpcklpsEvex128 pfx x b dest src1 aaa z bcst rm)) (reservedFields z aaa bcst rm.isReg) false
    fun s1 s2 old m => evexResult .v128 s1 s2 old aaa z m

/-- `VUNPCKLPS ymm1 {k1}{z}, ymm2, ymm3/m256/m32bcst` (R107). -/
def execEvex256 (pfx : List Prefix) (x b : Bool) (dest src1 : BitVec 5) (aaa : BitVec 3) (z bcst : Bool) (rm : RM) (s : State) :
    Result :=
  execute s (record s.mode (.vunpcklpsEvex256 pfx x b dest src1 aaa z bcst rm)) (reservedFields z aaa bcst rm.isReg) false
    fun s1 s2 old m => evexResult .v256 s1 s2 old aaa z m

/-- `VUNPCKLPS zmm1 {k1}{z}, zmm2, zmm3/m512/m32bcst` (R108). -/
def execEvex512 (pfx : List Prefix) (x b : Bool) (dest src1 : BitVec 5) (aaa : BitVec 3) (z bcst : Bool) (rm : RM) (s : State) :
    Result :=
  execute s (record s.mode (.vunpcklpsEvex512 pfx x b dest src1 aaa z bcst rm)) (reservedFields z aaa bcst rm.isReg) false
    fun s1 s2 old m => evexResult .v512 s1 s2 old aaa z m

end Sys2Proof.Machine
end

