-- ==== Sys2Proof/Machine/Legacy.lean ====
section
/-! DEFINITION. Form 1, the legacy SSE form (R103). -/

namespace Sys2Proof.Machine

/-- Form 1 under one draw of `LEGACY_FETCH`: `zmm[dest] <- s1[MAXVL-1:128] ++ Lane128(s1[127:0], s2[127:0])` (R103). -/
def unpcklpsWith (narrow : Bool) (pfx : List Prefix) (reg : BitVec 3) (rm : RM) (s : State) : Result :=
  execute s (record s.mode (.unpcklps pfx reg rm)) false narrow fun s1 s2 _ _ => legacyResult s1 s2

/-- `UNPCKLPS xmm1, xmm2/m128` (R103), with the draw of this execution (R7, D6). -/
def execUnpcklps (pfx : List Prefix) (reg : BitVec 3) (rm : RM) (s : State) : Result :=
  unpcklpsWith (Config.legacyFetchNarrow s.draws) pfx reg rm s

end Sys2Proof.Machine
end

