-- ==== Sys2Proof/Machine/Vex.lean ====
section
/-! DEFINITION. Forms 2 and 3, the VEX forms, each in its two spellings (R104, R105). -/

namespace Sys2Proof.Machine

/-- `VUNPCKLPS xmm1, xmm2, xmm3/m128`, two-byte VEX (R104). -/
def execVex128C5 (pfx : List Prefix) (dest src1 : BitVec 4) (rm : RM) (s : State) : Result :=
  execute s (record s.mode (.vunpcklpsVex128C5 pfx dest src1 rm)) false false fun s1 s2 _ _ => vexResult .v128 s1 s2

/-- `VUNPCKLPS xmm1, xmm2, xmm3/m128`, three-byte VEX, `W` ignored (R104, R67). -/
def execVex128C4 (pfx : List Prefix) (w x b : Bool) (dest src1 : BitVec 4) (rm : RM) (s : State) : Result :=
  execute s (record s.mode (.vunpcklpsVex128C4 pfx w x b dest src1 rm)) false false fun s1 s2 _ _ => vexResult .v128 s1 s2

/-- `VUNPCKLPS ymm1, ymm2, ymm3/m256`, two-byte VEX (R105). -/
def execVex256C5 (pfx : List Prefix) (dest src1 : BitVec 4) (rm : RM) (s : State) : Result :=
  execute s (record s.mode (.vunpcklpsVex256C5 pfx dest src1 rm)) false false fun s1 s2 _ _ => vexResult .v256 s1 s2

/-- `VUNPCKLPS ymm1, ymm2, ymm3/m256`, three-byte VEX, `W` ignored (R105, R67). -/
def execVex256C4 (pfx : List Prefix) (w x b : Bool) (dest src1 : BitVec 4) (rm : RM) (s : State) : Result :=
  execute s (record s.mode (.vunpcklpsVex256C4 pfx w x b dest src1 rm)) false false fun s1 s2 _ _ => vexResult .v256 s1 s2

end Sys2Proof.Machine
end

