-- ==== Sys2Proof/Machine/Dispatch.lean ====
section
/-! DEFINITION. One arm for each row of spec/opcode_table.json. -/

namespace Sys2Proof.Machine

def exec (i : Instr) (s : State) : Host.Outcome State Fault Refusal :=
  match i with
  | .unpcklps pfx reg rm => Sys2Proof.Machine.execUnpcklps pfx reg rm s
  | .vunpcklpsVex128C5 pfx dest src1 rm => Sys2Proof.Machine.execVex128C5 pfx dest src1 rm s
  | .vunpcklpsVex128C4 pfx w x b dest src1 rm => Sys2Proof.Machine.execVex128C4 pfx w x b dest src1 rm s
  | .vunpcklpsVex256C5 pfx dest src1 rm => Sys2Proof.Machine.execVex256C5 pfx dest src1 rm s
  | .vunpcklpsVex256C4 pfx w x b dest src1 rm => Sys2Proof.Machine.execVex256C4 pfx w x b dest src1 rm s
  | .vunpcklpsEvex128 pfx x b dest src1 aaa z bcst rm => Sys2Proof.Machine.execEvex128 pfx x b dest src1 aaa z bcst rm s
  | .vunpcklpsEvex256 pfx x b dest src1 aaa z bcst rm => Sys2Proof.Machine.execEvex256 pfx x b dest src1 aaa z bcst rm s
  | .vunpcklpsEvex512 pfx x b dest src1 aaa z bcst rm => Sys2Proof.Machine.execEvex512 pfx x b dest src1 aaa z bcst rm s

end Sys2Proof.Machine
end

