-- ==== Sys2Proof/Machine/Fetch.lean ====
section
/-! DEFINITION. Fetching an instruction's bytes through CS (R27, R40), and the launch of a program, which stands for what
software does between reset and the first instruction of the family (R150, R153). -/

namespace Sys2Proof.Machine

/-- The linear address of the instruction byte at offset `off` in CS, if the byte is within the segment: in 64-bit mode a
canonical address, in 32-bit mode an offset within the limit of CS. DESIGN CHOICE (log entry 15): an offset does not wrap, so a
byte past the top of the 64-bit address space, or at an offset of `2^32` or more in 32-bit mode, cannot be fetched; the spec
says nothing of a fetch there. -/
def State.codeLinear (s : State) (off : Nat) : Option Nat :=
  match s.mode with
  | .mode64 => if decide (off < 2 ^ 64) && s.canonical off then some off else none
  | _ => if off ≤ s.cs.limit.toNat then some ((s.cs.base.toNat + off) % 2 ^ 32) else none

/-- Where the instruction byte `i` places after the program counter stands in memory. None when it cannot be fetched; that is
outside the spec (R28, R130; log entry 15). -/
def State.codeAddress (s : State) (i : Nat) : Option Nat :=
  match s.codeLinear (s.rip.toNat + i) with
  | none => none
  | some la =>
    match s.translate .fetch la with
    | .error _ => none
    | .ok pa => if (s.windowAt pa).isSome then none else some pa

/-- The instruction bytes that can be fetched, from the one `i` places after the program counter on, at most `n`. -/
def State.fetchFrom (s : State) (i : Nat) : Nat → List Byte
  | 0 => []
  | n + 1 =>
    match s.codeAddress i with
    | none => []
    | some pa => s.mem.read pa :: s.fetchFrom (i + 1) n

/-- The bytes at the program counter, at most as many as the longest instruction has (R60). -/
def State.fetch (s : State) : List Byte := s.fetchFrom 0 maxLength

/-- What a decoder's error does to the step: `#GP(0)` for a length over 15 bytes, `#UD` for an invalid encoding, else a
refusal (R60, R80, R130). -/
def decodeErrorResult : DecodeError → Result
  | .tooLong => raise .generalProtection
  | .invalid _ => raise .invalidOpcode
  | .truncated => .refused .codeFetch
  | .other _ => .refused .notThisInstruction
  | .uncertain _ => .refused .uncertainEncoding

/-! ## Launch (log entry 8) -/

/-- The steps of R153 for 64-bit mode: protected mode, paging and long mode on, every page mapped to itself and readable at
every privilege level, `CR4.OSFXSR` and `CR4.OSXSAVE` set, every state component of R34 enabled in XCR0, `CR0.EM`,
`CR0.TS`, `EFLAGS.VM` and `EFLAGS.TF` clear. -/
def State.launch (s : State) : State :=
  { s with
    mode := .mode64
    rflags := s.rflags &&& ~~~0x20100#64
    cr0 := (s.cr0 ||| 0x80000001#64) &&& ~~~0xC#64
    cr4 := s.cr4 ||| 0x40220#64
    xcr0 := s.xcr0 ||| 0xE7#64
    efer := s.efer ||| 0x500#64
    pages := [PageRange.anyAccess 0 (2 ^ 64) 0 .user] }

/-- Memory with the bytes stored where the machine fetches from the `i`-th instruction byte on. -/
def placeCode (s : State) (m : Memory) (i : Nat) : List Byte → Memory
  | [] => m
  | b :: bs =>
    match s.codeAddress i with
    | none => placeCode s m (i + 1) bs
    | some pa => placeCode s (m.write pa b) (i + 1) bs

/-- A program's first bytes in memory at the program counter; launched first if the mode is one the spec excludes. -/
def State.withCode (s : State) (bytes : List Byte) : State :=
  let s0 := if s.admitted then s else s.launch
  { s0 with mem := placeCode s0 s0.mem 0 bytes }

end Sys2Proof.Machine
end

