-- ==== Sys2Proof/Machine/Step.lean ====
section
/-! DEFINITION. One step: fetch, decode, execute. -/

namespace Sys2Proof.Machine

/-- One step. A mode the spec excludes is refused (D3, R30); so is `EFLAGS.TF = 1`, which the launch premises exclude (R139). -/
def step (s : State) : Host.Outcome State Fault Refusal :=
  if !s.admitted then .refused .excludedMode
  else if s.trapFlag then .refused .singleStep
  else
    match decode s.mode s.fetch with
    | .ok i => exec i s
    | .error e => decodeErrorResult e

/-- The state with one table word stored where step fetches its next instruction (log entries 8 and 9). -/
def State.withFetchWord (s : State) (nbits w : Nat) : State := s.withCode (wordBytes nbits w)

end Sys2Proof.Machine
end

