-- ==== Sys2Proof/WellFormed.lean ====
section
/-! DEFINITION. Which instruction terms have an encoding in a mode, each clause a named check, and the named checks R81 makes
of a decoded record. -/

namespace Sys2Proof

/-! ## Instruction terms -/

/-- The operand's `r/m` field is one its constructor may hold, and its constructor is one of the address size (R72, R84). -/
def RM.fits (a : ASize) : RM → Bool
  | .reg _ => true
  | .ind rm => a != .a16 && rm != 4#3 && rm != 5#3
  | .disp32 _ => a != .a16
  | .ind8 rm _ => a != .a16 && rm != 4#3
  | .ind32 rm _ => a != .a16 && rm != 4#3
  | .sib _ _ base => a != .a16 && base != 5#3
  | .sibDisp32 _ _ _ => a != .a16
  | .sib8 _ _ _ _ => a != .a16
  | .sib32 _ _ _ _ => a != .a16
  | .ind16 rm => a == .a16 && rm != 6#3
  | .disp16 _ => a == .a16
  | .ind16d8 _ _ => a == .a16
  | .ind16d16 _ _ => a == .a16

/-- The bytes in front of the form are ones it may have (R63, R64, R68). -/
def frontFits (m : Mode) : Instr → Bool
  | .unpcklps pfx _ _ => pfx.all Prefix.okBeforeLegacy && (m == .mode64 || !hasRex pfx)
  | .vunpcklpsVex128C5 pfx _ _ _ => pfx.all Prefix.okBeforeVex
  | .vunpcklpsVex128C4 pfx _ _ _ _ _ _ => pfx.all Prefix.okBeforeVex
  | .vunpcklpsVex256C5 pfx _ _ _ => pfx.all Prefix.okBeforeVex
  | .vunpcklpsVex256C4 pfx _ _ _ _ _ _ => pfx.all Prefix.okBeforeVex
  | .vunpcklpsEvex128 pfx _ _ _ _ _ _ _ _ => pfx.all Prefix.okBeforeVex && (m == .mode64 || !pfx.contains .addrSize)
  | .vunpcklpsEvex256 pfx _ _ _ _ _ _ _ _ => pfx.all Prefix.okBeforeVex && (m == .mode64 || !pfx.contains .addrSize)
  | .vunpcklpsEvex512 pfx _ _ _ _ _ _ _ _ => pfx.all Prefix.okBeforeVex && (m == .mode64 || !pfx.contains .addrSize)

/-- The `r/m` operand fits the address size. -/
def operandFits (m : Mode) : Instr → Bool
  | .unpcklps pfx _ rm => rm.fits (addrSize m pfx)
  | .vunpcklpsVex128C5 pfx _ _ rm => rm.fits (addrSize m pfx)
  | .vunpcklpsVex128C4 pfx _ _ _ _ _ rm => rm.fits (addrSize m pfx)
  | .vunpcklpsVex256C5 pfx _ _ rm => rm.fits (addrSize m pfx)
  | .vunpcklpsVex256C4 pfx _ _ _ _ _ rm => rm.fits (addrSize m pfx)
  | .vunpcklpsEvex128 pfx _ _ _ _ _ _ _ rm => rm.fits (addrSize m pfx)
  | .vunpcklpsEvex256 pfx _ _ _ _ _ _ _ rm => rm.fits (addrSize m pfx)
  | .vunpcklpsEvex512 pfx _ _ _ _ _ _ _ rm => rm.fits (addrSize m pfx)

/-- In 32-bit mode every extension bit has the value 0, so only registers 0 to 7 are named (R22, R70, D22). -/
def extensionFits (m : Mode) : Instr → Bool
  | .unpcklps _ _ _ => true
  | .vunpcklpsVex128C5 _ dest src1 _ => m == .mode64 || (decide (dest.toNat < 8) && decide (src1.toNat < 8))
  | .vunpcklpsVex128C4 _ _ x b dest src1 _ =>
    m == .mode64 || (!x && !b && decide (dest.toNat < 8) && decide (src1.toNat < 8))
  | .vunpcklpsVex256C5 _ dest src1 _ => m == .mode64 || (decide (dest.toNat < 8) && decide (src1.toNat < 8))
  | .vunpcklpsVex256C4 _ _ x b dest src1 _ =>
    m == .mode64 || (!x && !b && decide (dest.toNat < 8) && decide (src1.toNat < 8))
  | .vunpcklpsEvex128 _ x b dest src1 _ _ _ _ =>
    m == .mode64 || (!x && !b && decide (dest.toNat < 8) && decide (src1.toNat < 8))
  | .vunpcklpsEvex256 _ x b dest src1 _ _ _ _ =>
    m == .mode64 || (!x && !b && decide (dest.toNat < 8) && decide (src1.toNat < 8))
  | .vunpcklpsEvex512 _ x b dest src1 _ _ _ _ =>
    m == .mode64 || (!x && !b && decide (dest.toNat < 8) && decide (src1.toNat < 8))

/-- Zeroing needs a writemask (R78; `z_needs_mask` of R81). -/
def zeroingFits : Instr → Bool
  | .unpcklps _ _ _ => true
  | .vunpcklpsVex128C5 _ _ _ _ => true
  | .vunpcklpsVex128C4 _ _ _ _ _ _ _ => true
  | .vunpcklpsVex256C5 _ _ _ _ => true
  | .vunpcklpsVex256C4 _ _ _ _ _ _ _ => true
  | .vunpcklpsEvex128 _ _ _ _ _ aaa z _ _ => !z || aaa != 0#3
  | .vunpcklpsEvex256 _ _ _ _ _ aaa z _ _ => !z || aaa != 0#3
  | .vunpcklpsEvex512 _ _ _ _ _ aaa z _ _ => !z || aaa != 0#3

/-- `EVEX.b` needs a memory operand (R78). -/
def broadcastFits : Instr → Bool
  | .unpcklps _ _ _ => true
  | .vunpcklpsVex128C5 _ _ _ _ => true
  | .vunpcklpsVex128C4 _ _ _ _ _ _ _ => true
  | .vunpcklpsVex256C5 _ _ _ _ => true
  | .vunpcklpsVex256C4 _ _ _ _ _ _ _ => true
  | .vunpcklpsEvex128 _ _ _ _ _ _ _ bcst rm => !bcst || !rm.isReg
  | .vunpcklpsEvex256 _ _ _ _ _ _ _ bcst rm => !bcst || !rm.isReg
  | .vunpcklpsEvex512 _ _ _ _ _ _ _ bcst rm => !bcst || !rm.isReg

/-- At most 15 bytes (R60). -/
def lengthFits (i : Instr) : Bool := decide (i.len ≤ maxLength)

/-- The instruction has an encoding in the mode. -/
def wellFormed (m : Mode) (i : Instr) : Bool :=
  m.admitted && frontFits m i && operandFits m i && extensionFits m i && zeroingFits i && broadcastFits i && lengthFits i

/-! ## Decoded records: the checks of R81 by its own names -/

/-- `legacy_src1`: the legacy form's first source is its destination. -/
def DecodedInst.legacySrc1 (r : DecodedInst) : Bool := r.form != .legacy128 || r.src1 == r.dest

/-- `nomask_outside_evex`: only the EVEX forms have a mask, zeroing or broadcast. -/
def DecodedInst.nomaskOutsideEvex (r : DecodedInst) : Bool :=
  r.form.isEvex || (r.aaa == 0#3 && !r.z && match r.src2 with
    | .mem _ true => false
    | _ => true)

/-- `z_needs_mask`. -/
def DecodedInst.zNeedsMask (r : DecodedInst) : Bool := !r.z || r.aaa != 0#3

/-- `reg_range`: the register numbers are within R22 for the form and the mode; base and index registers within R26. -/
def DecodedInst.regRange (m : Mode) (r : DecodedInst) : Bool :=
  decide (r.dest.val < r.form.nameable m) && decide (r.src1.val < r.form.nameable m) && match r.src2 with
    | .reg n => decide (n.val < r.form.nameable m)
    | .mem a _ => m == .mode64 || (a.base.all (fun n => decide (n.val < 8)) && a.index.all (fun n => decide (n.val < 8)))

/-- `feature`: the form exists on the processor (R2, R5). -/
def DecodedInst.feature (f : Features) (r : DecodedInst) : Bool := r.form.featuresPresent f

/-- `mode_addr`: the address size is one the mode offers, and 32-bit mode has no address relative to the next instruction. -/
def DecodedInst.modeAddr (m : Mode) (r : DecodedInst) : Bool :=
  match r.src2 with
  | .reg _ => true
  | .mem a _ =>
    match m with
    | .mode64 => a.asize != .a16
    | _ => a.asize != .a64 && !a.riprel

end Sys2Proof
end

