-- ==== Sys2Proof/Safety.lean ====
section
/-! DEFINITION. The terms the claims use: the named launch premises of R150 and R152, when an operand can be read (R43, R48,
R57, R58), the value a second source has, what an encoding names (R76), what an execution may change (R32), and the invariant of the machine. None of them
is used by a meaning; they say again, from the spec, what the meanings are to be held against. -/

namespace Sys2Proof.Machine

/-! ## Launch premises -/

/-- `P_enabled(form)`, the table of R152. -/
def State.enabled (s : State) : Form → Bool
  | .legacy128 => s.cfg.feat.sse && !s.em && !s.ts && s.osfxsr
  | .vex128 => s.cfg.feat.avx && !s.ts && s.osxsave && s.xcr0Avx
  | .vex256 => s.cfg.feat.avx && !s.ts && s.osxsave && s.xcr0Avx
  | .evex128 => s.cfg.feat.avx512f && s.cfg.feat.avx512vl && !s.ts && s.osxsave && s.xcr0Avx && s.xcr0Avx512
  | .evex256 => s.cfg.feat.avx512f && s.cfg.feat.avx512vl && !s.ts && s.osxsave && s.xcr0Avx && s.xcr0Avx512
  | .evex512 => s.cfg.feat.avx512f && !s.ts && s.osxsave && s.xcr0Avx && s.xcr0Avx512

/-- `P_mode` and `P_enabled(form)`, on a processor whose parameters are as R4 and R8 require. -/
def State.ready (s : State) (f : Form) : Bool := s.cfg.wf && s.admitted && s.enabled f

/-- Each of the `n` bytes from a linear address on translates, and to ordinary memory (`P_mem`, R49, R57, R58). -/
def State.bytesReadable (s : State) (la n : Nat) : Bool :=
  (List.range n).all fun i =>
    match s.translate .read (la + i) with
    | .ok pa => (s.windowAt pa).isNone
    | .error _ => false

/-- The segment check passes, the operand stays within the address space, its bytes are readable (R43). -/
def State.rangeReadable (s : State) (r : SegReg) (ea n : Nat) : Bool :=
  s.segmentAllows r ea n && decide (s.linear r ea + n ≤ 2 ^ s.linearWidth) && s.bytesReadable (s.linear r ea) n

/-- The legacy form's operand can be read: aligned to 16 bytes, in a segment whose base is (R44), and readable. -/
def State.legacyReadable (s : State) (r : SegReg) (ea : Nat) : Bool :=
  s.segmentBase r % 16 == 0 && s.linear r ea % 16 == 0 && s.rangeReadable r ea 16

/-- The operand of forms 2 to 6 can be read: readable, and aligned to its size if alignment checking is active (R129). -/
def State.otherReadable (s : State) (r : SegReg) (ea n : Nat) : Bool :=
  s.rangeReadable r ea n && (!s.alignmentChecking || s.linear r ea % n == 0)

/-- The second source can be read: a register always, memory under `P_mem` and `P_quiet` (R150). -/
def State.srcReadable (s : State) (r : DecodedInst) : Bool :=
  match r.src2 with
  | .reg _ => true
  | .mem a bcst =>
    if r.form = .legacy128 then s.legacyReadable a.seg (effectiveAddress s r.len a)
    else s.otherReadable a.seg (effectiveAddress s r.len a) (operandBytes r.form bcst)

/-! ## Values -/

/-- The four bytes at a linear address as an element, lowest address least significant (R41). -/
def State.elemAt (s : State) (la : Nat) : Elem := s.byteAt (la + 3) ++ s.byteAt (la + 2) ++ s.byteAt (la + 1) ++ s.byteAt la

/-- Element `j` of the second source: of the register, of the memory operand, or the broadcast element (R109). -/
def State.srcElem (s : State) (r : DecodedInst) (j : Nat) : Elem :=
  match r.src2 with
  | .reg n => elem j (s.readZmm n)
  | .mem a bcst => s.elemAt (s.linear a.seg (effectiveAddress s r.len a) + if bcst then 0 else 4 * j)

/-- Element `j` of the interleave, in the element form of R102: with `n = j div 4` and `p = j mod 4`, element `4n + p div 2` of
the first source when `p` is even, of the second when it is odd. -/
def unpacked (s1 s2 : Nat → Elem) (j : Nat) : Elem :=
  if j % 4 % 2 = 0 then s1 (4 * (j / 4) + j % 4 / 2) else s2 (4 * (j / 4) + j % 4 / 2)

/-- Element `j` of the interleave of an instruction's two sources, as they are before the instruction (R12). -/
def State.unpackedElem (s : State) (r : DecodedInst) (j : Nat) : Elem :=
  unpacked (fun i => elem i (s.readZmm r.src1)) (s.srcElem r) j

end Sys2Proof.Machine

namespace Sys2Proof

/-! ## What an encoding names -/

/-- The number of the base register an `r/m` operand names, the extension bit in front of its three bits (R72, R73, R76); with
16-bit addressing BX 3, BP 5, SI 6 or DI 7 (R84, R26). -/
def RM.baseNumber (b : Bool) : RM → Option Nat
  | .reg _ => none
  | .ind q => some (8 * b.toNat + q.toNat)
  | .disp32 _ => none
  | .ind8 q _ => some (8 * b.toNat + q.toNat)
  | .ind32 q _ => some (8 * b.toNat + q.toNat)
  | .sib _ _ q => some (8 * b.toNat + q.toNat)
  | .sibDisp32 _ _ _ => none
  | .sib8 _ _ q _ => some (8 * b.toNat + q.toNat)
  | .sib32 _ _ q _ => some (8 * b.toNat + q.toNat)
  | .ind16 q => [3, 3, 5, 5, 6, 7, 5, 3][q.toNat]?
  | .disp16 _ => none
  | .ind16d8 q _ => [3, 3, 5, 5, 6, 7, 5, 3][q.toNat]?
  | .ind16d16 q _ => [3, 3, 5, 5, 6, 7, 5, 3][q.toNat]?

/-- The number of the index register, the extension bit in front of its three bits, 0100 being none (R73, R76); with 16-bit
addressing SI 6 or DI 7 for the first four values of `r/m` (R84, R26). -/
def RM.indexNumber (x : Bool) : RM → Option Nat
  | .reg _ => none
  | .ind _ => none
  | .disp32 _ => none
  | .ind8 _ _ => none
  | .ind32 _ _ => none
  | .sib _ i _ => if 8 * x.toNat + i.toNat = 4 then none else some (8 * x.toNat + i.toNat)
  | .sibDisp32 _ i _ => if 8 * x.toNat + i.toNat = 4 then none else some (8 * x.toNat + i.toNat)
  | .sib8 _ i _ _ => if 8 * x.toNat + i.toNat = 4 then none else some (8 * x.toNat + i.toNat)
  | .sib32 _ i _ _ => if 8 * x.toNat + i.toNat = 4 then none else some (8 * x.toNat + i.toNat)
  | .ind16 q => [6, 7, 6, 7][q.toNat]?
  | .disp16 _ => none
  | .ind16d8 q _ => [6, 7, 6, 7][q.toNat]?
  | .ind16d16 q _ => [6, 7, 6, 7][q.toNat]?

/-- The second source is the one that the operand's bytes and the extension bits X and B name (R71, R76): a vector register, its
number `X:B:r/m` under EVEX and `B:r/m` otherwise; or memory at the operand's address, whose base and index are these. -/
def Src2.isNamed (m : Mode) (pfx : List Prefix) (evex x b bcst : Bool) (n : Nat) (o : RM) : Src2 → Prop
  | .reg q => ∃ rm, o = .reg rm ∧ q.val = (if evex then 16 * x.toNat else 0) + 8 * b.toNat + rm.toNat
  | .mem a q => q = bcst ∧ Machine.rmAddr m pfx x b n o = some a
      ∧ a.base.map Fin.val = o.baseNumber b ∧ a.index.map Fin.val = o.indexNumber x

end Sys2Proof

namespace Sys2Proof.Machine

/-! ## What an execution may change -/

/-- Between the two states only the one vector register, the program counter and the model's own draw number may differ:
the frame of R32, field by field. -/
def onlyWrites (s t : State) (dest : Fin 32) : Prop :=
  t.cfg = s.cfg ∧ t.mode = s.mode ∧ (∀ i : Fin 32, i ≠ dest → t.readZmm i = s.readZmm i) ∧ t.k = s.k ∧ t.gpr = s.gpr
    ∧ t.es = s.es ∧ t.cs = s.cs ∧ t.ss = s.ss ∧ t.ds = s.ds ∧ t.fs = s.fs ∧ t.gs = s.gs
    ∧ t.rflags = s.rflags ∧ t.mxcsr = s.mxcsr ∧ t.x87 = s.x87
    ∧ t.cr0 = s.cr0 ∧ t.cr2 = s.cr2 ∧ t.cr3 = s.cr3 ∧ t.cr4 = s.cr4 ∧ t.cr8 = s.cr8 ∧ t.xcr0 = s.xcr0 ∧ t.efer = s.efer
    ∧ t.pages = s.pages ∧ t.windows = s.windows ∧ (∀ a : Nat, t.mem.read a = s.mem.read a)

/-- The program counter has moved past an instruction of the given length: modulo `2^64` in 64-bit mode, `2^32` in 32-bit
mode (R28). -/
def pcAdvanced (s t : State) (len : Nat) : Prop := t.rip.toNat = (s.rip.toNat + len) % 2 ^ s.linearWidth

/-- A result with the state it may carry changed. -/
def mapNext (f : State → State) : Result → Result
  | .next t => .next (f t)
  | .fault x => .fault x
  | .refused q => .refused q

/-! ## The invariant -/

/-- The vector registers have no bit at or above `MAXVL` (R4, R20). -/
def State.vectorsFit (s : State) : Prop := ∀ i : Fin 32, s.readZmm i &&& registerOnes s.cfg.maxvl = s.readZmm i

/-- The opmask registers have no bit at or above `KW` (R8, R24). -/
def State.masksFit (s : State) : Prop := ∀ a : BitVec 3, (s.readMask a).toNat < 2 ^ s.cfg.kw

/-- The state is one the spec describes: parameters as R4 and R8 require, registers of the processor's widths, EIP of 32 bits
in 32-bit mode (R27), `EFLAGS.VM = 0` in the admitted modes (R30), memory in its canonical form. -/
structure State.Inv (s : State) : Prop where
  config  : s.cfg.wf = true
  vectors : s.vectorsFit
  masks   : s.masksFit
  eip     : s.mode = .mode32 → s.rip.toNat < 2 ^ 32
  notV86  : s.mode.admitted = true → s.vmFlag = false
  memory  : s.mem.wf = true

end Sys2Proof.Machine
end

