-- ==== Sys2Proof/Certificates/Slice0/Obligations.lean ====
section
/-! DEFINITION. The statements for the provers, each with the rule of spec/ it formalises. -/

open Sys2Proof Sys2Proof.Machine

/-! ## Encoding -/

/-- R60 to R79: a well-formed instruction's encoding, whatever follows it, is decoded as that instruction. -/
def Obligations.DecodeInvertsEncode : Prop :=
  ∀ (m : Mode) (i : Instr) (rest : List Byte), wellFormed m i = true → decode m (encode i ++ rest) = .ok i

/-- R60 to R80: whatever the decoder accepts is a well-formed instruction, and its encoding is the bytes that were read. -/
def Obligations.EncodeInvertsDecode : Prop :=
  ∀ (m : Mode) (bs : List Byte) (i : Instr), decode m bs = .ok i →
    wellFormed m i = true ∧ i.len ≤ bs.length ∧ encode i = bs.take i.len

/-- R81, R22, R79: the record of whatever the decoder accepts meets the named checks of R81 that do not depend on the
processor, and its length is 3 to 15 bytes. -/
def Obligations.DecodedRecordMeetsNamedChecks : Prop :=
  ∀ (m : Mode) (bs : List Byte) (i : Instr), decode m bs = .ok i →
    (record m i).legacySrc1 = true ∧ (record m i).nomaskOutsideEvex = true ∧ (record m i).zNeedsMask = true
      ∧ (record m i).regRange m = true ∧ (record m i).modeAddr m = true
      ∧ 3 ≤ (record m i).len ∧ (record m i).len ≤ 15

/-- R62, R67, R76, R78: words written out from the encodings decode to the instructions they stand for. -/
def Obligations.WrittenWordsDecode : Prop :=
  decode .mode64 [0x0F, 0x14, 0xC1] = .ok (.unpcklps [] 0 (.reg 1))
  ∧ decode .mode64 [0x45, 0x0F, 0x14, 0xC7] = .ok (.unpcklps [.rex false true false true] 0 (.reg 7))
  ∧ decode .mode64 [0xC5, 0xE8, 0x14, 0xCB] = .ok (.vunpcklpsVex128C5 [] 1 2 (.reg 3))
  ∧ decode .mode64 [0xC4, 0xC1, 0x68, 0x14, 0xCB] = .ok (.vunpcklpsVex128C4 [] false false true 1 2 (.reg 3))
  ∧ decode .mode64 [0xC5, 0xFC, 0x14, 0xD1] = .ok (.vunpcklpsVex256C5 [] 2 0 (.reg 1))
  ∧ decode .mode64 [0xC4, 0xC1, 0x6C, 0x14, 0x4C, 0xC8, 0xFC]
      = .ok (.vunpcklpsVex256C4 [] false false true 1 2 (.sib8 3 1 0 0xFC))
  ∧ decode .mode64 [0x62, 0xF1, 0x6C, 0x08, 0x14, 0xCB] = .ok (.vunpcklpsEvex128 [] false false 1 2 0 false false (.reg 3))
  ∧ decode .mode64 [0x62, 0xF1, 0x6C, 0x39, 0x14, 0x48, 0x02]
      = .ok (.vunpcklpsEvex256 [] false false 1 2 1 false true (.ind8 0 2))
  ∧ decode .mode64 [0x62, 0x81, 0x0C, 0x47, 0x14, 0xC9] = .ok (.vunpcklpsEvex512 [] true true 17 30 7 false false (.reg 1))

/-- R54: LOCK in front of any of the encodings is an invalid-opcode fault. -/
def Obligations.LockBeforeAnyFormIsInvalidOpcode : Prop :=
  ∀ (s : State) (i : Instr) (rest : List Byte), s.admitted = true → s.trapFlag = false → wellFormed s.mode i = true →
    s.fetch = 0xF0#8 :: encode i ++ rest → step s = .fault .invalidOpcode

/-- R68: 66, F2, F3, F0 or a REX byte in front of a VEX or EVEX form is an invalid-opcode fault. -/
def Obligations.BadBytesBeforeVexAreInvalidOpcode : Prop :=
  ∀ (s : State) (p : Prefix) (i : Instr) (rest : List Byte), s.admitted = true → s.trapFlag = false →
    wellFormed s.mode i = true → (record s.mode i).form ≠ .legacy128 → p.okBeforeVex = false →
    (s.mode = .mode64 ∨ hasRex [p] = false) → s.fetch = p.byte :: encode i ++ rest → step s = .fault .invalidOpcode

/-- R63, R80: in front of the legacy form, 66 makes another instruction, which is refused, and F2 or F3 an invalid opcode. -/
def Obligations.MandatoryBytesBeforeLegacy : Prop :=
  ∀ (s : State) (pfx : List Prefix) (reg : BitVec 3) (rm : RM) (rest : List Byte), s.admitted = true →
    s.trapFlag = false → wellFormed s.mode (.unpcklps pfx reg rm) = true →
    (s.fetch = 0x66#8 :: encode (.unpcklps pfx reg rm) ++ rest → step s = .refused .notThisInstruction)
    ∧ (s.fetch = 0xF2#8 :: encode (.unpcklps pfx reg rm) ++ rest → step s = .fault .invalidOpcode)
    ∧ (s.fetch = 0xF3#8 :: encode (.unpcklps pfx reg rm) ++ rest → step s = .fault .invalidOpcode)

/-- R69, R78, R80: in either mode and behind any segment overrides and 67, EVEX bytes with opcode 14 that have a reserved field
value are an invalid opcode: `P0[3:2]` not 00, `P1[2]` not 1, `W = 1` with `pp = 00`, `L'L = 11`, `z = 1` with `aaa = 000`, `b = 1` with
a register operand. In 32-bit mode for neutral extension bits and without 67, since the others are refused. That the rows
which name neither `pp` nor the map hold for every value of both is the model's reading (log entry 19). -/
def Obligations.ReservedEvexFieldsAreInvalid : Prop :=
  ∀ (m : Mode) (pfx : List Prefix) (p0 p1 p2 : Byte) (reg : BitVec 3) (rm : RM) (rest : List Byte),
    m.admitted = true → pfx.all Prefix.okBeforeVex = true → rm.fits (addrSize m pfx) = true → pfx.length + 5 + rm.len ≤ 15 →
    (m = .mode32 → p0.extractLsb' 4 4 = 15#4 ∧ p1.getLsbD 6 = true ∧ p2.getLsbD 3 = true ∧ pfx.contains .addrSize = false) →
    (p0.extractLsb' 2 2 ≠ 0#2 ∨ p1.getLsbD 2 = false ∨ (p1.getLsbD 7 = true ∧ p1.extractLsb' 0 2 = 0#2)
      ∨ p2.extractLsb' 5 2 = 3#2 ∨ (p2.getLsbD 7 = true ∧ p2.extractLsb' 0 3 = 0#3)
      ∨ (p2.getLsbD 4 = true ∧ rm.isReg = true)) →
    ∃ q, decode m (pfx.map Prefix.byte ++ [0x62#8, p0, p1, p2, 0x14#8] ++ modrmBytes reg rm ++ rest) = .error (.invalid q)

/-- R67, R80: the neighbours of the VEX forms, in either mode and behind any segment overrides and 67. `pp = 01` and a map other
than `0F` are other instructions; `pp = 10` and `11` are invalid; with `pp = 00` the bytes are of the family whatever `W` is. In
32-bit mode for neutral extension bits. A map other than `0F` with `pp = 10` or `11` is described by two rows of R80; that it is
refused, not invalid, is the model's reading (log entry 19, DEDUCED). -/
def Obligations.VexNeighboursAreRefusedOrInvalid : Prop :=
  ∀ (m : Mode) (pfx : List Prefix) (p p0 p1 : Byte) (reg : BitVec 3) (rm : RM) (rest : List Byte),
    let c5 := decode m (pfx.map Prefix.byte ++ [0xC5#8, p, 0x14#8] ++ modrmBytes reg rm ++ rest)
    let c4 := decode m (pfx.map Prefix.byte ++ [0xC4#8, p0, p1, 0x14#8] ++ modrmBytes reg rm ++ rest)
    m.admitted = true → pfx.all Prefix.okBeforeVex = true → rm.fits (addrSize m pfx) = true → pfx.length + 3 + rm.len ≤ 15 →
    (m = .mode32 → p.extractLsb' 6 2 = 3#2 ∧ p0.extractLsb' 5 3 = 7#3 ∧ p1.getLsbD 6 = true) →
    (p.extractLsb' 0 2 = 1#2 → c5 = .error (.other .vexPd))
    ∧ (p.getLsbD 1 = true → c5 = .error (.invalid .vexPp))
    ∧ (pfx.length + 4 + rm.len ≤ 15 →
      (p0.extractLsb' 0 5 ≠ 1#5 → c4 = .error (.other .vexMap))
      ∧ (p0.extractLsb' 0 5 = 1#5 → p1.extractLsb' 0 2 = 1#2 → c4 = .error (.other .vexPd))
      ∧ (p0.extractLsb' 0 5 = 1#5 → p1.getLsbD 1 = true → c4 = .error (.invalid .vexPp))
      ∧ (p0.extractLsb' 0 5 = 1#5 → p1.extractLsb' 0 2 = 0#2 → ∃ i, c4 = .ok i))

/-- R67: `VEX.W` is ignored; the two spellings that differ in it execute alike. -/
def Obligations.VexWIsIgnored : Prop :=
  ∀ (pfx : List Prefix) (x b : Bool) (dest src1 : BitVec 4) (rm : RM) (s : State),
    exec (.vunpcklpsVex128C4 pfx true x b dest src1 rm) s = exec (.vunpcklpsVex128C4 pfx false x b dest src1 rm) s
    ∧ exec (.vunpcklpsVex256C4 pfx true x b dest src1 rm) s = exec (.vunpcklpsVex256C4 pfx false x b dest src1 rm) s

/-- R60, R126 (c), R130: an instruction of the family that is longer than 15 bytes is `#GP(0)`, before anything else. -/
def Obligations.LongInstructionIsGeneralProtection : Prop :=
  ∀ (s : State) (i : Instr), s.admitted = true → s.trapFlag = false → frontFits s.mode i = true →
    operandFits s.mode i = true → extensionFits s.mode i = true → 15 < i.len → s.fetch = (encode i).take 15 →
    step s = .fault .generalProtection

/-- R70, R84, D22: in 32-bit mode C4, C5 or 62 begins another instruction unless bits 7:6 of the next byte are 11; an encoding
of 64-bit mode with an extension bit that is not neutral, or an EVEX form with 67, is refused. -/
def Obligations.Mode32RefusesWhatItIsUnsureOf : Prop :=
  (∀ (b q : Byte) (rest : List Byte), (b = 0xC4#8 ∨ b = 0xC5#8 ∨ b = 0x62#8) → q.extractLsb' 6 2 ≠ 3#2 →
    decode .mode32 (b :: q :: rest) = .error (.other .lesLdsBound))
  ∧ (∀ (i : Instr) (rest : List Byte), wellFormed .mode64 i = true → extensionFits .mode32 i = false →
    decode .mode32 (encode i ++ rest) = .error (.uncertain .mode32Extension)
      ∨ decode .mode32 (encode i ++ rest) = .error (.other .lesLdsBound))
  ∧ (∀ (i : Instr) (rest : List Byte), wellFormed .mode64 i = true → extensionFits .mode32 i = true →
    (record .mode64 i).form.isEvex = true → frontFits .mode32 i = false →
    decode .mode32 (encode i ++ rest) = .error (.uncertain .evexAddr16))

/-! ## The step -/

/-- R100, R150, R60, R80: in an admitted mode with TF clear, a step runs the instruction the bytes at the program counter decode
to, and adds nothing around exec: exec itself moves the program counter. Where they decode to none, the step is `#GP(0)` for
more than 15 bytes, `#UD` for an invalid encoding, and a refusal by name for bytes that end too early (R130, log entry 15), for
another instruction and for an uncertain encoding. With TF set it is refused (R139, log entry 16). -/
def Obligations.StepRunsDecodedInstruction : Prop :=
  ∀ (s : State), s.admitted = true →
    (s.trapFlag = true → step s = .refused .singleStep)
    ∧ (s.trapFlag = false →
      (∀ i, decode s.mode s.fetch = .ok i → step s = exec i s)
      ∧ (decode s.mode s.fetch = .error .tooLong → step s = .fault .generalProtection)
      ∧ (∀ q, decode s.mode s.fetch = .error (.invalid q) → step s = .fault .invalidOpcode)
      ∧ (decode s.mode s.fetch = .error .truncated → step s = .refused .codeFetch)
      ∧ (∀ q, decode s.mode s.fetch = .error (.other q) → step s = .refused .notThisInstruction)
      ∧ (∀ q, decode s.mode s.fetch = .error (.uncertain q) → step s = .refused .uncertainEncoding))

/-- R60, R100: where the bytes of memory at the program counter are the encoding of a well-formed instruction, a step runs
that instruction. -/
def Obligations.EncodedBytesAtProgramCounterRun : Prop :=
  ∀ (s : State) (i : Instr), s.admitted = true → s.trapFlag = false → wellFormed s.mode i = true →
    (∀ n, n < i.len → ∃ pa, s.codeAddress n = some pa ∧ (encode i)[n]? = some (s.mem.read pa)) → step s = exec i s

/-- The launch of a program from the reset state (log entry 8, the model's own): the next step runs the instruction of the
word that was placed. -/
def Obligations.LaunchedWordRuns : Prop :=
  ∀ (nbits w : Nat) (i : Instr), decodeTableWord nbits w = some i →
    step (State.reset.withFetchWord nbits w) = exec i (State.reset.withFetchWord nbits w)

/-- R28, R32, R46, R112, R135: a step that completes changes one vector register and the program counter, which moves 3 to 15
bytes forward; it changes no byte of memory, no mode and no privilege level (and the model's own draw number). -/
def Obligations.StepChangesOneRegisterAndPc : Prop :=
  ∀ (s t : State), step s = .next t →
    ∃ d n, onlyWrites s t d ∧ 3 ≤ n ∧ n ≤ 15 ∧ pcAdvanced s t n ∧ t.cpl = s.cpl

/-- D3 (log entry 3): in a mode the spec excludes nothing runs, and the step says so. A state with `EFLAGS.VM = 1` is taken as
virtual-8086 mode, whatever the mode field says (R30, log entry 30). -/
def Obligations.NothingRunsInExcludedModes : Prop :=
  ∀ (s : State), s.mode ≠ .mode64 ∧ s.mode ≠ .mode32 ∨ s.rflags.getLsbD 17 = true →
    step s = .refused .excludedMode ∧ ∀ (i : Instr) (t : State), exec i s ≠ .next t

/-- The invariant is kept by every step that completes: parameters (R4, R8), register widths (R20, R24), EIP (R27), `EFLAGS.VM`
(R30), and memory in the canonical form, which is the model's own (log entries 1, 2, 7). -/
def Obligations.StepKeepsInvariant : Prop :=
  ∀ (s t : State), s.Inv → step s = .next t → t.Inv

/-- The reset state, whose values are those of R151 and of log entries 1 and 4 to 7, meets the invariant. -/
def Obligations.ResetMeetsInvariant : Prop := State.reset.Inv

/-! ## The forms: where each completes and with what result -/

/-- R103: form 1 (the constructor unpcklps). Enabled and with a second source that can be read, it completes: elements 0 to 3
of the destination are the interleave `[a0, b0, a1, b1]` of the old values, bits `MAXVL-1:128` are unmodified, the program
counter advances by the length, and nothing else changes. -/
def Obligations.LegacyFormInterleavesAndKeepsUpperBits : Prop :=
  ∀ (pfx : List Prefix) (reg : BitVec 3) (rm : RM) (s : State),
    let i : Instr := .unpcklps pfx reg rm
    let r := record s.mode i
    s.ready .legacy128 = true → s.srcReadable r = true →
    ∃ t, exec i s = .next t
      ∧ (∀ j, j < 4 → elem j (t.readZmm r.dest) = s.unpackedElem r j)
      ∧ (∀ b, 128 ≤ b → b < s.cfg.maxvl.bits → (t.readZmm r.dest).getLsbD b = (s.readZmm r.dest).getLsbD b)
      ∧ pcAdvanced s t i.len ∧ onlyWrites s t r.dest

/-- R104, R105: forms 2 and 3, each in its two spellings (the constructors vunpcklpsVex128C5, vunpcklpsVex128C4,
vunpcklpsVex256C5 and vunpcklpsVex256C4). Enabled and with a second source that can be read they complete: the `KL` elements
are the interleave lane by lane, bits `MAXVL-1:VL` become 0, the program counter advances, nothing else changes. -/
def Obligations.VexFormsInterleaveAndZeroUpperBits : Prop :=
  ∀ (i : Instr) (v : VLen) (s : State),
    (∃ pfx dest src1 rm, (i = .vunpcklpsVex128C5 pfx dest src1 rm ∧ v = .v128)
      ∨ (i = .vunpcklpsVex256C5 pfx dest src1 rm ∧ v = .v256)
      ∨ ∃ w x b, (i = .vunpcklpsVex128C4 pfx w x b dest src1 rm ∧ v = .v128)
        ∨ (i = .vunpcklpsVex256C4 pfx w x b dest src1 rm ∧ v = .v256)) →
    let r := record s.mode i
    s.ready r.form = true → s.srcReadable r = true →
    ∃ t, exec i s = .next t
      ∧ (∀ j, j < v.elems → elem j (t.readZmm r.dest) = s.unpackedElem r j)
      ∧ (∀ b, v.bits ≤ b → (t.readZmm r.dest).getLsbD b = false)
      ∧ pcAdvanced s t i.len ∧ onlyWrites s t r.dest

/-- What R106 to R108 say of an EVEX form of vector length `v`: enabled, with no reserved field and with a second source that
can be read, it completes; element `j < KL` is the interleave's where the mask enables it (`aaa = 0` or `k[aaa][j] = 1`), else
0 under zeroing and the old element under merging; bits `MAXVL-1:VL` become 0. -/
def Sys2Proof.Machine.evexCompletes (v : VLen) (i : Instr) (aaa : BitVec 3) (z : Bool) (s : State) : Prop :=
  let r := record s.mode i
  s.ready r.form = true → zeroingFits i = true → broadcastFits i = true → s.srcReadable r = true →
  ∃ t, exec i s = .next t
    ∧ (∀ j, j < v.elems → elem j (t.readZmm r.dest) =
        if aaa = 0 ∨ (s.readMask aaa).getLsbD j = true then s.unpackedElem r j
        else if z then 0 else elem j (s.readZmm r.dest))
    ∧ (∀ b, v.bits ≤ b → (t.readZmm r.dest).getLsbD b = false)
    ∧ pcAdvanced s t i.len ∧ onlyWrites s t r.dest

/-- R106: form 4 (the constructor vunpcklpsEvex128). -/
def Obligations.Evex128InterleavesUnderMask : Prop :=
  ∀ (pfx : List Prefix) (x b : Bool) (dest src1 : BitVec 5) (aaa : BitVec 3) (z bcst : Bool) (rm : RM) (s : State),
    evexCompletes .v128 (.vunpcklpsEvex128 pfx x b dest src1 aaa z bcst rm) aaa z s

/-- R107: form 5 (the constructor vunpcklpsEvex256). -/
def Obligations.Evex256InterleavesUnderMask : Prop :=
  ∀ (pfx : List Prefix) (x b : Bool) (dest src1 : BitVec 5) (aaa : BitVec 3) (z bcst : Bool) (rm : RM) (s : State),
    evexCompletes .v256 (.vunpcklpsEvex256 pfx x b dest src1 aaa z bcst rm) aaa z s

/-- R108: form 6 (the constructor vunpcklpsEvex512). -/
def Obligations.Evex512InterleavesUnderMask : Prop :=
  ∀ (pfx : List Prefix) (x b : Bool) (dest src1 : BitVec 5) (aaa : BitVec 3) (z bcst : Bool) (rm : RM) (s : State),
    evexCompletes .v512 (.vunpcklpsEvex512 pfx x b dest src1 aaa z bcst rm) aaa z s

/-- R32, with two clauses of the model's own: an execution that completes changes the destination vector register and the program
counter, and nothing else; the model's own draw number advances by one (log entry 13), and of the destination's container the
bits at and above `MAXVL` are 0 (log entry 2, DESIGN CHOICE). An execution that faults has no next state. -/
def Obligations.ExecutionFrame : Prop :=
  ∀ (i : Instr) (s t : State), exec i s = .next t →
    onlyWrites s t (record s.mode i).dest ∧ pcAdvanced s t i.len ∧ t.draws = s.draws + 1
      ∧ ∀ b, s.cfg.maxvl.bits ≤ b → (t.readZmm (record s.mode i).dest).getLsbD b = false

/-! ## What the forms compute -/

/-- R101: the four slices of `Lane128(a, b)`, in which bits 127:64 of the sources are not used. -/
def Obligations.LaneInterleavesLowQuadwords : Prop :=
  ∀ (a b : BitVec 128),
    (lane128 a b).extractLsb' 0 32 = a.extractLsb' 0 32 ∧ (lane128 a b).extractLsb' 32 32 = b.extractLsb' 0 32
    ∧ (lane128 a b).extractLsb' 64 32 = a.extractLsb' 32 32 ∧ (lane128 a b).extractLsb' 96 32 = b.extractLsb' 32 32

/-- R102: `InterleaveLow` lane by lane and, equivalently, element by element. -/
def Obligations.InterleaveLowByLaneAndByElement : Prop :=
  ∀ (v : VLen) (s1 s2 : Vec),
    (∀ n, n < v.lanes → lane n (interleaveLow v s1 s2) = lane128 (lane n s1) (lane n s2))
    ∧ (∀ j, j < v.elems → elem j (interleaveLow v s1 s2) =
        if j % 4 % 2 = 0 then elem (4 * (j / 4) + j % 4 / 2) s1 else elem (4 * (j / 4) + j % 4 / 2) s2)

/-- R111: `ApplyMask` element by element, and 0 above `VL`. -/
def Obligations.ApplyMaskByElement : Prop :=
  ∀ (v : VLen) (tmp old : Vec) (aaa : BitVec 3) (z : Bool) (m : Word),
    (∀ j, j < v.elems → elem j (applyMask v tmp old aaa z m) =
      if aaa = 0 ∨ m.getLsbD j = true then elem j tmp else if z then 0 else elem j old)
    ∧ (∀ b, v.bits ≤ b → (applyMask v tmp old aaa z m).getLsbD b = false)

/-- R23: elements 2 and 3 of a lane of a source do not influence the interleave. -/
def Obligations.UpperQuadwordsAreIgnored : Prop :=
  ∀ (v : VLen) (a b a' b' : Vec),
    (∀ n, n < v.lanes → ∀ p, p < 2 → elem (4 * n + p) a = elem (4 * n + p) a' ∧ elem (4 * n + p) b = elem (4 * n + p) b') →
    interleaveLow v a b = interleaveLow v a' b'

/-- R109, R41, R50: where the second source has a value, its elements are those of the register, of the memory operand's bytes
lowest address least significant, or the one element broadcast; of the legacy form's, elements 0 and 1. -/
def Obligations.SecondSourceElements : Prop :=
  ∀ (s : State) (narrow : Bool) (r : DecodedInst) (v : Vec), src2Value s narrow r = .ok v →
    ∀ j, j < (if r.form = .legacy128 then 2 else r.form.vlen.elems) → elem j v = s.srcElem r j

/-- R114: with one register as both sources and no mask every low element is duplicated: `[a0, a0, a1, a1]` in each lane. -/
def Obligations.SameSourceIsDuplicated : Prop :=
  ∀ (i : Instr) (s t : State), s.cfg.wf = true → exec i s = .next t →
    (record s.mode i).src2 = .reg (record s.mode i).src1 → (record s.mode i).aaa = 0 →
    ∀ j, j < (record s.mode i).form.vlen.elems →
      elem j (t.readZmm (record s.mode i).dest) = elem (4 * (j / 4) + j % 4 / 2) (s.readZmm (record s.mode i).src1)

/-- R115 (a): an EVEX form of 128 or 256 bits without a mask leaves the same vector registers as the VEX form with the same
operands. -/
def Obligations.UnmaskedEvexAgreesWithVex : Prop :=
  ∀ (i i' : Instr) (s t t' : State),
    ((record s.mode i).form = .vex128 ∧ (record s.mode i').form = .evex128
      ∨ (record s.mode i).form = .vex256 ∧ (record s.mode i').form = .evex256) →
    (record s.mode i').aaa = 0 → (record s.mode i).dest = (record s.mode i').dest →
    (record s.mode i).src1 = (record s.mode i').src1 →
    (∀ j, s.srcElem (record s.mode i) j = s.srcElem (record s.mode i') j) →
    exec i s = .next t → exec i' s = .next t' → t.zmm = t'.zmm

/-- R115 (b), (c), (d): form 6 without a mask agrees with forms 3 and 2 on their bits; form 1 and form 2 differ in bits
`MAXVL-1:128` only, which form 1 keeps and form 2 zeroes; an all-ones mask is no mask; an all-zeros mask leaves 0 under
zeroing and the old low elements under merging. -/
def Obligations.RelationsBetweenTheForms : Prop :=
  ∀ (v : VLen) (s1 s2 old : Vec) (aaa : BitVec 3) (z : Bool) (m : Word),
    (∀ j, j < v.elems → elem j (evexResult .v512 s1 s2 old 0 z m) = elem j (vexResult v s1 s2))
    ∧ (∀ j, j < 4 → elem j (legacyResult s1 s2) = elem j (vexResult .v128 s1 s2))
    ∧ (∀ b, 128 ≤ b → (legacyResult s1 s2).getLsbD b = s1.getLsbD b ∧ (vexResult .v128 s1 s2).getLsbD b = false)
    ∧ ((∀ j, j < v.elems → m.getLsbD j = true) → evexResult v s1 s2 old aaa z m = vexResult v s1 s2)
    ∧ ((∀ j, j < v.elems → m.getLsbD j = false) → aaa ≠ 0 → evexResult v s1 s2 old aaa true m = 0
        ∧ evexResult v s1 s2 old aaa false m = truncate v old)

/-! ## What is not read -/

/-- R24, R25: of the opmask registers an execution reads bits `KL-1:0` of the one that `aaa` names, and none when `aaa = 0`:
k0 never, bits at and above `KL` never. The opmask registers are not written. -/
def Obligations.OnlyNamedMaskBitsAreRead : Prop :=
  ∀ (i : Instr) (s : State) (k' : Vector Word 8),
    ((record s.mode i).aaa ≠ 0 → ∀ j, j < (record s.mode i).form.vlen.elems →
      ((({ s with k := k' } : State)).readMask (record s.mode i).aaa).getLsbD j
        = (s.readMask (record s.mode i).aaa).getLsbD j) →
    exec i { s with k := k' } = mapNext (fun t => { t with k := k' }) (exec i s)

/-- R51: no fault is suppressed by a mask: whatever the opmask registers hold, the same faults and refusals come out; and an EVEX
form with a memory operand completes only if every byte of the operand passes the segment check and can be read. -/
def Obligations.MaskNeverSuppressesFault : Prop :=
  ∀ (i : Instr) (s : State) (k' : Vector Word 8),
    (∀ f, exec i s = .fault f ↔ exec i { s with k := k' } = .fault f)
    ∧ (∀ q, exec i s = .refused q ↔ exec i { s with k := k' } = .refused q)
    ∧ ∀ t a bcst, (record s.mode i).form.isEvex = true → (record s.mode i).src2 = .mem a bcst → exec i s = .next t →
        s.rangeReadable a.seg (effectiveAddress s i.len a) (operandBytes (record s.mode i).form bcst) = true

/-- R30, R31: MXCSR, the x87 state and every flag but `EFLAGS.AC` and `EFLAGS.VM` are neither read nor written by an execution. (R30
says which two flags the checks read; that `EFLAGS.VM = 1` is virtual-8086 mode is the model's reading, log entry 30.) -/
def Obligations.StatusRegistersAreNotRead : Prop :=
  ∀ (i : Instr) (s : State) (m : BitVec 32) (x : X87) (f : Word), f.getLsbD 18 = s.rflags.getLsbD 18 →
    f.getLsbD 17 = s.rflags.getLsbD 17 →
    exec i { s with mxcsr := m, x87 := x, rflags := f }
      = mapNext (fun t => { t with mxcsr := m, x87 := x, rflags := f }) (exec i s)

/-- R135: with a register as second source an execution is the same at every privilege level: nothing of CS is read. -/
def Obligations.RegisterFormsIgnorePrivilege : Prop :=
  ∀ (i : Instr) (s : State) (c : Segment) (n : Fin 32), (record s.mode i).src2 = .reg n →
    exec i { s with cs := c } = mapNext (fun t => { t with cs := c }) (exec i s)

/-- R42, R45, R50: of memory an execution reads the bytes of its operand only: none with a register, 4 with broadcast, the
full width otherwise, and of the legacy form's 16 the low 8 decide. -/
def Obligations.OnlyOperandBytesAreRead : Prop :=
  ∀ (i : Instr) (s : State) (mem' : Memory),
    (∀ a bcst, (record s.mode i).src2 = .mem a bcst →
      ∀ n, n < (if (record s.mode i).form = .legacy128 then 8 else operandBytes (record s.mode i).form bcst) →
        mem'.read (s.physical .read (s.linear a.seg (effectiveAddress s i.len a) + n))
          = s.mem.read (s.physical .read (s.linear a.seg (effectiveAddress s i.len a) + n))) →
    exec i { s with mem := mem' } = mapNext (fun t => { t with mem := mem' }) (exec i s)

/-- R45: where the pages begin and end at multiples of 16, the two draws of `LEGACY_FETCH` have the same outcome: the same next
state, the same refusal, the same fault; of a page fault, whose address is drawn, that there is one. -/
def Obligations.LegacyFetchWidthIsNotSeen : Prop :=
  ∀ (pfx : List Prefix) (reg : BitVec 3) (rm : RM) (s : State),
    (∀ p ∈ s.pages, p.first % 16 = 0 ∧ p.size % 16 = 0 ∧ p.phys % 16 = 0) →
    (∀ t, unpcklpsWith true pfx reg rm s = .next t ↔ unpcklpsWith false pfx reg rm s = .next t)
    ∧ (∀ q, unpcklpsWith true pfx reg rm s = .refused q ↔ unpcklpsWith false pfx reg rm s = .refused q)
    ∧ (∀ f, (∀ c la, f ≠ .pageFault c la) →
        (unpcklpsWith true pfx reg rm s = .fault f ↔ unpcklpsWith false pfx reg rm s = .fault f))
    ∧ ((∃ c la, unpcklpsWith true pfx reg rm s = .fault (.pageFault c la))
        ↔ ∃ c la, unpcklpsWith false pfx reg rm s = .fault (.pageFault c la))

/-! ## Faults and refusals -/

/-- R123: when a decoded instruction is an invalid opcode, and that it is one only then (`EFLAGS.VM = 1` is virtual-8086 mode: log
entry 30). -/
def Obligations.InvalidOpcodeConditions : Prop :=
  ∀ (i : Instr) (s : State),
    exec i s = .fault .invalidOpcode ↔
      ((record s.mode i).form.featuresPresent s.cfg.feat = false
      ∨ ((record s.mode i).form = .legacy128 ∧ (s.cr0.getLsbD 2 = true ∨ s.cr4.getLsbD 9 = false))
      ∨ ((record s.mode i).form ≠ .legacy128 ∧ (s.cr4.getLsbD 18 = false ∨ s.xcr0.extractLsb' 1 2 ≠ 3#2
          ∨ s.mode = .real ∨ s.mode = .virtual8086 ∨ s.rflags.getLsbD 17 = true))
      ∨ ((record s.mode i).form.isEvex = true ∧ s.xcr0.extractLsb' 5 3 ≠ 7#3)
      ∨ zeroingFits i = false ∨ broadcastFits i = false)

/-- R124: `#NM` is raised exactly when `CR0.TS = 1` and the `#UD` checks pass, whatever the operand; with `CR0.EM = 1` form 1 is
`#UD`. -/
def Obligations.DeviceNotAvailableCondition : Prop :=
  ∀ (i : Instr) (s : State),
    (exec i s = .fault .deviceNotAvailable ↔ exec i s ≠ .fault .invalidOpcode ∧ s.cr0.getLsbD 3 = true)
    ∧ ((record s.mode i).form = .legacy128 → s.cr0.getLsbD 2 = true → exec i s = .fault .invalidOpcode)

/-- R44, R126 (a), D19: the legacy form's memory operand at a linear address that is not a multiple of 16 is `#GP(0)`; through a
segment whose base is not a multiple of 16 it is refused. Both hold before any other check of the operand (the order is the
spec's choice D10 and, for the refusal, the model's, log entry 21). -/
def Obligations.LegacyAlignmentIsEnforced : Prop :=
  ∀ (pfx : List Prefix) (reg : BitVec 3) (rm : RM) (s : State) (a : Addr),
    let i : Instr := .unpcklps pfx reg rm
    s.ready .legacy128 = true → (record s.mode i).src2 = .mem a false →
    (s.segmentBase a.seg % 16 = 0 → s.linear a.seg (effectiveAddress s i.len a) % 16 ≠ 0 →
      exec i s = .fault .generalProtection)
    ∧ (s.segmentBase a.seg % 16 ≠ 0 → exec i s = .refused .legacyBaseUnaligned)

/-- R48, R125, R126 (b): an operand that fails the segment or canonical check is `#SS(0)` through SS and `#GP(0)` through any
other segment; the legacy form's once it is aligned. That this fault is the one seen where `#AC` or `#PF` would apply too is the
order of R130, which is the spec's choice D10; that it comes before the refusal of an operand that passes the top of the address
space, and is made on wrapped addresses, is the model's choice (log entry 21). -/
def Obligations.SegmentViolationFaults : Prop :=
  ∀ (i : Instr) (s : State) (a : Addr) (bcst : Bool),
    let f := (record s.mode i).form
    let ea := effectiveAddress s i.len a
    s.ready f = true → zeroingFits i = true → (record s.mode i).src2 = .mem a bcst →
    (f = .legacy128 → s.segmentBase a.seg % 16 = 0 ∧ s.linear a.seg ea % 16 = 0) →
    s.segmentAllows a.seg ea (if f = .legacy128 then 16 else operandBytes f bcst) = false →
    exec i s = .fault (if a.seg = .ss then .stackSegment else .generalProtection)

/-- R29, R40, R48, R9: the linear address of an operand and what the segment check of it is. In 64-bit mode the address is
`ea` plus the base of FS or GS, and `ea` alone through ES, CS, SS and DS, modulo `2^64`; in 32-bit mode it is `ea` plus the base of the
segment, modulo `2^32`. The check in 64-bit mode: bits `63:LA-1` of every byte's linear address are all equal, with `LA` 57 or 48 as
`CR4.LA57` says; of an operand that wraps, the wrapped addresses are tested (log entry 21, the model's choice). In 32-bit mode:
present, readable, not null, every byte's offset within the limit; that a selector is null when its bits 15:2 are 0 and that
the limit is the highest offset (no expand-down segment) are PRESUMED (log entry 17). -/
def Obligations.SegmentCheckMeaning : Prop :=
  ∀ (s : State) (r : SegReg) (ea n : Nat),
    let seg : Segment := match r with
      | .es => s.es
      | .cs => s.cs
      | .ss => s.ss
      | .ds => s.ds
      | .fs => s.fs
      | .gs => s.gs
    (s.mode = .mode64 → s.segmentBase r = (if r = .fs ∨ r = .gs then seg.base.toNat else 0)
      ∧ s.linear r ea = ((if r = .fs ∨ r = .gs then seg.base.toNat else 0) + ea) % 2 ^ 64)
    ∧ (s.mode = .mode32 → s.segmentBase r = seg.base.toNat ∧ s.linear r ea = (seg.base.toNat + ea) % 2 ^ 32)
    ∧ (0 < n → s.mode = .mode64 → (s.segmentAllows r ea n = true ↔
      ∀ i, i < n → ∀ b, (if s.cr4.getLsbD 12 then 57 else 48) - 1 ≤ b → b < 64 →
        (BitVec.ofNat 64 (s.linear r ea + i)).getLsbD b = (BitVec.ofNat 64 (s.linear r ea + i)).getLsbD 63))
    ∧ (0 < n → s.mode = .mode32 → (s.segmentAllows r ea n = true ↔
      seg.present = true ∧ seg.readable = true ∧ seg.selector.toNat / 4 ≠ 0
        ∧ ∀ i, i < n → ea + i ≤ seg.limit.toNat))

/-- R127, R43, R130: where the earlier checks pass and some byte does not translate, the execution is a page fault with the
linear address and code of one of the operand's bytes that do not; the code's write and fetch bits are 0, its user bit is 1
exactly at `CPL = 3`. For the legacy form the byte is one of the low 8, which both draws read. So also while alignment checking is
active, of the legacy form and of an operand aligned to its size, which R129 gives no `#AC`. (The order of the checks is D10; that
every byte is translated before memory that is not ordinary is refused is log entry 21.) -/
def Obligations.PageFaultIsOfAnOperandByte : Prop :=
  ∀ (i : Instr) (s : State) (a : Addr) (bcst : Bool) (n : Nat) (c : PageFaultCode),
    let f := (record s.mode i).form
    let ea := effectiveAddress s i.len a
    let size := if f = .legacy128 then 16 else operandBytes f bcst
    s.ready f = true → zeroingFits i = true → (record s.mode i).src2 = .mem a bcst →
    (f = .legacy128 → s.segmentBase a.seg % 16 = 0 ∧ s.linear a.seg ea % 16 = 0) →
    s.segmentAllows a.seg ea size = true → s.linear a.seg ea + size ≤ 2 ^ s.linearWidth →
    (s.alignmentChecking = false ∨ f = .legacy128 ∨ s.linear a.seg ea % size = 0) →
    n < (if f = .legacy128 then 8 else size) → s.translate .read (s.linear a.seg ea + n) = .error c →
    ∃ n' c', n' < size ∧ s.translate .read (s.linear a.seg ea + n') = .error c'
      ∧ exec i s = .fault (.pageFault c' (BitVec.ofNat 64 (s.linear a.seg ea + n')))
      ∧ c'.write = false ∧ c'.fetch = false ∧ (c'.user = true ↔ s.cs.selector.toNat % 4 = 3)

/-- R57, R58, D18: where the earlier checks pass, every byte translates and some byte is not ordinary memory, the execution
is refused as device memory or as absent memory (log entry 24); the legacy form's for any of its 16 bytes, under either draw of
`LEGACY_FETCH`. So also while alignment checking is active, of the legacy form and of an operand aligned to its size (R129). -/
def Obligations.OperandOutsideOrdinaryMemoryIsRefused : Prop :=
  ∀ (i : Instr) (s : State) (a : Addr) (bcst : Bool) (n : Nat) (q : Refusal),
    let f := (record s.mode i).form
    let ea := effectiveAddress s i.len a
    let size := if f = .legacy128 then 16 else operandBytes f bcst
    s.ready f = true → zeroingFits i = true → (record s.mode i).src2 = .mem a bcst →
    (f = .legacy128 → s.segmentBase a.seg % 16 = 0 ∧ s.linear a.seg ea % 16 = 0) →
    s.segmentAllows a.seg ea size = true → s.linear a.seg ea + size ≤ 2 ^ s.linearWidth →
    (s.alignmentChecking = false ∨ f = .legacy128 ∨ s.linear a.seg ea % size = 0) →
    (∀ k, k < size → ∃ pa, s.translate .read (s.linear a.seg ea + k) = .ok pa) →
    n < size → s.windowAt (s.physical .read (s.linear a.seg ea + n)) = some q →
    exec i s = .refused .deviceMemory ∨ exec i s = .refused .absentMemory

/-- R43, D19: an operand of forms 2 to 6 that passes the segment check and the top of the address space is refused (that the
refusal comes right after the segment check is the model's choice, log entry 21). -/
def Obligations.WrappingOperandIsRefused : Prop :=
  ∀ (i : Instr) (s : State) (a : Addr) (bcst : Bool),
    let f := (record s.mode i).form
    let ea := effectiveAddress s i.len a
    s.ready f = true → zeroingFits i = true → f ≠ .legacy128 → (record s.mode i).src2 = .mem a bcst →
    s.segmentAllows a.seg ea (operandBytes f bcst) = true →
    2 ^ s.linearWidth < s.linear a.seg ea + operandBytes f bcst → exec i s = .refused .addressWrap

/-- R129: `#AC(0)` comes only of forms 2 to 6, only while alignment checking is active (`CR0.AM = 1`, `EFLAGS.AC = 1`,
`CPL = 3`), and only of a memory operand that is not aligned to its size. That the linear address is the one tested is the model's
choice (log entry 11, DESIGN CHOICE): R129 does not say which address. -/
def Obligations.AlignmentCheckOnlyWhereActive : Prop :=
  ∀ (i : Instr) (s : State),
    ((record s.mode i).form = .legacy128 ∨ s.cr0.getLsbD 18 = false ∨ s.rflags.getLsbD 18 = false
      ∨ s.cs.selector.toNat % 4 ≠ 3
      ∨ ∀ a bcst, (record s.mode i).src2 = .mem a bcst →
          s.linear a.seg (effectiveAddress s i.len a) % operandBytes (record s.mode i).form bcst = 0) →
    exec i s ≠ .fault .alignmentCheck

/-- R129, D13: while alignment checking is active, an operand of forms 2 to 6 that is not aligned to its size but can otherwise be
read gives `#AC(0)` where the execution's draw of `AC_UNALIGNED_FAULTS` says so, and otherwise the execution completes with the
form's own effect (R104 to R108). The draw is a free value, so both outcomes are admitted. The linear address is the one tested
(log entry 11). -/
def Obligations.MisalignedOperandFaultsOrCompletes : Prop :=
  ∀ (i : Instr) (s : State) (a : Addr) (bcst : Bool),
    let r := record s.mode i
    let ea := effectiveAddress s i.len a
    s.ready r.form = true → zeroingFits i = true → r.form ≠ .legacy128 → r.src2 = .mem a bcst →
    s.rangeReadable a.seg ea (operandBytes r.form bcst) = true →
    s.alignmentChecking = true → s.linear a.seg ea % operandBytes r.form bcst ≠ 0 →
    (Config.acUnalignedFaults s.draws = true → exec i s = .fault .alignmentCheck)
    ∧ (Config.acUnalignedFaults s.draws = false → ∃ t, exec i s = .next t
      ∧ (∀ j, j < r.form.vlen.elems → elem j (t.readZmm r.dest) =
          if r.aaa = 0 ∨ (s.readMask r.aaa).getLsbD j = true then s.unpackedElem r j
          else if r.z then 0 else elem j (s.readZmm r.dest))
      ∧ (∀ b, r.form.vlen.bits ≤ b → (t.readZmm r.dest).getLsbD b = false)
      ∧ pcAdvanced s t i.len ∧ onlyWrites s t r.dest)

/-- R122: the vector numbers, the error codes and the recorded value (the places of a page-fault code's bits are PRESUMED, log
entry 12, and not stated here). -/
def Obligations.FaultVectorsAndCodes : Prop :=
  Fault.vector .invalidOpcode = 6 ∧ Fault.errorCode .invalidOpcode = none
  ∧ Fault.vector .deviceNotAvailable = 7 ∧ Fault.errorCode .deviceNotAvailable = none
  ∧ Fault.vector .stackSegment = 12 ∧ Fault.errorCode .stackSegment = some 0
  ∧ Fault.vector .generalProtection = 13 ∧ Fault.errorCode .generalProtection = some 0
  ∧ (∀ c la, Fault.vector (.pageFault c la) = 14 ∧ Fault.errorCode (.pageFault c la) = some c.bits
      ∧ Fault.recorded (.pageFault c la) = some la)
  ∧ Fault.vector .alignmentCheck = 17 ∧ Fault.errorCode .alignmentCheck = some 0
  ∧ ∀ f, (Fault.recorded f).isSome = true → Fault.vector f = 14

/-! ## Operands and addresses -/

/-- R64 to R66, R69 to R73, R75, R76, R78, R84: which bits of the bytes make up the decoded record, for a register operand and for
every memory operand, `operand` being ModRM, SIB and displacement written out. The legacy form: `R`, `X` and `B` of a REX byte that
is the last in front (a REX byte elsewhere in front has no effect) before `reg`, `index` and `r/m` or `base`. C5, C4 and EVEX: the
stored bits `~R`, `~X`, `~B`, `~R'`, `~V'` and `~vvvv` complemented; under EVEX the mask, zeroing and broadcast fields as well. `L` and `L'L`
select the form. In 32-bit mode for neutral extension bits (R70). The length is that of all the bytes (R79). -/
def Obligations.RegisterNumbersAreAssembled : Prop :=
  ∀ (m : Mode) (pfx : List Prefix) (w r x b : Bool) (p p0 p1 p2 : Byte) (reg : BitVec 3) (o : RM) (rest : List Byte),
    let operand : List Byte := match o with
      | .reg q => [3#2 ++ reg ++ q]
      | .ind q => [0#2 ++ reg ++ q]
      | .disp32 d => (0#2 ++ reg ++ 5#3) :: disp32Bytes d
      | .ind8 q d => [1#2 ++ reg ++ q, d]
      | .ind32 q d => (2#2 ++ reg ++ q) :: disp32Bytes d
      | .sib sc i q => [0#2 ++ reg ++ 4#3, sc ++ i ++ q]
      | .sibDisp32 sc i d => (0#2 ++ reg ++ 4#3) :: (sc ++ i ++ 5#3) :: disp32Bytes d
      | .sib8 sc i q d => [1#2 ++ reg ++ 4#3, sc ++ i ++ q, d]
      | .sib32 sc i q d => (2#2 ++ reg ++ 4#3) :: (sc ++ i ++ q) :: disp32Bytes d
      | .ind16 q => [0#2 ++ reg ++ q]
      | .disp16 d => (0#2 ++ reg ++ 6#3) :: disp16Bytes d
      | .ind16d8 q d => [1#2 ++ reg ++ q, d]
      | .ind16d16 q d => (2#2 ++ reg ++ q) :: disp16Bytes d
    let stored (q : Byte) (n : Nat) : Nat := (!q.getLsbD n).toNat
    let fits (front : List Prefix) (mid : List Byte) : Prop := front.length + mid.length + operand.length ≤ 15
    let assembled (front : List Prefix) (mid : List Byte) (f : Form) (dest src1 : Nat) (x b bcst : Bool) (n : Nat)
        (aaa : BitVec 3) (z : Bool) : Prop :=
      ∃ i, decode m (front.map Prefix.byte ++ mid ++ operand ++ rest) = .ok i ∧ (record m i).form = f
        ∧ (record m i).dest.val = dest ∧ (record m i).src1.val = src1
        ∧ (record m i).src2.isNamed m front f.isEvex x b bcst n o ∧ (record m i).aaa = aaa ∧ (record m i).z = z
        ∧ (record m i).len = front.length + mid.length + operand.length
    m.admitted = true → o.fits (addrSize m pfx) = true →
    (pfx.all Prefix.okBeforeLegacy = true → m = .mode64 → fits (pfx ++ [.rex w r x b]) [0x0F#8, 0x14#8] →
      assembled (pfx ++ [.rex w r x b]) [0x0F#8, 0x14#8] .legacy128
        (8 * r.toNat + reg.toNat) (8 * r.toNat + reg.toNat) x b false 1 0 false)
    ∧ (pfx.all Prefix.okBeforeLegacy = true → (m = .mode32 → hasRex pfx = false) →
      (∀ w' r' x' b', pfx.getLast? ≠ some (.rex w' r' x' b')) → fits pfx [0x0F#8, 0x14#8] →
      assembled pfx [0x0F#8, 0x14#8] .legacy128 reg.toNat reg.toNat false false false 1 0 false)
    ∧ (pfx.all Prefix.okBeforeVex = true → p.extractLsb' 0 2 = 0#2 → (m = .mode32 → p.extractLsb' 6 2 = 3#2) →
      fits pfx [0xC5#8, p, 0x14#8] →
      assembled pfx [0xC5#8, p, 0x14#8] (if p.getLsbD 2 then .vex256 else .vex128)
        (8 * stored p 7 + reg.toNat) (15 - (p.extractLsb' 3 4).toNat) false false false 1 0 false)
    ∧ (pfx.all Prefix.okBeforeVex = true → p0.extractLsb' 0 5 = 1#5 → p1.extractLsb' 0 2 = 0#2 →
      (m = .mode32 → p0.extractLsb' 5 3 = 7#3 ∧ p1.getLsbD 6 = true) → fits pfx [0xC4#8, p0, p1, 0x14#8] →
      assembled pfx [0xC4#8, p0, p1, 0x14#8] (if p1.getLsbD 2 then .vex256 else .vex128)
        (8 * stored p0 7 + reg.toNat) (15 - (p1.extractLsb' 3 4).toNat) (!p0.getLsbD 6) (!p0.getLsbD 5) false 1 0 false)
    ∧ (pfx.all Prefix.okBeforeVex = true → p0.extractLsb' 0 4 = 1#4 → p1.extractLsb' 0 3 = 4#3 → p1.getLsbD 7 = false →
      p2.extractLsb' 5 2 ≠ 3#2 → (p2.getLsbD 7 = true → p2.extractLsb' 0 3 ≠ 0#3) → (p2.getLsbD 4 = true → o.isReg = false) →
      (m = .mode32 → p0.extractLsb' 4 4 = 15#4 ∧ p1.getLsbD 6 = true ∧ p2.getLsbD 3 = true ∧ pfx.contains .addrSize = false) →
      fits pfx [0x62#8, p0, p1, p2, 0x14#8] →
      assembled pfx [0x62#8, p0, p1, p2, 0x14#8]
        (if p2.extractLsb' 5 2 = 0#2 then .evex128 else if p2.extractLsb' 5 2 = 1#2 then .evex256 else .evex512)
        (16 * stored p0 4 + 8 * stored p0 7 + reg.toNat) (16 * stored p2 3 + (15 - (p1.extractLsb' 3 4).toNat))
        (!p0.getLsbD 6) (!p0.getLsbD 5) (p2.getLsbD 4)
        (if p2.getLsbD 4 then 4 else if p2.extractLsb' 5 2 = 0#2 then 16 else if p2.extractLsb' 5 2 = 1#2 then 32 else 64)
        (p2.extractLsb' 0 3) (p2.getLsbD 7))

/-- R72, R73, R74: the effective addresses with 64-bit address size, row by row, as sums modulo `2^64`. `n` is the factor of a
disp8. A base or index is the extension bit in front of its three bits; index 0100 is none. The operands of 16-bit addressing do
not fit. -/
def Obligations.EffectiveAddress64 : Prop :=
  ∀ (s : State) (pfx : List Prefix) (x b : Bool) (n len : Nat) (o : RM) (a : Addr),
    pfx.contains .addrSize = false → rmAddr .mode64 pfx x b n o = some a →
    let base (r : BitVec 3) : Word := s.readGpr (gprNum b r)
    let index (sc : BitVec 2) (r : BitVec 3) : Word :=
      if x = false ∧ r = 4#3 then 0 else s.readGpr (gprNum x r) <<< sc.toNat
    let disp8 (d : BitVec 8) : Word := d.signExtend 64 * BitVec.ofNat 64 n
    effectiveAddress s len a < 2 ^ 64 ∧
    (BitVec.ofNat 64 (effectiveAddress s len a) = match o with
      | .ind r => base r
      | .disp32 d => s.rip + BitVec.ofNat 64 len + d.signExtend 64
      | .ind8 r d => base r + disp8 d
      | .ind32 r d => base r + d.signExtend 64
      | .sib sc i r => base r + index sc i
      | .sibDisp32 sc i d => index sc i + d.signExtend 64
      | .sib8 sc i r d => base r + index sc i + disp8 d
      | .sib32 sc i r d => base r + index sc i + d.signExtend 64
      | _ => BitVec.ofNat 64 (effectiveAddress s len a))
    ∧ (o.fits (addrSize .mode64 pfx) = true → match o with
      | .ind16 _ => False
      | .disp16 _ => False
      | .ind16d8 _ _ => False
      | .ind16d16 _ _ => False
      | _ => True)

/-- R72, R73: in 32-bit mode without 67, and in 64-bit mode with 67, the operands of 16-bit addressing do not fit, and the sum is taken modulo `2^32` from the low 32 bits of
the registers; `r/m = 101` with `mod = 00` is disp32 alone in 32-bit mode and relative to the next instruction in 64-bit mode. -/
def Obligations.EffectiveAddress32 : Prop :=
  ∀ (m : Mode) (s : State) (pfx : List Prefix) (x b : Bool) (n len : Nat) (o : RM) (a : Addr),
    (m = .mode32 ∧ Prefix.addrSize ∉ pfx) ∨ (m = .mode64 ∧ Prefix.addrSize ∈ pfx) → rmAddr m pfx x b n o = some a →
    let base (r : BitVec 3) : BitVec 32 := (s.readGpr (gprNum b r)).setWidth 32
    let index (sc : BitVec 2) (r : BitVec 3) : BitVec 32 :=
      if x = false ∧ r = 4#3 then 0 else (s.readGpr (gprNum x r)).setWidth 32 <<< sc.toNat
    let disp8 (d : BitVec 8) : BitVec 32 := d.signExtend 32 * BitVec.ofNat 32 n
    effectiveAddress s len a < 2 ^ 32 ∧
    (BitVec.ofNat 32 (effectiveAddress s len a) = match o with
      | .ind r => base r
      | .disp32 d => if m = .mode64 then s.rip.setWidth 32 + BitVec.ofNat 32 len + d else d
      | .ind8 r d => base r + disp8 d
      | .ind32 r d => base r + d
      | .sib sc i r => base r + index sc i
      | .sibDisp32 sc i d => index sc i + d
      | .sib8 sc i r d => base r + index sc i + disp8 d
      | .sib32 sc i r d => base r + index sc i + d
      | _ => BitVec.ofNat 32 (effectiveAddress s len a))
    ∧ (o.fits (addrSize m pfx) = true → match o with
      | .ind16 _ => False
      | .disp16 _ => False
      | .ind16d8 _ _ => False
      | .ind16d16 _ _ => False
      | _ => True)

/-- R84: in 32-bit mode with 67 the memory operands that fit are those of 16-bit addressing; their effective addresses, with the
register pairs written out, modulo `2^16`. -/
def Obligations.EffectiveAddress16 : Prop :=
  ∀ (s : State) (pfx : List Prefix) (x b : Bool) (len : Nat) (o : RM) (a : Addr),
    pfx.contains .addrSize = true → rmAddr .mode32 pfx x b 1 o = some a →
    let reg (n : Fin 16) : BitVec 16 := (s.readGpr n).setWidth 16
    let pair (r : BitVec 3) : BitVec 16 :=
      if r = 0#3 then reg 3 + reg 6 else if r = 1#3 then reg 3 + reg 7 else if r = 2#3 then reg 5 + reg 6
      else if r = 3#3 then reg 5 + reg 7 else if r = 4#3 then reg 6 else if r = 5#3 then reg 7
      else if r = 6#3 then reg 5 else reg 3
    effectiveAddress s len a < 2 ^ 16 ∧
    (BitVec.ofNat 16 (effectiveAddress s len a) = match o with
      | .ind16 r => pair r
      | .disp16 d => d
      | .ind16d8 r d => pair r + d.signExtend 16
      | .ind16d16 r d => pair r + d
      | _ => BitVec.ofNat 16 (effectiveAddress s len a))
    ∧ (o.fits (addrSize .mode32 pfx) = true → match o with
      | .ind16 _ => True
      | .disp16 _ => True
      | .ind16d8 _ _ => True
      | .ind16d16 _ _ => True
      | _ => False)

/-- R74: under EVEX a disp8 is multiplied by 16, 32 or 64 for the three lengths, or by 4 with broadcast; in the other forms it is
not scaled, and a disp32 never is. -/
def Obligations.Disp8IsScaledUnderEvexOnly : Prop :=
  ∀ (m : Mode) (pfx : List Prefix) (w x b z bcst : Bool) (reg rm index base aaa : BitVec 3) (scale : BitVec 2)
    (d4 v4 : BitVec 4) (d5 v5 : BitVec 5) (d : BitVec 8) (d32 : BitVec 32) (o o32 : RM),
    o = .ind8 rm d ∨ o = .sib8 scale index base d →
    o32 = .ind32 rm d32 ∨ o32 = .sib32 scale index base d32 ∨ o32 = .sibDisp32 scale index d32 ∨ o32 = .disp32 d32 →
    let disp (i : Instr) (v : Int) : Prop := ∃ a q, (record m i).src2 = .mem a q ∧ a.disp = v
    disp (.unpcklps pfx reg o) d.toInt ∧ disp (.unpcklps pfx reg o32) d32.toInt
    ∧ disp (.vunpcklpsVex128C5 pfx d4 v4 o) d.toInt ∧ disp (.vunpcklpsVex128C5 pfx d4 v4 o32) d32.toInt
    ∧ disp (.vunpcklpsVex128C4 pfx w x b d4 v4 o) d.toInt ∧ disp (.vunpcklpsVex128C4 pfx w x b d4 v4 o32) d32.toInt
    ∧ disp (.vunpcklpsVex256C5 pfx d4 v4 o) d.toInt ∧ disp (.vunpcklpsVex256C5 pfx d4 v4 o32) d32.toInt
    ∧ disp (.vunpcklpsVex256C4 pfx w x b d4 v4 o) d.toInt ∧ disp (.vunpcklpsVex256C4 pfx w x b d4 v4 o32) d32.toInt
    ∧ disp (.vunpcklpsEvex128 pfx x b d5 v5 aaa z bcst o) (d.toInt * if bcst then 4 else 16)
    ∧ disp (.vunpcklpsEvex128 pfx x b d5 v5 aaa z bcst o32) d32.toInt
    ∧ disp (.vunpcklpsEvex256 pfx x b d5 v5 aaa z bcst o) (d.toInt * if bcst then 4 else 32)
    ∧ disp (.vunpcklpsEvex256 pfx x b d5 v5 aaa z bcst o32) d32.toInt
    ∧ disp (.vunpcklpsEvex512 pfx x b d5 v5 aaa z bcst o) (d.toInt * if bcst then 4 else 64)
    ∧ disp (.vunpcklpsEvex512 pfx x b d5 v5 aaa z bcst o32) d32.toInt

/-- R77: the default segment, by the tests of that rule. SS with `mod` not 00, `r/m = 101` and `B = 0`; with an SIB byte whose
`B:base` is 0100, or 0101 with `mod` not 00; and in 16-bit addressing with the `r/m` values that use BP. Else DS. -/
def Obligations.DefaultSegment : Prop :=
  ∀ (m : Mode) (pfx : List Prefix) (x b : Bool) (n : Nat) (o : RM) (a : Addr), o.fits (addrSize m pfx) = true →
    (∀ r, Prefix.seg r ∉ pfx) → rmAddr m pfx x b n o = some a →
    (a.seg = .ss ∨ a.seg = .ds) ∧ (a.seg = .ss ↔ match o with
      | .ind8 r _ => b = false ∧ r = 5#3
      | .ind32 r _ => b = false ∧ r = 5#3
      | .sib _ _ r => b = false ∧ r = 4#3
      | .sib8 _ _ r _ => b = false ∧ (r = 4#3 ∨ r = 5#3)
      | .sib32 _ _ r _ => b = false ∧ (r = 4#3 ∨ r = 5#3)
      | .ind16 r => r = 2#3 ∨ r = 3#3
      | .ind16d8 r _ => r = 2#3 ∨ r = 3#3 ∨ r = 6#3
      | .ind16d16 r _ => r = 2#3 ∨ r = 3#3 ∨ r = 6#3
      | _ => False)

/-- R63, R77: the last segment override replaces the default; in 64-bit mode only FS and GS overrides have an effect (that an
ignored override after one of them leaves it in effect is the model's reading, log entry 18). -/
def Obligations.SegmentOverrides : Prop :=
  ∀ (front back : List Prefix) (r : SegReg) (x b : Bool) (n : Nat) (o : RM) (a : Addr),
    ((∀ q, Prefix.seg q ∉ back) → rmAddr .mode32 (front ++ .seg r :: back) x b n o = some a → a.seg = r)
    ∧ ((∀ q, Prefix.seg q ∈ back → q ≠ .fs ∧ q ≠ .gs) → r = .fs ∨ r = .gs →
        rmAddr .mode64 (front ++ .seg r :: back) x b n o = some a → a.seg = r)
    ∧ (r ≠ .fs → r ≠ .gs → rmAddr .mode64 (front ++ .seg r :: back) x b n o = some a →
        ∃ a', rmAddr .mode64 (front ++ back) x b n o = some a' ∧ a.seg = a'.seg)

/-- R41: byte `k` of a value read is the byte at `la + k`, lowest address least significant, and there is nothing above. -/
def Obligations.MemoryOperandIsLittleEndian : Prop :=
  ∀ (s : State) (r : SegReg) (ea n : Nat) (v : Vec), n ≤ 64 → s.memRead r ea n = .ok v →
    (∀ k, k < n → v.extractLsb' (8 * k) 8 = s.byteAt (s.linear r ea + k)) ∧ ∀ b, 8 * n ≤ b → v.getLsbD b = false

/-! ## Reset -/

/-- R151: the reset values that rule lists (general knowledge, which no other rule uses). -/
def Obligations.ResetValuesAsListed : Prop :=
  State.reset.mode = .real ∧ State.reset.rip = 0xFFF0 ∧ State.reset.cs.base = 0xFFFF0000
  ∧ State.reset.rflags = 0x2 ∧ State.reset.cr0 = 0x60000010 ∧ State.reset.cr2 = 0 ∧ State.reset.cr3 = 0
  ∧ State.reset.cr4 = 0 ∧ State.reset.xcr0 = 1 ∧ State.reset.mxcsr = 0x1F80
  ∧ (∀ n : Fin 16, n ≠ 2 → State.reset.readGpr n = 0) ∧ (∀ i : Fin 32, State.reset.readZmm i = 0)
  ∧ ∀ a : BitVec 3, State.reset.readMask a = 0

/-- R151: at reset none of the forms can execute: form 1 is `#UD` because `CR4.OSFXSR = 0`, forms 2 to 6 are `#UD` in real-address
mode. -/
def Obligations.NoFormExecutesAtReset : Prop :=
  (∀ i : Instr, exec i State.reset = .fault .invalidOpcode)
  ∧ State.reset.cr4.getLsbD 9 = false ∧ State.reset.mode = .real
end

