-- ==== Sys2Proof/Laws/Decode.lean ====
section
/-! SUPPORT. The decoder and the encoder, part by part: each field that is put into a byte comes out of it again, and what a
parse that succeeds says of the bytes. -/

namespace Sys2Proof

/-! ## The bytes in front -/

/-- The byte of a `Prefix` is read as that `Prefix`; a REX byte in 64-bit mode only. -/
theorem decodePrefix_byte (m : Mode) (p : Prefix) (h : m = .mode64 ∨ hasRex [p] = false) :
    decodePrefix m p.byte = some p := by
  cases p with
  | seg r => cases r <;> rfl
  | rex w r x b =>
    rcases h with h | h
    · subst h; revert w r x b; decide
    · simp [hasRex] at h
  | addrSize => rfl
  | opSize => rfl
  | repne => rfl
  | rep => rfl
  | lock => rfl

/-- A byte that is read as a `Prefix` is the byte of that `Prefix`. -/
theorem byte_decodePrefix (m : Mode) (b : Byte) (p : Prefix) (h : decodePrefix m b = some p) :
    p.byte = b ∧ (m = .mode64 ∨ hasRex [p] = false) := by
  by_cases hm : m = .mode64
  · subst hm
    revert h p b
    decide
  · have hr : decodePrefix m b = decodePrefix .mode32 b := by simp [decodePrefix, hm]
    rw [hr] at h
    clear hr
    revert h p b
    simp only [hm, false_or]
    decide

/-- A run of such bytes is split off whole, up to the first byte that is none. -/
theorem splitFront_map (m : Mode) (pfx : List Prefix) (rest : List Byte) (hp : m = .mode64 ∨ hasRex pfx = false)
    (hrest : ∀ b bs, rest = b :: bs → decodePrefix m b = none) :
    splitFront m (pfx.map Prefix.byte ++ rest) = (pfx, rest) := by
  induction pfx with
  | nil =>
    cases rest with
    | nil => rfl
    | cons b bs => simp [splitFront, hrest b bs rfl]
  | cons p pfx ih =>
    have hp1 : m = .mode64 ∨ hasRex [p] = false := hp.imp_right fun h => by
      simp only [hasRex, List.any_cons, Bool.or_eq_false_iff] at h ⊢
      exact ⟨h.1, rfl⟩
    have hp2 : m = .mode64 ∨ hasRex pfx = false := hp.imp_right fun h => by
      simp only [hasRex, List.any_cons, Bool.or_eq_false_iff] at h ⊢
      exact h.2
    simp only [List.map_cons, List.cons_append, splitFront, decodePrefix_byte m p hp1, ih hp2]

/-- What is split off is the bytes, and it has REX bytes in 64-bit mode only. -/
theorem splitFront_append (m : Mode) (bs : List Byte) :
    (splitFront m bs).1.map Prefix.byte ++ (splitFront m bs).2 = bs ∧ (m = .mode64 ∨ hasRex (splitFront m bs).1 = false) := by
  induction bs with
  | nil => exact ⟨rfl, .inr rfl⟩
  | cons b bs ih =>
    unfold splitFront
    split
    · next p hp =>
      obtain ⟨hb, hr⟩ := byte_decodePrefix m b p hp
      refine ⟨by simp [hb, ih.1], ?_⟩
      rcases hr with hr | hr
      · exact .inl hr
      · refine ih.2.imp_right fun h => ?_
        simp only [hasRex, List.any_cons, Bool.or_eq_false_iff] at hr h ⊢
        exact ⟨hr.1, h⟩
    · exact ⟨rfl, .inr rfl⟩

/-- What follows the run does not begin with such a byte. -/
theorem splitFront_snd_head (m : Mode) (bs : List Byte) (b : Byte) (r : List Byte) (h : (splitFront m bs).2 = b :: r) :
    decodePrefix m b = none := by
  induction bs with
  | nil => simp [splitFront] at h
  | cons c cs ih =>
    unfold splitFront at h
    split at h
    · exact ih h
    · next hn =>
      simp only [List.cons.injEq] at h
      rw [← h.1]; exact hn

/-! ## Displacements and ModRM -/

theorem takeDisp32_bytes (d : BitVec 32) (rest : List Byte) : takeDisp32 (disp32Bytes d ++ rest) = some d := by
  simp only [disp32Bytes, List.cons_append, takeDisp32, Option.some.injEq]
  apply BitVec.eq_of_getLsbD_eq
  intro i hi
  simp only [BitVec.getLsbD_append, BitVec.getLsbD_extractLsb']
  by_cases h1 : i < 8
  · simp [h1]
  · by_cases h2 : i - 8 < 8
    · have : 8 + (i - 8) = i := by omega
      simp [h1, h2, this]
    · by_cases h3 : i - 8 - 8 < 8
      · have : 16 + (i - 8 - 8) = i := by omega
        simp [h1, h2, h3, this]
      · have h4 : i - 8 - 8 - 8 < 8 := by omega
        have : 24 + (i - 8 - 8 - 8) = i := by omega
        simp [h1, h2, h3, h4, this]

theorem takeDisp16_bytes (d : BitVec 16) (rest : List Byte) : takeDisp16 (disp16Bytes d ++ rest) = some d := by
  simp only [disp16Bytes, List.cons_append, takeDisp16, Option.some.injEq]
  apply BitVec.eq_of_getLsbD_eq
  intro i hi
  simp only [BitVec.getLsbD_append, BitVec.getLsbD_extractLsb']
  by_cases h1 : i < 8
  · simp [h1]
  · have h2 : i - 8 < 8 := by omega
    have : 8 + (i - 8) = i := by omega
    simp [h1, h2, this]

theorem takeDisp32_some (bs : List Byte) (d : BitVec 32) (h : takeDisp32 bs = some d) :
    ∃ rest, bs = disp32Bytes d ++ rest := by
  unfold takeDisp32 at h
  split at h
  · next b0 b1 b2 b3 rest =>
    simp only [Option.some.injEq] at h
    refine ⟨rest, ?_⟩
    subst h
    simp only [disp32Bytes, List.cons_append, List.nil_append, List.cons.injEq, and_true]
    refine ⟨?_, ?_, ?_, ?_⟩ <;> apply BitVec.eq_of_getLsbD_eq <;> intro i hi <;>
      simp only [BitVec.getLsbD_append, BitVec.getLsbD_extractLsb', hi, decide_true, Bool.true_and, Nat.zero_add]
    · simp
    · have h1 : ¬ 8 + i < 8 := by omega
      have h2 : 8 + i - 8 = i := by omega
      simp [h1, h2, hi]
    · have h1 : ¬ 16 + i < 8 := by omega
      have h2 : ¬ 16 + i - 8 < 8 := by omega
      have h3 : 16 + i - 8 - 8 = i := by omega
      simp [h1, h2, h3, hi]
    · have h1 : ¬ 24 + i < 8 := by omega
      have h2 : ¬ 24 + i - 8 < 8 := by omega
      have h3 : ¬ 24 + i - 8 - 8 < 8 := by omega
      have h4 : 24 + i - 8 - 8 - 8 = i := by omega
      simp [h1, h2, h3, h4]
  · cases h

theorem takeDisp16_some (bs : List Byte) (d : BitVec 16) (h : takeDisp16 bs = some d) :
    ∃ rest, bs = disp16Bytes d ++ rest := by
  unfold takeDisp16 at h
  split at h
  · next b0 b1 rest =>
    simp only [Option.some.injEq] at h
    refine ⟨rest, ?_⟩
    subst h
    simp only [disp16Bytes, List.cons_append, List.nil_append, List.cons.injEq, and_true]
    refine ⟨?_, ?_⟩ <;> apply BitVec.eq_of_getLsbD_eq <;> intro i hi <;>
      simp only [BitVec.getLsbD_append, BitVec.getLsbD_extractLsb', hi, decide_true, Bool.true_and, Nat.zero_add]
    · simp
    · have h1 : ¬ 8 + i < 8 := by omega
      have h2 : 8 + i - 8 = i := by omega
      simp [h1, h2]
  · cases h

/-- The three fields of a ModRM byte, or of an SIB byte. -/
theorem byte_fields (a : BitVec 2) (b c : BitVec 3) :
    (a ++ b ++ c : BitVec 8).extractLsb' 6 2 = a ∧ (a ++ b ++ c : BitVec 8).extractLsb' 3 3 = b
      ∧ (a ++ b ++ c : BitVec 8).extractLsb' 0 3 = c := by
  revert a b c; decide

/-- A byte is its three fields. -/
theorem byte_of_fields (x : BitVec 8) : (x.extractLsb' 6 2 ++ x.extractLsb' 3 3 ++ x.extractLsb' 0 3 : BitVec 8) = x := by
  revert x; decide

/-- The operand bytes of an instruction are parsed as what they encode. -/
theorem parseModRM_modrmBytes (a : ASize) (reg : BitVec 3) (rm : RM) (rest : List Byte) (h : rm.fits a = true) :
    parseModRM a (modrmBytes reg rm ++ rest) = some (reg, rm) := by
  cases rm <;>
    simp_all [RM.fits, modrmBytes, parseModRM, parseMem, parseMem16, byte_fields, takeDisp32_bytes, takeDisp16_bytes]

theorem head?_some (bs : List Byte) (b : Byte) (h : bs.head? = some b) : ∃ rest, bs = b :: rest := by
  cases bs with
  | nil => simp at h
  | cons c cs => exact ⟨cs, by simpa using h⟩

theorem mod_cases (md : BitVec 2) (h : md ≠ 3#2) : md = 0#2 ∨ md = 1#2 ∨ md = 2#2 := by revert md; decide

/-- What `parseMem` gives is what its bytes encode. -/
theorem parseMem_some (a : ASize) (ha : a ≠ .a16) (md : BitVec 2) (hmd : md ≠ 3#2) (reg rm : BitVec 3) (bs : List Byte) (o : RM)
    (h : parseMem md rm bs = some o) : o.fits a = true ∧ ∃ rest, (md ++ reg ++ rm : Byte) :: bs = modrmBytes reg o ++ rest := by
  have h4 := mod_cases md hmd
  unfold parseMem at h
  split at h
  · next hrm =>
    subst hrm
    split at h
    · cases h
    · next s rest =>
      have hs := byte_of_fields s
      rcases h4 with rfl | rfl | rfl
      · simp only [if_true] at h
        split at h
        · next hb =>
          obtain ⟨d, hd, rfl⟩ := Option.map_eq_some_iff.mp h
          obtain ⟨r, rfl⟩ := takeDisp32_some _ _ hd
          rw [hb] at hs
          exact ⟨by simp [RM.fits, ha], r, by simp [modrmBytes, hs]⟩
        · next hb =>
          simp only [Option.some.injEq] at h
          subst h
          exact ⟨by simp [RM.fits, ha, hb], rest, by simp [modrmBytes, hs]⟩
      · obtain ⟨d, hd, rfl⟩ := Option.map_eq_some_iff.mp h
        obtain ⟨r, rfl⟩ := head?_some _ _ hd
        exact ⟨by simp [RM.fits, ha], r, by simp [modrmBytes, hs]⟩
      · obtain ⟨d, hd, rfl⟩ := Option.map_eq_some_iff.mp h
        obtain ⟨r, rfl⟩ := takeDisp32_some _ _ hd
        exact ⟨by simp [RM.fits, ha], r, by simp [modrmBytes, hs]⟩
  · next hrm =>
    rcases h4 with rfl | rfl | rfl
    · simp only [if_true] at h
      split at h
      · next hb =>
        obtain ⟨d, hd, rfl⟩ := Option.map_eq_some_iff.mp h
        obtain ⟨r, rfl⟩ := takeDisp32_some _ _ hd
        exact ⟨by simp [RM.fits, ha], r, by simp [modrmBytes, hb]⟩
      · next hb =>
        simp only [Option.some.injEq] at h
        subst h
        exact ⟨by simp [RM.fits, ha, hb, hrm], bs, by simp [modrmBytes]⟩
    · obtain ⟨d, hd, rfl⟩ := Option.map_eq_some_iff.mp h
      obtain ⟨r, rfl⟩ := head?_some _ _ hd
      exact ⟨by simp [RM.fits, ha, hrm], r, by simp [modrmBytes]⟩
    · obtain ⟨d, hd, rfl⟩ := Option.map_eq_some_iff.mp h
      obtain ⟨r, rfl⟩ := takeDisp32_some _ _ hd
      exact ⟨by simp [RM.fits, ha, hrm], r, by simp [modrmBytes]⟩

/-- What `parseMem16` gives is what its bytes encode. -/
theorem parseMem16_some (md : BitVec 2) (hmd : md ≠ 3#2) (reg rm : BitVec 3) (bs : List Byte) (o : RM)
    (h : parseMem16 md rm bs = some o) :
    o.fits .a16 = true ∧ ∃ rest, (md ++ reg ++ rm : Byte) :: bs = modrmBytes reg o ++ rest := by
  have h4 := mod_cases md hmd
  unfold parseMem16 at h
  rcases h4 with rfl | rfl | rfl
  · simp only [if_true] at h
    split at h
    · next hb =>
      obtain ⟨d, hd, rfl⟩ := Option.map_eq_some_iff.mp h
      obtain ⟨r, rfl⟩ := takeDisp16_some _ _ hd
      exact ⟨rfl, r, by simp [modrmBytes, hb]⟩
    · next hb =>
      simp only [Option.some.injEq] at h
      subst h
      exact ⟨by simp [RM.fits, hb], bs, by simp [modrmBytes]⟩
  · obtain ⟨d, hd, rfl⟩ := Option.map_eq_some_iff.mp h
    obtain ⟨r, rfl⟩ := head?_some _ _ hd
    exact ⟨rfl, r, by simp [modrmBytes]⟩
  · obtain ⟨d, hd, rfl⟩ := Option.map_eq_some_iff.mp h
    obtain ⟨r, rfl⟩ := takeDisp16_some _ _ hd
    exact ⟨rfl, r, by simp [modrmBytes]⟩

/-- Operand bytes that are parsed are the encoding of what they are parsed as. -/
theorem modrmBytes_parseModRM (a : ASize) (bs : List Byte) (reg : BitVec 3) (rm : RM) (h : parseModRM a bs = some (reg, rm)) :
    rm.fits a = true ∧ ∃ rest, bs = modrmBytes reg rm ++ rest := by
  cases bs with
  | nil => simp [parseModRM] at h
  | cons b bs =>
    have hb := byte_of_fields b
    simp only [parseModRM] at h
    split at h
    · next hmd =>
      simp only [Option.some.injEq, Prod.mk.injEq] at h
      obtain ⟨rfl, rfl⟩ := h
      rw [hmd] at hb
      exact ⟨rfl, bs, by simp [modrmBytes, hb]⟩
    · next hmd =>
      split at h
      · next ha =>
        obtain ⟨o, ho, he⟩ := Option.map_eq_some_iff.mp h
        simp only [Prod.mk.injEq] at he
        obtain ⟨rfl, rfl⟩ := he
        have := parseMem16_some _ hmd (b.extractLsb' 3 3) _ _ _ ho
        rw [hb] at this
        rw [ha]; exact this
      · next ha =>
        obtain ⟨o, ho, he⟩ := Option.map_eq_some_iff.mp h
        simp only [Prod.mk.injEq] at he
        obtain ⟨rfl, rfl⟩ := he
        have := parseMem_some a ha _ hmd (b.extractLsb' 3 3) _ _ _ ho
        rw [hb] at this
        exact this

/-- ModRM, SIB and displacement have the length R79 counts. -/
theorem modrmBytes_length (reg : BitVec 3) (rm : RM) : (modrmBytes reg rm).length = rm.len := by
  cases rm <;> simp [modrmBytes, RM.len, disp32Bytes, disp16Bytes]

end Sys2Proof
end

