-- ==== Sys2Proof/Laws/Interleave.lean ====
section
/-! SUPPORT. What a vector put together from elements or lanes holds, bit by bit, and what truncation and the register width
leave of it. -/

namespace Sys2Proof.Machine

theorem getLsbD_elem (j i : Nat) (v : Vec) : (elem j v).getLsbD i = (decide (i < 32) && v.getLsbD (32 * j + i)) := by
  simp [elem, BitVec.getLsbD_extractLsb']

theorem getLsbD_lane (n i : Nat) (v : Vec) : (lane n v).getLsbD i = (decide (i < 128) && v.getLsbD (128 * n + i)) := by
  simp [lane, BitVec.getLsbD_extractLsb']

/-- Bit `i` of a vector of `n` elements is bit `i mod 32` of element `i div 32`. -/
theorem getLsbD_ofElems (f : Nat → Elem) (n i : Nat) (hn : n ≤ 16) :
    (ofElems f n).getLsbD i = (decide (i < 32 * n) && (f (i / 32)).getLsbD (i % 32)) := by
  induction n with
  | zero => simp [ofElems]
  | succ n ih =>
    simp only [ofElems, BitVec.getLsbD_or, ih (by omega), BitVec.getLsbD_shiftLeft, BitVec.getLsbD_setWidth]
    rcases Nat.lt_or_ge i (32 * n) with h | h
    · have h1 : i < 32 * (n + 1) := by omega
      simp [h, h1]
    · rcases Nat.lt_or_ge i (32 * (n + 1)) with h1 | h1
      · have hd : i / 32 = n := by omega
        have hm : i % 32 = i - 32 * n := by omega
        have h5 : i < 512 := by omega
        have h6 : i - 32 * n < 512 := by omega
        simp [Nat.not_lt.mpr h, h1, h5, h6, hd, hm]
      · have : ¬ i < 32 * n := by omega
        have h2 : ¬ i < 32 * (n + 1) := by omega
        have h3 : ¬ i - 32 * n < 32 := by omega
        simp only [this, h2, decide_false, Bool.false_and, Bool.false_or]
        rw [BitVec.getLsbD_of_ge (f n) (i - 32 * n) (by omega)]
        simp

/-- Element `j` of a vector of `n` elements. -/
theorem elem_ofElems (f : Nat → Elem) (n j : Nat) (hn : n ≤ 16) : elem j (ofElems f n) = if j < n then f j else 0#32 := by
  apply BitVec.eq_of_getLsbD_eq
  intro i hi
  rw [getLsbD_elem, getLsbD_ofElems f n _ hn]
  have hd : (32 * j + i) / 32 = j := by omega
  have hm : (32 * j + i) % 32 = i := by omega
  by_cases h : j < n
  · have : 32 * j + i < 32 * n := by omega
    simp [h, hi, hd, hm, this]
  · have : ¬ 32 * j + i < 32 * n := by omega
    simp [h, this]

/-- Bit `i` of a vector of `n` lanes is bit `i mod 128` of lane `i div 128`. -/
theorem getLsbD_ofLanes (f : Nat → BitVec 128) (n i : Nat) (hn : n ≤ 4) :
    (ofLanes f n).getLsbD i = (decide (i < 128 * n) && (f (i / 128)).getLsbD (i % 128)) := by
  induction n with
  | zero => simp [ofLanes]
  | succ n ih =>
    simp only [ofLanes, BitVec.getLsbD_or, ih (by omega), BitVec.getLsbD_shiftLeft, BitVec.getLsbD_setWidth]
    rcases Nat.lt_or_ge i (128 * n) with h | h
    · have h1 : i < 128 * (n + 1) := by omega
      simp [h, h1]
    · rcases Nat.lt_or_ge i (128 * (n + 1)) with h1 | h1
      · have hd : i / 128 = n := by omega
        have hm : i % 128 = i - 128 * n := by omega
        have h5 : i < 512 := by omega
        have h6 : i - 128 * n < 512 := by omega
        simp [Nat.not_lt.mpr h, h1, h5, h6, hd, hm]
      · have : ¬ i < 128 * n := by omega
        have h2 : ¬ i < 128 * (n + 1) := by omega
        simp only [this, h2, decide_false, Bool.false_and, Bool.false_or]
        rw [BitVec.getLsbD_of_ge (f n) (i - 128 * n) (by omega)]
        simp

/-- Lane `n` of a vector of `k` lanes. -/
theorem lane_ofLanes (f : Nat → BitVec 128) (k n : Nat) (hk : k ≤ 4) : lane n (ofLanes f k) = if n < k then f n else 0#128 := by
  apply BitVec.eq_of_getLsbD_eq
  intro i hi
  rw [getLsbD_lane, getLsbD_ofLanes f k _ hk]
  have hd : (128 * n + i) / 128 = n := by omega
  have hm : (128 * n + i) % 128 = i := by omega
  by_cases h : n < k
  · have : 128 * n + i < 128 * k := by omega
    simp [h, hi, hd, hm, this]
  · have : ¬ 128 * n + i < 128 * k := by omega
    simp [h, this]

/-- Two vectors with the same sixteen elements are equal. -/
theorem vec_ext_elem (a b : Vec) (h : ∀ j, j < 16 → elem j a = elem j b) : a = b := by
  apply BitVec.eq_of_getLsbD_eq
  intro i hi
  have hj := congrArg (fun e => BitVec.getLsbD e (i % 32)) (h (i / 32) (by omega))
  simp only [getLsbD_elem] at hj
  have hm : i % 32 < 32 := Nat.mod_lt _ (by decide)
  have hs : 32 * (i / 32) + i % 32 = i := Nat.div_add_mod i 32
  simpa [hm, hs] using hj

theorem elem_zero_of_ge (j : Nat) (v : Vec) (hj : 16 ≤ j) : elem j v = 0#32 := by
  apply BitVec.eq_of_getLsbD_eq
  intro i _
  rw [getLsbD_elem, BitVec.getLsbD_of_ge v _ (by omega)]
  simp

/-- Truncation keeps bits `VL-1:0`. -/
theorem getLsbD_truncate (v : VLen) (x : Vec) (i : Nat) : (truncate v x).getLsbD i = (decide (i < v.bits) && x.getLsbD i) := by
  cases v
  · simp only [truncate, BitVec.getLsbD_setWidth, BitVec.getLsbD_extractLsb', VLen.bits]
    rcases Nat.lt_or_ge i 128 with h | h
    · have : i < 512 := by omega
      simp [h, this]
    · simp [Nat.not_lt.mpr h]
  · simp only [truncate, BitVec.getLsbD_setWidth, BitVec.getLsbD_extractLsb', VLen.bits]
    rcases Nat.lt_or_ge i 256 with h | h
    · have : i < 512 := by omega
      simp [h, this]
    · simp [Nat.not_lt.mpr h]
  · simp only [truncate, VLen.bits]
    rcases Nat.lt_or_ge i 512 with h | h
    · simp [h]
    · rw [BitVec.getLsbD_of_ge x i h]
      simp

/-- The elements below `KL` survive truncation. -/
theorem elem_truncate (v : VLen) (x : Vec) (j : Nat) (hj : j < v.elems) : elem j (truncate v x) = elem j x := by
  apply BitVec.eq_of_getLsbD_eq
  intro i hi
  have : 32 * j + i < v.bits := by
    cases v <;> simp only [VLen.elems, VLen.bits] at hj ⊢ <;> omega
  rw [getLsbD_elem, getLsbD_elem, getLsbD_truncate]
  simp [this]

theorem vlen_bits_le (v : VLen) : v.bits ≤ 512 := by cases v <;> decide

/-- The processor's register width as a mask. -/
theorem getLsbD_registerOnes (v : VLen) (i : Nat) : (registerOnes v).getLsbD i = decide (i < v.bits) := by
  simp only [registerOnes, BitVec.getLsbD_ofNat, Nat.testBit_two_pow_sub_one]
  have := vlen_bits_le v
  by_cases h : i < v.bits
  · have : i < 512 := by omega
    simp [h, this]
  · simp [h]

theorem elem_and_ones (m : VLen) (v : Vec) (j : Nat) (h : 32 * j + 32 ≤ m.bits) : elem j (v &&& registerOnes m) = elem j v := by
  apply BitVec.eq_of_getLsbD_eq
  intro i hi
  have : 32 * j + i < m.bits := by omega
  rw [getLsbD_elem, getLsbD_elem, BitVec.getLsbD_and, getLsbD_registerOnes]
  simp [this]

theorem and_ones_idem (m : VLen) (v : Vec) : v &&& registerOnes m &&& registerOnes m = v &&& registerOnes m := by
  apply BitVec.eq_of_getLsbD_eq
  intro i _
  simp

end Sys2Proof.Machine
end

