-- ==== Sys2Proof/Laws/Read.lean ====
section
/-! SUPPORT. What the read primitive answers: its value where the operand can be read, and what each of its stops says. -/

namespace Sys2Proof.Machine

/-! ## Little-endian values -/

/-- Bit `i` of a little-endian value is bit `i mod 8` of byte `i div 8`. -/
theorem getLsbD_leValue (bs : List Byte) (i : Nat) (hi : i < 512) :
    (leValue bs).getLsbD i = ((bs.getD (i / 8) 0#8).getLsbD (i % 8)) := by
  induction bs generalizing i with
  | nil => simp [leValue]
  | cons b bs ih =>
    simp only [leValue, BitVec.getLsbD_or, BitVec.getLsbD_shiftLeft, BitVec.getLsbD_setWidth]
    rcases Nat.lt_or_ge i 8 with h | h
    · have hd : i / 8 = 0 := by omega
      have hm : i % 8 = i := by omega
      simp [h, hi, hd, hm]
    · have hd : i / 8 = (i - 8) / 8 + 1 := by omega
      have hm : i % 8 = (i - 8) % 8 := by omega
      rw [ih (i - 8) (by omega), BitVec.getLsbD_of_ge b i h, hd, hm]
      simp [Nat.not_lt.mpr h, hi]

/-- The bytes of an operand, in order. -/
def State.operandByteList (s : State) (la n : Nat) : List Byte := (List.range n).map fun i => s.byteAt (la + i)

theorem operandByteList_getD (s : State) (la n k : Nat) (hk : k < n) : (s.operandByteList la n).getD k 0#8 = s.byteAt (la + k) := by
  simp [State.operandByteList, hk]

theorem operandByteList_getD_ge (s : State) (la n k : Nat) (hk : n ≤ k) : (s.operandByteList la n).getD k 0#8 = 0#8 := by
  simp [State.operandByteList, hk]

/-- Element `j` of an operand of at least `4j + 4` bytes is its bytes `4j .. 4j+3` (R41). -/
theorem elem_leValue (s : State) (la n j : Nat) (hn : n ≤ 64) (hj : 4 * j + 4 ≤ n) :
    elem j (leValue (s.operandByteList la n)) = s.elemAt (la + 4 * j) := by
  apply BitVec.eq_of_getLsbD_eq
  intro i hi
  rw [getLsbD_elem, getLsbD_leValue _ _ (by omega), operandByteList_getD _ _ _ _ (by omega)]
  have hm : (32 * j + i) % 8 = i % 8 := by omega
  have hd : (32 * j + i) / 8 = 4 * j + i / 8 := by omega
  simp only [State.elemAt, BitVec.getLsbD_append, hm, hd, hi, decide_true, Bool.true_and]
  have hcases : i / 8 = 0 ∨ i / 8 = 1 ∨ i / 8 = 2 ∨ i / 8 = 3 := by omega
  rcases hcases with h | h | h | h
  · have h1 : i < 8 := by omega
    have h2 : i % 8 = i := by omega
    simp [h, h1, h2]
  · have h1 : ¬ i < 8 := by omega
    have h2 : i - 8 < 8 := by omega
    have h3 : i % 8 = i - 8 := by omega
    simp [h, h1, h2, h3, Nat.add_assoc]
  · have h1 : ¬ i < 8 := by omega
    have h2 : ¬ i - 8 < 8 := by omega
    have h4 : i - 8 - 8 < 8 := by omega
    have h3 : i % 8 = i - 8 - 8 := by omega
    simp [h, h1, h2, h3, h4, Nat.add_assoc]
  · have h1 : ¬ i < 8 := by omega
    have h2 : ¬ i - 8 < 8 := by omega
    have h4 : ¬ i - 8 - 8 < 8 := by omega
    have h3 : i % 8 = i - 8 - 8 - 8 := by omega
    simp [h, h1, h2, h3, h4, Nat.add_assoc]

/-! ## readLinear -/

theorem bytesReadable_iff (s : State) (la n : Nat) :
    s.bytesReadable la n = true ↔ ∀ i, i < n → ∃ pa, s.translate .read (la + i) = .ok pa ∧ s.windowAt pa = none := by
  simp only [State.bytesReadable, List.all_eq_true, List.mem_range]
  refine forall_congr' fun i => imp_congr_right fun _ => ?_
  cases s.translate .read (la + i) with
  | error c => simp
  | ok pa => simp

theorem byteFault_eq_none (s : State) (la : Nat) : s.byteFault la = none ↔ ∃ pa, s.translate .read la = .ok pa := by
  unfold State.byteFault
  cases s.translate .read la with
  | error c => simp
  | ok pa => simp

theorem byteFault_eq_some (s : State) (la : Nat) (f : Fault) :
    s.byteFault la = some f ↔ ∃ c, s.translate .read la = .error c ∧ f = .pageFault c (BitVec.ofNat 64 la) := by
  unfold State.byteFault
  cases s.translate .read la with
  | error c => simp [eq_comm]
  | ok pa => simp

theorem byteFaults_eq_nil (s : State) (la n : Nat) :
    s.byteFaults la n = [] ↔ ∀ i, i < n → ∃ pa, s.translate .read (la + i) = .ok pa := by
  simp only [State.byteFaults, List.filterMap_eq_nil_iff, List.mem_range]
  exact forall_congr' fun i => imp_congr_right fun _ => byteFault_eq_none s (la + i)

theorem mem_byteFaults (s : State) (la n : Nat) (f : Fault) :
    f ∈ s.byteFaults la n ↔ ∃ i, i < n ∧ s.byteFault (la + i) = some f := by
  simp [State.byteFaults]

/-- The fault reported is one of the faulting bytes'. -/
theorem pickFault_mem (s : State) (f : Fault) (fs : List Fault) : s.pickFault f fs ∈ f :: fs := by
  unfold State.pickFault
  have h : Config.pageFaultPick s.draws % (f :: fs).length < (f :: fs).length := Nat.mod_lt _ (by simp)
  rw [List.getD_eq_getElem _ _ h]
  exact List.getElem_mem h

theorem windowIn_eq_none (s : State) (la n : Nat) :
    s.windowIn la n = none ↔ ∀ i, i < n → ∀ pa, s.translate .read (la + i) = .ok pa → s.windowAt pa = none := by
  simp only [State.windowIn, List.findSome?_eq_none_iff, List.mem_range]
  refine forall_congr' fun i => imp_congr_right fun _ => ?_
  cases s.translate .read (la + i) with
  | error c => simp
  | ok pa => simp

/-- What is found not to be ordinary memory is one of the bytes, where it translates to. -/
theorem windowIn_some (s : State) (la n : Nat) (q : Refusal) (h : s.windowIn la n = some q) :
    ∃ i pa, i < n ∧ s.translate .read (la + i) = .ok pa ∧ s.windowAt pa = some q := by
  obtain ⟨i, hi, hq⟩ := List.exists_of_findSome?_eq_some h
  split at hq
  · next pa hpa => exact ⟨i, pa, List.mem_range.mp hi, hpa, hq⟩
  · cases hq

/-- What is found among the first bytes is what is found among all of them. -/
theorem windowIn_append (s : State) (la n k : Nat) (q : Refusal) (h : s.windowIn la n = some q) :
    s.windowIn la (n + k) = some q := by
  unfold State.windowIn at *
  rw [List.range_add, List.findSome?_append, h]
  rfl

/-- The two ways an address is not ordinary memory. -/
theorem windowAt_some (s : State) (pa : Nat) (q : Refusal) (h : s.windowAt pa = some q) :
    q = .deviceMemory ∨ q = .absentMemory := by
  simp only [State.windowAt, Option.map_eq_some_iff] at h
  obtain ⟨w, _, hq⟩ := h
  split at hq
  · exact .inl hq.symm
  · exact .inr hq.symm

/-- A byte can be read exactly when it translates and no byte is outside ordinary memory. -/
theorem bytesReadable_eq (s : State) (la n : Nat) :
    s.bytesReadable la n = true ↔ s.byteFaults la n = [] ∧ s.windowIn la n = none := by
  rw [bytesReadable_iff, byteFaults_eq_nil, windowIn_eq_none]
  constructor
  · intro h
    refine ⟨fun i hi => ⟨_, (h i hi).choose_spec.1⟩, fun i hi pa hpa => ?_⟩
    obtain ⟨pa', hpa', hw⟩ := h i hi
    rw [hpa] at hpa'
    cases hpa'
    exact hw
  · rintro ⟨hf, hw⟩ i hi
    obtain ⟨pa, hpa⟩ := hf i hi
    exact ⟨pa, hpa, hw i hi pa hpa⟩

/-- Where every byte can be read, the value is the little-endian one. -/
theorem readLinear_of_readable (s : State) (la n : Nat) (h : s.bytesReadable la n = true) :
    s.readLinear la n = .ok (leValue (s.operandByteList la n)) := by
  obtain ⟨hf, hw⟩ := (bytesReadable_eq s la n).mp h
  simp [State.readLinear, hf, hw, State.operandByteList]

/-- A read that gives a value could read every byte, and the value is the little-endian one. -/
theorem readLinear_ok (s : State) (la n : Nat) (v : Vec) (h : s.readLinear la n = .ok v) :
    s.bytesReadable la n = true ∧ v = leValue (s.operandByteList la n) := by
  unfold State.readLinear at h
  split at h
  · cases h
  · next hf =>
    split at h
    · cases h
    · next hw =>
      simp only [Except.ok.injEq] at h
      exact ⟨(bytesReadable_eq s la n).mpr ⟨hf, hw⟩, h.symm⟩

/-- A stop of the read: a page fault of one of its bytes, or, where all translate, the refusal of a byte that is not ordinary
memory. -/
theorem readLinear_error (s : State) (la n : Nat) (e : Stop) (h : s.readLinear la n = .error e) :
    (∃ i c, i < n ∧ s.translate .read (la + i) = .error c ∧ e = .fault (.pageFault c (BitVec.ofNat 64 (la + i)))) ∨
    (s.byteFaults la n = [] ∧ ∃ i q, i < n ∧ s.windowAt (s.physical .read (la + i)) = some q ∧ e = .refused q) := by
  unfold State.readLinear at h
  split at h
  · next f fs hf =>
    left
    simp only [Except.error.injEq] at h
    have hm : s.pickFault f fs ∈ s.byteFaults la n := by rw [hf]; exact pickFault_mem s f fs
    obtain ⟨i, hi, hb⟩ := (mem_byteFaults s la n _).mp hm
    obtain ⟨c, hc, hfc⟩ := (byteFault_eq_some s (la + i) _).mp hb
    exact ⟨i, c, hi, hc, by rw [← h, hfc]⟩
  · next hf =>
    split at h
    · next q hq =>
      right
      simp only [Except.error.injEq] at h
      obtain ⟨i, pa, hi, hpa, hq⟩ := windowIn_some s la n q hq
      exact ⟨hf, i, q, hi, by simp only [State.physical, hpa, hq], h.symm⟩
    · cases h

/-! ## The whole read -/

theorem checkAlignment_of_aligned (s : State) (r : SegReg) (ea n : Nat)
    (h : (!s.alignmentChecking || s.linear r ea % n == 0) = true) : s.checkAlignment r ea n = .ok () := by
  unfold State.checkAlignment
  simp only [Bool.or_eq_true, Bool.not_eq_true', beq_iff_eq] at h
  rcases h with h | h <;> simp [h]

/-- Where the operand can be read, `MemRead` gives its little-endian value. -/
theorem memRead_of_readable (s : State) (r : SegReg) (ea n : Nat) (h : s.otherReadable r ea n = true) :
    s.memRead r ea n = .ok (leValue (s.operandByteList (s.linear r ea) n)) := by
  simp only [State.otherReadable, State.rangeReadable, Bool.and_eq_true, decide_eq_true_eq] at h
  obtain ⟨⟨⟨hs, hw⟩, hb⟩, ha⟩ := h
  simp [State.memRead, State.checkSegment, hs, State.checkWrap, hw, checkAlignment_of_aligned s r ea n ha,
    readLinear_of_readable s _ n hb]

/-- Where the legacy form's operand can be read, its low quadword is what is read, under either draw. -/
theorem memReadLegacy_of_readable (s : State) (narrow : Bool) (r : SegReg) (ea : Nat) (h : s.legacyReadable r ea = true) :
    s.memReadLegacy narrow r ea = .ok (lowQuad (leValue (s.operandByteList (s.linear r ea) 16))) := by
  simp only [State.legacyReadable, State.rangeReadable, Bool.and_eq_true, decide_eq_true_eq, beq_iff_eq] at h
  obtain ⟨⟨hbase, hla⟩, ⟨hs, hw⟩, hb⟩ := h
  simp [State.memReadLegacy, State.checkLegacyAlignment, hbase, hla, State.checkSegment, hs, State.checkWrap, hw,
    State.readLegacy, readLinear_of_readable s _ 16 hb]

/-- The low quadword keeps elements 0 and 1. -/
theorem elem_lowQuad (v : Vec) (j : Nat) (hj : j < 2) : elem j (lowQuad v) = elem j v := by
  apply BitVec.eq_of_getLsbD_eq
  intro i hi
  have h1 : 32 * j + i < 64 := by omega
  have h2 : 32 * j + i < 512 := by omega
  simp only [getLsbD_elem, lowQuad, BitVec.getLsbD_setWidth, BitVec.getLsbD_extractLsb', h1, h2, decide_true, Bool.true_and,
    Nat.zero_add]

/-- What each stop of `MemRead` says. -/
theorem memRead_error (s : State) (r : SegReg) (ea n : Nat) (e : Stop) (h : s.memRead r ea n = .error e) :
    (s.segmentAllows r ea n = false ∧ e = .fault (segmentFault r)) ∨
    (2 ^ s.linearWidth < s.linear r ea + n ∧ e = .refused .addressWrap) ∨
    (s.alignmentChecking = true ∧ s.linear r ea % n ≠ 0 ∧ e = .fault .alignmentCheck) ∨
    s.readLinear (s.linear r ea) n = .error e := by
  unfold State.memRead State.checkSegment at h
  by_cases hs : s.segmentAllows r ea n
  · simp only [hs, if_true] at h
    unfold State.checkWrap at h
    by_cases hw : s.linear r ea + n ≤ 2 ^ s.linearWidth
    · simp only [hw, if_true] at h
      unfold State.checkAlignment at h
      split at h
      · next e' hal =>
        split at hal
        · next hcond =>
          simp only [Bool.and_eq_true, bne_iff_ne, ne_eq] at hcond
          simp only [Except.error.injEq] at h hal
          exact .inr (.inr (.inl ⟨hcond.1.1, hcond.1.2, by rw [← h, hal]⟩))
        · cases hal
      · exact .inr (.inr (.inr h))
    · simp only [hw, if_false, Except.error.injEq] at h
      exact .inr (.inl ⟨by omega, h.symm⟩)
  · simp only [hs, if_false, Except.error.injEq, Bool.false_eq_true] at h
    exact .inl ⟨by simpa using hs, h.symm⟩

/-- A stop of the legacy form's read: a stop of the read of 16 bytes, or, where 8 bytes are fetched, of the 8, or the refusal of
one of the 16 that is not ordinary memory. -/
theorem readLegacy_error (s : State) (narrow : Bool) (la : Nat) (e : Stop) (h : s.readLegacy narrow la = .error e) :
    s.readLinear la (if narrow then 8 else 16) = .error e ∨
    (narrow = true ∧ ∃ q, s.windowIn la 16 = some q ∧ e = .refused q) := by
  unfold State.readLegacy at h
  split at h
  · cases h
  · next e' he =>
    cases narrow with
    | false =>
      simp only [Bool.false_eq_true, if_false, Except.error.injEq] at h
      subst h
      exact .inl he
    | true =>
      simp only [if_true] at h
      split at h
      · next e'' h8 =>
        cases h
        exact .inl h8
      · split at h
        · next q hq =>
          cases h
          exact .inr ⟨rfl, q, hq, rfl⟩
        · cases h

/-- The narrow read gives the low quadword of the wide one where the wide one gives a value, and otherwise the 8 bytes. -/
theorem readLegacy_ok (s : State) (narrow : Bool) (la : Nat) (v : Vec) (h : s.readLegacy narrow la = .ok v) :
    s.windowIn la 16 = none ∧ ((∃ w, s.readLinear la 16 = .ok w ∧ v = lowQuad w) ∨
      (narrow = true ∧ s.readLinear la 8 = .ok v)) := by
  unfold State.readLegacy at h
  split at h
  · next w hw =>
    simp only [Except.ok.injEq] at h
    subst h
    exact ⟨((bytesReadable_eq s la 16).mp (readLinear_ok s la 16 w hw).1).2, .inl ⟨w, hw, rfl⟩⟩
  · cases narrow with
    | false =>
      simp only [Bool.false_eq_true, if_false] at h
      cases h
    | true =>
      simp only [if_true] at h
      split at h
      · cases h
      · next w hw =>
        split at h
        · cases h
        · next hn =>
          cases h
          exact ⟨hn, .inr ⟨rfl, hw⟩⟩

/-- What each stop of the legacy form's `MemRead` says: the first check that fails, or a stop of the read. -/
theorem memReadLegacy_error (s : State) (narrow : Bool) (r : SegReg) (ea : Nat) (e : Stop)
    (h : s.memReadLegacy narrow r ea = .error e) :
    (s.segmentBase r % 16 ≠ 0 ∧ e = .refused .legacyBaseUnaligned) ∨
    (s.linear r ea % 16 ≠ 0 ∧ e = .fault .generalProtection) ∨
    (s.segmentAllows r ea 16 = false ∧ e = .fault (segmentFault r)) ∨
    (2 ^ s.linearWidth < s.linear r ea + 16 ∧ e = .refused .addressWrap) ∨
    s.readLegacy narrow (s.linear r ea) = .error e := by
  unfold State.memReadLegacy State.checkLegacyAlignment at h
  by_cases hb : s.segmentBase r % 16 = 0
  · by_cases hl : s.linear r ea % 16 = 0
    · simp only [hb, hl, ne_eq, not_true_eq_false, if_false] at h
      unfold State.checkSegment at h
      by_cases hs : s.segmentAllows r ea 16
      · simp only [hs, if_true] at h
        unfold State.checkWrap at h
        by_cases hw : s.linear r ea + 16 ≤ 2 ^ s.linearWidth
        · simp only [hw, if_true] at h
          exact .inr (.inr (.inr (.inr h)))
        · simp only [hw, if_false, Except.error.injEq] at h
          exact .inr (.inr (.inr (.inl ⟨by omega, h.symm⟩)))
      · simp only [hs, if_false, Except.error.injEq, Bool.false_eq_true] at h
        exact .inr (.inr (.inl ⟨by simpa using hs, h.symm⟩))
    · simp only [hb, hl, ne_eq, not_true_eq_false, not_false_eq_true, if_false, if_true, Except.error.injEq] at h
      exact .inr (.inl ⟨hl, h.symm⟩)
  · simp only [hb, ne_eq, not_false_eq_true, if_true, Except.error.injEq] at h
    exact .inl ⟨hb, h.symm⟩

/-- A `MemRead` that gives a value could read every byte, and the value is the little-endian one. -/
theorem memRead_ok (s : State) (r : SegReg) (ea n : Nat) (v : Vec) (h : s.memRead r ea n = .ok v) :
    s.bytesReadable (s.linear r ea) n = true ∧ v = leValue (s.operandByteList (s.linear r ea) n) := by
  unfold State.memRead at h
  split at h; · cases h
  split at h; · cases h
  split at h; · cases h
  exact readLinear_ok _ _ _ _ h

/-- A `MemRead` of the legacy form that gives a value gives elements 0 and 1 of the little-endian one. -/
theorem memReadLegacy_ok (s : State) (narrow : Bool) (r : SegReg) (ea : Nat) (v : Vec)
    (h : s.memReadLegacy narrow r ea = .ok v) :
    ∃ n, 8 ≤ n ∧ n ≤ 16 ∧ ∀ j, j < 2 → elem j v = elem j (leValue (s.operandByteList (s.linear r ea) n)) := by
  unfold State.memReadLegacy at h
  split at h; · cases h
  split at h; · cases h
  split at h; · cases h
  rcases (readLegacy_ok _ _ _ _ h).2 with ⟨w, hw, rfl⟩ | ⟨_, hw⟩
  · exact ⟨16, by omega, le_refl _, fun j hj => by rw [elem_lowQuad _ _ hj, (readLinear_ok _ _ _ _ hw).2]⟩
  · exact ⟨8, le_refl _, by omega, fun j hj => by rw [(readLinear_ok _ _ _ _ hw).2]⟩

/-! ## The second source -/

/-- Where the second source can be read it has a value, under either draw. -/
theorem src2Value_of_readable (s : State) (narrow : Bool) (r : DecodedInst) (hr : s.srcReadable r = true)
    (hb : r.form = .legacy128 → ∀ a, r.src2 ≠ .mem a true) : ∃ v, src2Value s narrow r = .ok v := by
  unfold State.srcReadable at hr
  unfold src2Value
  cases h2 : r.src2 with
  | reg n => exact ⟨_, rfl⟩
  | mem a bcst =>
    rw [h2] at hr
    by_cases hf : r.form = .legacy128
    · cases bcst with
      | true => exact absurd h2 (hb hf a)
      | false =>
        simp only [hf, if_true] at hr ⊢
        exact ⟨_, memReadLegacy_of_readable s narrow _ _ hr⟩
    · cases bcst with
      | true =>
        simp only [hf, if_false, operandBytes, if_true] at hr
        simp only [memRead_of_readable s _ _ _ hr]
        exact ⟨_, rfl⟩
      | false =>
        simp only [hf, if_false, operandBytes, Bool.false_eq_true] at hr ⊢
        exact ⟨_, memRead_of_readable s _ _ _ hr⟩

/-- A stop of the second source is a stop of one of the two reads. -/
theorem src2Value_error (s : State) (narrow : Bool) (r : DecodedInst) (e : Stop) (h : src2Value s narrow r = .error e) :
    ∃ a bcst, r.src2 = .mem a bcst ∧
      ((r.form = .legacy128 ∧ bcst = false ∧ s.memReadLegacy narrow a.seg (effectiveAddress s r.len a) = .error e) ∨
        ((bcst = true ∨ r.form ≠ .legacy128) ∧
          s.memRead a.seg (effectiveAddress s r.len a) (operandBytes r.form bcst) = .error e)) := by
  unfold src2Value at h
  cases h2 : r.src2 with
  | reg n => rw [h2] at h; cases h
  | mem a bcst =>
    rw [h2] at h
    refine ⟨a, bcst, rfl, ?_⟩
    cases bcst with
    | true =>
      simp only at h
      split at h
      · cases h
      · next e' he =>
        cases h
        exact .inr ⟨.inl rfl, he⟩
    | false =>
      simp only at h
      split at h
      · next hf => exact .inl ⟨hf, rfl, h⟩
      · next hf => exact .inr ⟨.inr hf, h⟩

/-- The faults a read can raise: none of them is one of the two checks made before it. -/
theorem src2Value_fault (s : State) (narrow : Bool) (r : DecodedInst) (f : Fault) (h : src2Value s narrow r = .error (.fault f)) :
    f ≠ .invalidOpcode ∧ f ≠ .deviceNotAvailable := by
  have hseg : ∀ q, segmentFault q ≠ .invalidOpcode ∧ segmentFault q ≠ .deviceNotAvailable := by
    intro q
    unfold segmentFault
    split <;> simp
  have hlin : ∀ la n, s.readLinear la n = .error (.fault f) → f ≠ .invalidOpcode ∧ f ≠ .deviceNotAvailable := by
    intro la n hl
    rcases readLinear_error s la n _ hl with ⟨_, _, _, _, he⟩ | ⟨_, _, _, _, _, he⟩
    · cases he; simp
    · cases he
  obtain ⟨a, bcst, _, ⟨_, _, hm⟩ | ⟨_, hm⟩⟩ := src2Value_error s narrow r _ h
  · rcases memReadLegacy_error s narrow _ _ _ hm with ⟨_, he⟩ | ⟨_, he⟩ | ⟨_, he⟩ | ⟨_, he⟩ | hl
    · cases he
    · cases he; simp
    · cases he; exact hseg _
    · cases he
    · rcases readLegacy_error s narrow _ _ hl with hl | ⟨_, _, _, he⟩
      · exact hlin _ _ hl
      · cases he
  · rcases memRead_error s _ _ _ _ hm with ⟨_, he⟩ | ⟨_, he⟩ | ⟨_, _, he⟩ | hl
    · cases he; exact hseg _
    · cases he
    · cases he; simp
    · exact hlin _ _ hl

end Sys2Proof.Machine
end

