-- ==== Sys2Proof/Laws/State.lean ====
section
/-! SUPPORT. One lemma per field for each update of the state. -/

namespace Sys2Proof.Machine

variable (s : State) (d : Fin 32) (v : Vec) (n : Nat)

@[simp] theorem State.writeZmm_cfg : (s.writeZmm d v).cfg = s.cfg := rfl
@[simp] theorem State.writeZmm_mode : (s.writeZmm d v).mode = s.mode := rfl
@[simp] theorem State.writeZmm_k : (s.writeZmm d v).k = s.k := rfl
@[simp] theorem State.writeZmm_gpr : (s.writeZmm d v).gpr = s.gpr := rfl
@[simp] theorem State.writeZmm_rip : (s.writeZmm d v).rip = s.rip := rfl
@[simp] theorem State.writeZmm_es : (s.writeZmm d v).es = s.es := rfl
@[simp] theorem State.writeZmm_cs : (s.writeZmm d v).cs = s.cs := rfl
@[simp] theorem State.writeZmm_ss : (s.writeZmm d v).ss = s.ss := rfl
@[simp] theorem State.writeZmm_ds : (s.writeZmm d v).ds = s.ds := rfl
@[simp] theorem State.writeZmm_fs : (s.writeZmm d v).fs = s.fs := rfl
@[simp] theorem State.writeZmm_gs : (s.writeZmm d v).gs = s.gs := rfl
@[simp] theorem State.writeZmm_rflags : (s.writeZmm d v).rflags = s.rflags := rfl
@[simp] theorem State.writeZmm_mxcsr : (s.writeZmm d v).mxcsr = s.mxcsr := rfl
@[simp] theorem State.writeZmm_x87 : (s.writeZmm d v).x87 = s.x87 := rfl
@[simp] theorem State.writeZmm_cr0 : (s.writeZmm d v).cr0 = s.cr0 := rfl
@[simp] theorem State.writeZmm_cr2 : (s.writeZmm d v).cr2 = s.cr2 := rfl
@[simp] theorem State.writeZmm_cr3 : (s.writeZmm d v).cr3 = s.cr3 := rfl
@[simp] theorem State.writeZmm_cr4 : (s.writeZmm d v).cr4 = s.cr4 := rfl
@[simp] theorem State.writeZmm_cr8 : (s.writeZmm d v).cr8 = s.cr8 := rfl
@[simp] theorem State.writeZmm_xcr0 : (s.writeZmm d v).xcr0 = s.xcr0 := rfl
@[simp] theorem State.writeZmm_efer : (s.writeZmm d v).efer = s.efer := rfl
@[simp] theorem State.writeZmm_pages : (s.writeZmm d v).pages = s.pages := rfl
@[simp] theorem State.writeZmm_windows : (s.writeZmm d v).windows = s.windows := rfl
@[simp] theorem State.writeZmm_mem : (s.writeZmm d v).mem = s.mem := rfl
@[simp] theorem State.writeZmm_draws : (s.writeZmm d v).draws = s.draws := rfl

@[simp] theorem State.finish_cfg : (s.finish d v n).cfg = s.cfg := rfl
@[simp] theorem State.finish_mode : (s.finish d v n).mode = s.mode := rfl
@[simp] theorem State.finish_k : (s.finish d v n).k = s.k := rfl
@[simp] theorem State.finish_gpr : (s.finish d v n).gpr = s.gpr := rfl
@[simp] theorem State.finish_es : (s.finish d v n).es = s.es := rfl
@[simp] theorem State.finish_cs : (s.finish d v n).cs = s.cs := rfl
@[simp] theorem State.finish_ss : (s.finish d v n).ss = s.ss := rfl
@[simp] theorem State.finish_ds : (s.finish d v n).ds = s.ds := rfl
@[simp] theorem State.finish_fs : (s.finish d v n).fs = s.fs := rfl
@[simp] theorem State.finish_gs : (s.finish d v n).gs = s.gs := rfl
@[simp] theorem State.finish_rflags : (s.finish d v n).rflags = s.rflags := rfl
@[simp] theorem State.finish_mxcsr : (s.finish d v n).mxcsr = s.mxcsr := rfl
@[simp] theorem State.finish_x87 : (s.finish d v n).x87 = s.x87 := rfl
@[simp] theorem State.finish_cr0 : (s.finish d v n).cr0 = s.cr0 := rfl
@[simp] theorem State.finish_cr2 : (s.finish d v n).cr2 = s.cr2 := rfl
@[simp] theorem State.finish_cr3 : (s.finish d v n).cr3 = s.cr3 := rfl
@[simp] theorem State.finish_cr4 : (s.finish d v n).cr4 = s.cr4 := rfl
@[simp] theorem State.finish_cr8 : (s.finish d v n).cr8 = s.cr8 := rfl
@[simp] theorem State.finish_xcr0 : (s.finish d v n).xcr0 = s.xcr0 := rfl
@[simp] theorem State.finish_efer : (s.finish d v n).efer = s.efer := rfl
@[simp] theorem State.finish_pages : (s.finish d v n).pages = s.pages := rfl
@[simp] theorem State.finish_windows : (s.finish d v n).windows = s.windows := rfl
@[simp] theorem State.finish_mem : (s.finish d v n).mem = s.mem := rfl
@[simp] theorem State.finish_rip : (s.finish d v n).rip = s.nextPc n := rfl
@[simp] theorem State.finish_draws : (s.finish d v n).draws = s.draws + 1 := rfl
@[simp] theorem State.finish_zmm : (s.finish d v n).zmm = (s.writeZmm d v).zmm := rfl

@[simp] theorem State.readZmm_writeZmm_same : (s.writeZmm d v).readZmm d = v &&& registerOnes s.cfg.maxvl := by
  simp [State.readZmm, State.writeZmm]

@[simp] theorem State.readZmm_writeZmm_other (i : Fin 32) (h : i ≠ d) : (s.writeZmm d v).readZmm i = s.readZmm i := by
  have : (d : Nat) ≠ (i : Nat) := fun e => h (Fin.ext e.symm)
  simp [State.readZmm, State.writeZmm, this]

@[simp] theorem State.readZmm_finish (i : Fin 32) : (s.finish d v n).readZmm i = (s.writeZmm d v).readZmm i := rfl

@[simp] theorem State.readMask_finish (a : BitVec 3) : (s.finish d v n).readMask a = s.readMask a := rfl

end Sys2Proof.Machine
end

