-- ==== Sys2Proof/Laws/Execute.lean ====
section
/-! SUPPORT. What one execution can do, said once: where it completes, and what every outcome says. -/

namespace Sys2Proof.Machine

variable {s t : State} {r : DecodedInst} {reserved narrow : Bool} {result : Vec → Vec → Vec → Word → Vec}

/-- An execution completes exactly when the two checks pass, the mode is admitted and the second source has a value; the
next state is then the one of step 5 of R100. -/
theorem execute_next_iff : execute s r reserved narrow result = .next t ↔
    invalidOpcode s r.form reserved = false ∧ s.ts = false ∧ s.admitted = true ∧
      ∃ s2, src2Value s narrow r = .ok s2 ∧
        t = s.finish r.dest (result (s.readZmm r.src1) s2 (s.readZmm r.dest) (s.readMask r.aaa)) r.len := by
  unfold execute deviceNotAvailable raise
  cases invalidOpcode s r.form reserved with
  | true => simp
  | false =>
    cases s.ts with
    | true => simp
    | false =>
      cases s.admitted with
      | false => simp
      | true =>
        cases src2Value s narrow r with
        | error e => cases e <;> simp [Stop.result, raise]
        | ok v => simp [eq_comm]

/-- What a stop of an execution says. -/
theorem execute_fault_iff (f : Fault) : execute s r reserved narrow result = .fault f ↔
    (invalidOpcode s r.form reserved = true ∧ f = .invalidOpcode) ∨
    (invalidOpcode s r.form reserved = false ∧ s.ts = true ∧ f = .deviceNotAvailable) ∨
    (invalidOpcode s r.form reserved = false ∧ s.ts = false ∧ s.admitted = true ∧
      src2Value s narrow r = .error (.fault f)) := by
  unfold execute deviceNotAvailable raise
  cases invalidOpcode s r.form reserved with
  | true => simp [@eq_comm _ Fault.invalidOpcode f]
  | false =>
    cases s.ts with
    | true => simp [@eq_comm _ Fault.deviceNotAvailable f]
    | false =>
      cases s.admitted with
      | false => simp
      | true =>
        cases src2Value s narrow r with
        | error e => cases e <;> simp [Stop.result, raise]
        | ok v => simp

/-- In an admitted mode the processor is in neither real-address nor virtual-8086 mode. -/
theorem realOrV86_of_admitted (h : s.admitted = true) : s.realOrV86 = false := by
  simp only [State.admitted, Bool.and_eq_true, Bool.not_eq_true'] at h
  unfold State.realOrV86
  cases hmode : s.mode <;> simp [hmode, Mode.admitted] at h <;> simp [h]

/-- The launch premises rule out the two checks. -/
theorem ready_checks (f : Form) (h : s.ready f = true) :
    s.cfg.wf = true ∧ s.admitted = true ∧ s.ts = false ∧ invalidOpcode s f false = false := by
  simp only [State.ready, Bool.and_eq_true] at h
  obtain ⟨⟨hc, hm⟩, he⟩ := h
  refine ⟨hc, hm, ?_, ?_⟩
  · cases f <;> simp [State.enabled] at he <;> simp [he]
  · have hr : s.realOrV86 = false := realOrV86_of_admitted hm
    cases f <;> simp [State.enabled] at he <;> simp [invalidOpcode, Form.featuresPresent, controlsAllow, he, hr]

/-- The frame of the end of an execution. -/
theorem finish_onlyWrites (s : State) (d : Fin 32) (v : Vec) (n : Nat) : onlyWrites s (s.finish d v n) d := by
  refine ⟨rfl, rfl, fun i hi => ?_, rfl, rfl, rfl, rfl, rfl, rfl, rfl, rfl, rfl, rfl, rfl, rfl, rfl, rfl, rfl, rfl, rfl, rfl, rfl,
    rfl, fun _ => rfl⟩
  rw [State.readZmm_finish, State.readZmm_writeZmm_other s d v i hi]

/-- The program counter at the end of an execution in an admitted mode. -/
theorem finish_pcAdvanced (s : State) (d : Fin 32) (v : Vec) (n : Nat) : pcAdvanced s (s.finish d v n) n := by
  unfold pcAdvanced
  rw [State.finish_rip]
  unfold State.nextPc State.linearWidth
  cases s.mode <;> simp only [BitVec.toNat_ofNat] <;> omega

/-! ## Every instruction is one execution of its record -/

/-- The reserved field values an instruction has (R80, R123). -/
def reservedOf (i : Instr) : Bool := !zeroingFits i || !broadcastFits i

/-- The draw of `LEGACY_FETCH` an instruction looks at. -/
def narrowOf (s : State) : Instr → Bool
  | .unpcklps _ _ _ => Config.legacyFetchNarrow s.draws
  | .vunpcklpsVex128C5 _ _ _ _ => false
  | .vunpcklpsVex128C4 _ _ _ _ _ _ _ => false
  | .vunpcklpsVex256C5 _ _ _ _ => false
  | .vunpcklpsVex256C4 _ _ _ _ _ _ _ => false
  | .vunpcklpsEvex128 _ _ _ _ _ _ _ _ _ => false
  | .vunpcklpsEvex256 _ _ _ _ _ _ _ _ _ => false
  | .vunpcklpsEvex512 _ _ _ _ _ _ _ _ _ => false

/-- The value an execution writes, of the first source, the second, the old destination and the mask (R103 to R108). -/
def recordResult (r : DecodedInst) (s1 s2 old : Vec) (m : Word) : Vec :=
  match r.form with
  | .legacy128 => legacyResult s1 s2
  | .vex128 => vexResult .v128 s1 s2
  | .vex256 => vexResult .v256 s1 s2
  | .evex128 => evexResult .v128 s1 s2 old r.aaa r.z m
  | .evex256 => evexResult .v256 s1 s2 old r.aaa r.z m
  | .evex512 => evexResult .v512 s1 s2 old r.aaa r.z m

theorem exec_eq_execute (i : Instr) (s : State) :
    exec i s = execute s (record s.mode i) (reservedOf i) (narrowOf s i) (recordResult (record s.mode i)) := by
  have h : ∀ (z : Bool) (aaa : BitVec 3) (bcst q : Bool),
      reservedFields z aaa bcst q = (!(!z || aaa != 0#3) || !(!bcst || !q)) := by decide
  cases i with
  | unpcklps => rfl
  | vunpcklpsVex128C5 => rfl
  | vunpcklpsVex128C4 => rfl
  | vunpcklpsVex256C5 => rfl
  | vunpcklpsVex256C4 => rfl
  | vunpcklpsEvex128 pfx x b d v aaa z bcst rm =>
    simp only [exec, execEvex128, reservedOf, zeroingFits, broadcastFits, h]
    rfl
  | vunpcklpsEvex256 pfx x b d v aaa z bcst rm =>
    simp only [exec, execEvex256, reservedOf, zeroingFits, broadcastFits, h]
    rfl
  | vunpcklpsEvex512 pfx x b d v aaa z bcst rm =>
    simp only [exec, execEvex512, reservedOf, zeroingFits, broadcastFits, h]
    rfl

/-- The record's length is the instruction's. -/
theorem record_len (m : Mode) (i : Instr) : (record m i).len = i.len := by cases i <;> rfl

/-- The legacy form has no broadcast. -/
theorem record_legacy_src2 (m : Mode) (i : Instr) (h : (record m i).form = .legacy128) (a : Addr) :
    (record m i).src2 ≠ .mem a true := by
  cases i <;> simp [record, legacyRecord, vexRecord, evexRecord] at h
  simp only [record, legacyRecord, rmSrc2]
  split
  · simp
  · split <;> simp

/-- An operand in memory is no register operand, so broadcast is no reserved field with it (R78). -/
theorem broadcastFits_of_mem (m : Mode) (i : Instr) (a : Addr) (bcst : Bool) (h : (record m i).src2 = .mem a bcst) :
    broadcastFits i = true := by
  have hreg : ∀ pfx x b n q rm, rmSrc2 m pfx true x b n q rm = .mem a bcst → (!q || !rm.isReg) = true := by
    intro pfx x b n q rm hs
    cases rm <;> simp [rmSrc2, rmAddr, RM.isReg] at hs ⊢
  cases i with
  | vunpcklpsEvex128 => exact hreg _ _ _ _ _ _ h
  | vunpcklpsEvex256 => exact hreg _ _ _ _ _ _ h
  | vunpcklpsEvex512 => exact hreg _ _ _ _ _ _ h
  | _ => rfl

end Sys2Proof.Machine
end

