-- ==== Sys2Proof/Machine/Intrinsics.lean ====
section
/-! DEFINITION. The nine compiler intrinsics of R85: functions of values, each the operation of the form that it compiles to. No
step calls one. -/

namespace Sys2Proof.Machine

/-- `_mm_unpacklo_ps`, `_mm256_unpacklo_ps`, `_mm512_unpacklo_ps` and their `_mask_` and `_maskz_` variants (R85). -/
inductive Intrinsic where
  | unpacklo (v : VLen)
  | maskUnpacklo (v : VLen)
  | maskzUnpacklo (v : VLen)
deriving DecidableEq, Repr

/-- The mnemonic the intrinsic compiles to (R85). -/
def Intrinsic.mnemonic : Intrinsic → String
  | .unpacklo .v128 => "UNPCKLPS"
  | .unpacklo _ => "VUNPCKLPS"
  | .maskUnpacklo _ => "VUNPCKLPS"
  | .maskzUnpacklo _ => "VUNPCKLPS"

/-- The width of the mask argument: `__mmask16` for 512 bits, else `__mmask8` (R85). -/
def Intrinsic.maskWidth : VLen → Nat
  | .v128 => 8
  | .v256 => 8
  | .v512 => 16

/-- The value returned: `a` and `b` are the sources, `s` the old destination of the merging variants, `k` the writemask (R85). -/
def Intrinsic.value (f : Intrinsic) (s : Vec) (k : BitVec 16) (a b : Vec) : Vec :=
  match f with
  | .unpacklo v => interleaveLow v a b
  | .maskUnpacklo v => applyMask v (interleaveLow v a b) s 1 false ((k.setWidth (Intrinsic.maskWidth v)).setWidth 64)
  | .maskzUnpacklo v => applyMask v (interleaveLow v a b) 0 1 true ((k.setWidth (Intrinsic.maskWidth v)).setWidth 64)

end Sys2Proof.Machine
end

