-- ==== Sys2Proof/Laws/Intrinsics.lean ====
section
/-! SUPPORT. The intrinsics return what the forms they compile to leave in the low `VL` bits of the destination (R85). -/

namespace Sys2Proof.Machine

/-- A vector of `n` elements is determined by them. -/
theorem ofElems_congr (f g : Nat → Elem) (n : Nat) (h : ∀ j, j < n → f j = g j) : ofElems f n = ofElems g n := by
  induction n with
  | zero => rfl
  | succ n ih => rw [ofElems, ofElems, ih fun j hj => h j (by omega), h n (by omega)]

/-- Masking looks at the bits of the mask below `KL` only, and at `aaa` only to see whether there is a mask (R111). -/
theorem applyMask_congr (v : VLen) (tmp old : Vec) (aaa aaa' : BitVec 3) (z : Bool) (m m' : Word) (h : aaa ≠ 0#3) (h' : aaa' ≠ 0#3)
    (hm : ∀ j, j < v.elems → m.getLsbD j = m'.getLsbD j) : applyMask v tmp old aaa z m = applyMask v tmp old aaa' z m' := by
  unfold applyMask
  apply ofElems_congr
  intro j hj
  simp only [enabled, beq_eq_false_iff_ne.mpr h, beq_eq_false_iff_ne.mpr h', hm j hj]

/-- The unmasked intrinsics: forms 2, 3 and 6, and form 1 in its low 128 bits. -/
theorem unpacklo_value (v : VLen) (s a b : Vec) (k : BitVec 16) : (Intrinsic.unpacklo v).value s k a b = vexResult v a b := rfl

/-- The mask argument's bits below `KL` are those of the opmask register it is passed in. -/
theorem maskArgument_getLsbD (v : VLen) (k : BitVec 16) (j : Nat) (hj : j < v.elems) :
    ((k.setWidth (Intrinsic.maskWidth v)).setWidth 64).getLsbD j = (k.setWidth 64).getLsbD j := by
  cases v <;> simp only [VLen.elems] at hj <;> simp only [Intrinsic.maskWidth, BitVec.getLsbD_setWidth] <;>
    simp [show j < 64 by omega] <;> omega

/-- The zeroing intrinsics: the EVEX forms with a writemask and zeroing, whatever the old destination. -/
theorem maskzUnpacklo_value (v : VLen) (s old a b : Vec) (k : BitVec 16) (aaa : BitVec 3) (h : aaa ≠ 0) :
    (Intrinsic.maskzUnpacklo v).value s k a b = evexResult v a b old aaa true (k.setWidth 64) :=
  (applyMask_congr v _ 0 1 aaa true _ _ (by decide) h (maskArgument_getLsbD v k)).trans
    (by unfold evexResult applyMask; simp only [if_true])

/-- The merging intrinsics: the EVEX forms with a writemask. -/
theorem maskUnpacklo_value (v : VLen) (s a b : Vec) (k : BitVec 16) (aaa : BitVec 3) (h : aaa ≠ 0) :
    (Intrinsic.maskUnpacklo v).value s k a b = evexResult v a b s aaa false (k.setWidth 64) :=
  applyMask_congr v _ s 1 aaa false _ _ (by decide) h (maskArgument_getLsbD v k)

end Sys2Proof.Machine
end

