-- ==== Sys2Proof/Laws/Memory.lean ====
section
/-! SUPPORT. The laws of memory: a read after a write, and the canonical form under every operation. -/

namespace Sys2Proof.Machine

theorem Memory.read_below (m : Memory) (lo x : Nat) (h : Memory.wfAbove m lo = true) (hx : x < lo) :
    m.read x = Memory.unlisted := by
  induction m generalizing lo with
  | nil => rfl
  | cons c m ih =>
    obtain ⟨a, b⟩ := c
    simp only [Memory.wfAbove, Bool.and_eq_true, decide_eq_true_eq] at h
    have hne : x ≠ a := by omega
    simp only [Memory.read, hne, if_false]
    exact ih (a + 1) h.2 (by omega)

theorem Memory.wfAbove_mono (m : Memory) (lo lo' : Nat) (hle : lo' ≤ lo) (h : Memory.wfAbove m lo = true) :
    Memory.wfAbove m lo' = true := by
  cases m with
  | nil => rfl
  | cons c m =>
    obtain ⟨a, b⟩ := c
    simp only [Memory.wfAbove, Bool.and_eq_true, decide_eq_true_eq] at h ⊢
    exact ⟨⟨by omega, h.1.2⟩, h.2⟩

theorem Memory.read_insert (m : Memory) (x y : Nat) (v : Byte) :
    (m.insert x v).read y = if y = x then v else m.read y := by
  induction m with
  | nil => rfl
  | cons c m ih =>
    obtain ⟨a, b⟩ := c
    unfold Memory.insert
    split
    · rfl
    · split
      · next hxa =>
        subst hxa
        simp only [Memory.read]
        split <;> simp_all
      · next hxa =>
        simp only [Memory.read, ih]
        split
        · next hya => simp [hya, Ne.symm hxa]
        · rfl

theorem Memory.read_erase (m : Memory) (lo x y : Nat) (h : Memory.wfAbove m lo = true) :
    (m.erase x).read y = if y = x then Memory.unlisted else m.read y := by
  induction m generalizing lo with
  | nil => simp [Memory.erase, Memory.read]
  | cons c m ih =>
    obtain ⟨a, b⟩ := c
    simp only [Memory.wfAbove, Bool.and_eq_true, decide_eq_true_eq] at h
    unfold Memory.erase
    split
    · next hxa =>
      subst hxa
      simp only [Memory.read]
      split
      · next hy => subst hy; exact Memory.read_below m (y + 1) y h.2 (by omega)
      · rfl
    · next hxa =>
      simp only [Memory.read, ih (a + 1) h.2]
      split
      · next hya => simp [hya, Ne.symm hxa]
      · rfl

/-- A read after a write of a canonical memory: the byte written at its address, the old byte elsewhere. -/
theorem Memory.read_write (m : Memory) (x y : Nat) (v : Byte) (h : m.wf = true) :
    (m.write x v).read y = if y = x then v else m.read y := by
  unfold Memory.write
  split
  · next hv => rw [Memory.read_erase m 0 x y h, hv]
  · exact Memory.read_insert m x y v

theorem Memory.insert_wfAbove (m : Memory) (lo x : Nat) (v : Byte) (hlo : lo ≤ x) (hv : v ≠ Memory.unlisted)
    (h : Memory.wfAbove m lo = true) : Memory.wfAbove (m.insert x v) lo = true := by
  induction m generalizing lo with
  | nil => simp [Memory.insert, Memory.wfAbove, hlo, hv]
  | cons c m ih =>
    obtain ⟨a, b⟩ := c
    simp only [Memory.wfAbove, Bool.and_eq_true, decide_eq_true_eq] at h
    unfold Memory.insert
    split
    · next hxa =>
      simp only [Memory.wfAbove, Bool.and_eq_true, decide_eq_true_eq]
      exact ⟨⟨hlo, by simpa using hv⟩, ⟨by omega, h.1.2⟩, h.2⟩
    · split
      · next hxa =>
        simp only [Memory.wfAbove, Bool.and_eq_true, decide_eq_true_eq]
        exact ⟨⟨hlo, by simpa using hv⟩, by rw [hxa]; exact h.2⟩
      · next hlt hne =>
        simp only [Memory.wfAbove, Bool.and_eq_true, decide_eq_true_eq]
        exact ⟨⟨h.1.1, h.1.2⟩, ih (a + 1) (by omega) h.2⟩

theorem Memory.erase_wfAbove (m : Memory) (lo x : Nat) (h : Memory.wfAbove m lo = true) :
    Memory.wfAbove (m.erase x) lo = true := by
  induction m generalizing lo with
  | nil => rfl
  | cons c m ih =>
    obtain ⟨a, b⟩ := c
    simp only [Memory.wfAbove, Bool.and_eq_true, decide_eq_true_eq] at h
    unfold Memory.erase
    split
    · exact Memory.wfAbove_mono m (a + 1) lo (by omega) h.2
    · simp only [Memory.wfAbove, Bool.and_eq_true, decide_eq_true_eq]
      exact ⟨⟨h.1.1, h.1.2⟩, ih (a + 1) h.2⟩

/-- A write keeps the canonical form. -/
theorem Memory.write_wf (m : Memory) (x : Nat) (v : Byte) (h : m.wf = true) : (m.write x v).wf = true := by
  unfold Memory.write
  split
  · exact Memory.erase_wfAbove m 0 x h
  · next hv => exact Memory.insert_wfAbove m 0 x v (Nat.zero_le x) hv h

/-- Placing a program keeps the canonical form. -/
theorem placeCode_wf (s : State) (m : Memory) (i : Nat) (bs : List Byte) (h : m.wf = true) :
    (placeCode s m i bs).wf = true := by
  induction bs generalizing m i with
  | nil => exact h
  | cons b bs ih =>
    unfold placeCode
    split
    · exact ih m (i + 1) h
    · exact ih _ (i + 1) (Memory.write_wf m _ b h)

theorem withCode_wf (s : State) (bs : List Byte) (h : s.mem.wf = true) : (s.withCode bs).mem.wf = true := by
  unfold State.withCode
  split
  · exact placeCode_wf _ _ 0 bs h
  · exact placeCode_wf _ _ 0 bs h

theorem reset_memory_wf : State.reset.mem.wf = true := rfl

/-- Equal reads are equal memories: the canonical form is unique. -/
theorem Memory.eq_of_read (m m' : Memory) (lo : Nat) (h : Memory.wfAbove m lo = true) (h' : Memory.wfAbove m' lo = true)
    (hr : ∀ x, m.read x = m'.read x) : m = m' := by
  induction m generalizing m' lo with
  | nil =>
    cases m' with
    | nil => rfl
    | cons c m' =>
      obtain ⟨a, b⟩ := c
      simp only [Memory.wfAbove, Bool.and_eq_true, decide_eq_true_eq] at h'
      have := hr a
      simp [Memory.read] at this
      simp [← this] at h'
  | cons c m ih =>
    obtain ⟨a, b⟩ := c
    cases m' with
    | nil =>
      simp only [Memory.wfAbove, Bool.and_eq_true, decide_eq_true_eq] at h
      have := hr a
      simp [Memory.read] at this
      simp [this] at h
    | cons c' m' =>
      obtain ⟨a', b'⟩ := c'
      simp only [Memory.wfAbove, Bool.and_eq_true, decide_eq_true_eq, bne_iff_ne, ne_eq] at h h'
      have haa : a = a' := by
        rcases Nat.lt_trichotomy a a' with hlt | heq | hgt
        · have := hr a
          have hne : a ≠ a' := by omega
          simp only [Memory.read, hne, if_true, if_false] at this
          rw [Memory.read_below m' (a' + 1) a h'.2 (by omega)] at this
          exact absurd this h.1.2
        · exact heq
        · have := hr a'
          have hne : a' ≠ a := by omega
          simp only [Memory.read, hne, if_true, if_false] at this
          rw [Memory.read_below m (a + 1) a' h.2 (by omega)] at this
          exact absurd this.symm h'.1.2
      subst haa
      have hb : b = b' := by simpa [Memory.read] using hr a
      subst hb
      have : m = m' := by
        refine ih m' (a + 1) h.2 h'.2 fun x => ?_
        by_cases hx : x = a
        · subst hx
          rw [Memory.read_below m (x + 1) x h.2 (by omega), Memory.read_below m' (x + 1) x h'.2 (by omega)]
        · have := hr x
          simpa [Memory.read, hx] using this
      rw [this]

end Sys2Proof.Machine
end

