-- ==== Sys2Proof/Laws/Operands.lean ====
section
/-! SUPPORT. What the operand forms give: general register numbers, the second source, segments, and the effective address as a sum in the ring of
its address size. -/

namespace Sys2Proof.Machine

/-! ## Register numbers -/

/-- The extension bit in front of three bits (R76). -/
theorem gprNum_val (b : Bool) (r : BitVec 3) : (gprNum b r).val = 8 * b.toNat + r.toNat := by revert b r; decide

/-- Bases 4 and 5 are RSP and RBP only without the extension bit (R77). -/
theorem gprNum_four (b : Bool) (r : BitVec 3) : gprNum b r = 4 ↔ b = false ∧ r = 4#3 := by revert b r; decide

theorem gprNum_five (b : Bool) (r : BitVec 3) : gprNum b r = 5 ↔ b = false ∧ r = 5#3 := by revert b r; decide

/-! ## The second source -/

/-- The second source of an operand is the one that its fields and the extension bits name (R71, R76). -/
theorem rmSrc2_isNamed (m : Mode) (pfx : List Prefix) (evex x b bcst : Bool) (n : Nat) (o : RM) :
    (rmSrc2 m pfx evex x b n bcst o).isNamed m pfx evex x b bcst n o := by
  have hidx : ∀ (e : Bool) (q : BitVec 3), (sibIndex e q).map Fin.val =
      if 8 * e.toNat + q.toNat = 4 then none else some (8 * e.toNat + q.toNat) := by decide
  have hb16 : ∀ q : BitVec 3, some (base16 q).val = [3, 3, 5, 5, 6, 7, 5, 3][q.toNat]? := by decide
  have hi16 : ∀ q : BitVec 3, (index16 q).map Fin.val = [6, 7, 6, 7][q.toNat]? := by decide
  have hv : ∀ (e x b : Bool) (q : BitVec 3), (BitVec.ofBool (e && x) ++ BitVec.ofBool b ++ q : BitVec 5).toNat =
      (if e then 16 * x.toNat else 0) + 8 * b.toNat + q.toNat := by decide
  cases o with
  | reg q => exact ⟨q, rfl, hv evex x b q⟩
  | ind q => exact ⟨rfl, rfl, congrArg some (gprNum_val b q), rfl⟩
  | disp32 d => exact ⟨rfl, rfl, rfl, rfl⟩
  | ind8 q d => exact ⟨rfl, rfl, congrArg some (gprNum_val b q), rfl⟩
  | ind32 q d => exact ⟨rfl, rfl, congrArg some (gprNum_val b q), rfl⟩
  | sib s i q => exact ⟨rfl, rfl, congrArg some (gprNum_val b q), hidx x i⟩
  | sibDisp32 s i d => exact ⟨rfl, rfl, rfl, hidx x i⟩
  | sib8 s i q d => exact ⟨rfl, rfl, congrArg some (gprNum_val b q), hidx x i⟩
  | sib32 s i q d => exact ⟨rfl, rfl, congrArg some (gprNum_val b q), hidx x i⟩
  | ind16 q => exact ⟨rfl, rfl, hb16 q, hi16 q⟩
  | disp16 d => exact ⟨rfl, rfl, rfl, rfl⟩
  | ind16d8 q d => exact ⟨rfl, rfl, hb16 q, hi16 q⟩
  | ind16d16 q d => exact ⟨rfl, rfl, hb16 q, hi16 q⟩

/-! ## Segment overrides -/

/-- What one byte in front does to the override found so far. -/
def overrideStep (m : Mode) (acc : Option SegReg) : Prefix → Option SegReg
  | .seg r => if m = .mode64 ∧ r ≠ .fs ∧ r ≠ .gs then acc else some r
  | _ => acc

theorem segOverride_eq (m : Mode) (pfx : List Prefix) : segOverride m pfx = pfx.foldl (overrideStep m) none := by
  unfold segOverride
  congr 1

/-- Bytes that are no override with an effect leave the override found so far. -/
theorem foldl_overrideStep (m : Mode) (pfx : List Prefix) (acc : Option SegReg)
    (h : ∀ r, Prefix.seg r ∈ pfx → m = .mode64 ∧ r ≠ .fs ∧ r ≠ .gs) : pfx.foldl (overrideStep m) acc = acc := by
  induction pfx with
  | nil => rfl
  | cons p ps ih =>
    have hp : overrideStep m acc p = acc := by
      cases p with
      | seg r => simp [overrideStep, h r (List.mem_cons_self ..)]
      | _ => rfl
    rw [List.foldl_cons, hp]
    exact ih fun r hr => h r (List.mem_cons_of_mem _ hr)

/-! ## The effective address -/

/-- The effective address has as many bits as the address size. -/
theorem effectiveAddress_lt (s : State) (len : Nat) (a : Addr) (n : Nat) (h : asizeBits a.asize = n) :
    effectiveAddress s len a < 2 ^ n := by
  subst h
  unfold effectiveAddress
  generalize (if a.riprel then (s.rip.toNat : Int) + len else 0) + s.readGprOpt a.base + s.readGprOpt a.index * a.scale + a.disp = z
  have h1 := Int.emod_lt_of_pos z (b := ((2 ^ asizeBits a.asize : Nat) : Int)) (by positivity)
  have h2 := Int.emod_nonneg z (b := ((2 ^ asizeBits a.asize : Nat) : Int)) (by positivity)
  omega

/-- The effective address is the sum of its parts, taken modulo the address size (R72, R81). -/
theorem effectiveAddress_eq (s : State) (len : Nat) (a : Addr) (n : Nat) (h : asizeBits a.asize = n) :
    BitVec.ofNat n (effectiveAddress s len a) =
      (if a.riprel then BitVec.ofNat n s.rip.toNat + BitVec.ofNat n len else 0) + BitVec.ofNat n (s.readGprOpt a.base)
        + BitVec.ofNat n (s.readGprOpt a.index) * BitVec.ofNat n a.scale + BitVec.ofInt n a.disp := by
  subst h
  unfold effectiveAddress
  generalize asizeBits a.asize = n
  have hmod : ∀ z : Int, BitVec.ofNat n (z % ((2 ^ n : Nat) : Int)).toNat = BitVec.ofInt n z := by
    intro z
    apply BitVec.eq_of_toNat_eq
    have h1 := Int.emod_lt_of_pos z (b := ((2 ^ n : Nat) : Int)) (by positivity)
    have h2 := Int.emod_nonneg z (b := ((2 ^ n : Nat) : Int)) (by positivity)
    rw [BitVec.toNat_ofNat, BitVec.toNat_ofInt, Nat.mod_eq_of_lt (by omega)]
  have hnat : ∀ k : Nat, BitVec.ofInt n (k : Int) = BitVec.ofNat n k := fun k => by simp
  rw [hmod, BitVec.ofInt_add, BitVec.ofInt_add, BitVec.ofInt_add, BitVec.ofInt_mul, hnat, hnat, hnat]
  congr 3
  split
  · rw [BitVec.ofInt_add, hnat, hnat]
  · simp

/-- A base register's part of the sum. -/
theorem ofNat_readGprOpt_some (s : State) (n : Nat) (r : Fin 16) :
    BitVec.ofNat n (s.readGprOpt (some r)) = (s.readGpr r).setWidth n := by
  apply BitVec.eq_of_toNat_eq
  simp [State.readGprOpt]

/-- An absent register's part of the sum. -/
theorem ofNat_readGprOpt_none (s : State) (n : Nat) : BitVec.ofNat n (s.readGprOpt none) = 0 := by simp [State.readGprOpt]

/-- An SIB index's part of the sum: the register shifted left by the scale field, and nothing for 0100 (R73). -/
theorem ofNat_sibIndex (s : State) (n : Nat) (x : Bool) (i : BitVec 3) (sc : BitVec 2) :
    BitVec.ofNat n (s.readGprOpt (sibIndex x i)) * BitVec.ofNat n (2 ^ sc.toNat) =
      if x = false ∧ i = 4#3 then 0 else (s.readGpr (gprNum x i)).setWidth n <<< sc.toNat := by
  unfold sibIndex
  split
  · simp [State.readGprOpt]
  · rw [ofNat_readGprOpt_some, BitVec.shiftLeft_eq_mul_twoPow]
    congr 1
    apply BitVec.eq_of_toNat_eq
    simp only [BitVec.toNat_ofNat, BitVec.toNat_twoPow]

end Sys2Proof.Machine
end

