-- ==== Sys2Proof/Laws/PerInstr.lean ====
section
/-! SUPPORT. Facts about every instruction as syntax, one lemma per constructor. The family `EncodeLength`: the encoding of an
instruction has the length R79 counts. -/

namespace Sys2Proof.Laws.EncodeLength

/-- The encoder's bytes are as many as the length says (R79). -/
def Statement (i : Instr) : Prop := (encode i).length = i.len

theorem unpcklps (pfx : List Prefix) (reg : BitVec 3) (rm : RM) : Statement (.unpcklps pfx reg rm) := by
  simp [Statement, encode, Instr.len, modrmBytes_length]; omega

theorem vunpcklpsVex128C5 (pfx : List Prefix) (dest src1 : BitVec 4) (rm : RM) :
    Statement (.vunpcklpsVex128C5 pfx dest src1 rm) := by
  simp [Statement, encode, Instr.len, modrmBytes_length, vexC5Bytes]; omega

theorem vunpcklpsVex128C4 (pfx : List Prefix) (w x b : Bool) (dest src1 : BitVec 4) (rm : RM) :
    Statement (.vunpcklpsVex128C4 pfx w x b dest src1 rm) := by
  simp [Statement, encode, Instr.len, modrmBytes_length, vexC4Bytes]; omega

theorem vunpcklpsVex256C5 (pfx : List Prefix) (dest src1 : BitVec 4) (rm : RM) :
    Statement (.vunpcklpsVex256C5 pfx dest src1 rm) := by
  simp [Statement, encode, Instr.len, modrmBytes_length, vexC5Bytes]; omega

theorem vunpcklpsVex256C4 (pfx : List Prefix) (w x b : Bool) (dest src1 : BitVec 4) (rm : RM) :
    Statement (.vunpcklpsVex256C4 pfx w x b dest src1 rm) := by
  simp [Statement, encode, Instr.len, modrmBytes_length, vexC4Bytes]; omega

theorem vunpcklpsEvex128 (pfx : List Prefix) (x b : Bool) (dest src1 : BitVec 5) (aaa : BitVec 3) (z bcst : Bool) (rm : RM) :
    Statement (.vunpcklpsEvex128 pfx x b dest src1 aaa z bcst rm) := by
  simp [Statement, encode, Instr.len, modrmBytes_length, evexBytes]; omega

theorem vunpcklpsEvex256 (pfx : List Prefix) (x b : Bool) (dest src1 : BitVec 5) (aaa : BitVec 3) (z bcst : Bool) (rm : RM) :
    Statement (.vunpcklpsEvex256 pfx x b dest src1 aaa z bcst rm) := by
  simp [Statement, encode, Instr.len, modrmBytes_length, evexBytes]; omega

theorem vunpcklpsEvex512 (pfx : List Prefix) (x b : Bool) (dest src1 : BitVec 5) (aaa : BitVec 3) (z bcst : Bool) (rm : RM) :
    Statement (.vunpcklpsEvex512 pfx x b dest src1 aaa z bcst rm) := by
  simp [Statement, encode, Instr.len, modrmBytes_length, evexBytes]; omega

end Sys2Proof.Laws.EncodeLength
end

