-- ==== Sys2Proof/Tests/Slice0.lean ====
section
/-! SUPPORT. The model's own tests: the checks of WellFormed refuse what they should, words written out from the encodings decode
as they should, vectors of 95_test_vectors.md give the results printed there, and every statement with hypotheses has a state
and operands that meet them. -/

namespace Sys2Proof.Tests

open Sys2Proof Sys2Proof.Machine

-- One theorem at a time: each test in flight holds a thread and its stack.
set_option Elab.async false

/-! ## Helpers -/

/-- A vector from its elements, lowest first (R14). -/
def vec (es : List Nat) : Vec := ofElems (fun j => BitVec.ofNat 32 (es.getD j 0)) 16

/-- The vectors A, B, C, D of 95_test_vectors.md: element `j` is the base plus `j`. -/
def A : Vec := ofElems (fun j => BitVec.ofNat 32 (0xAAAA00A0 + j)) 16
def B : Vec := ofElems (fun j => BitVec.ofNat 32 (0xBBBB00B0 + j)) 16
def C : Vec := ofElems (fun j => BitVec.ofNat 32 (0xCCCC00C0 + j)) 16
def D : Vec := ofElems (fun j => BitVec.ofNat 32 (0xDDDD00D0 + j)) 16

/-- Memory with bytes written from an address on. -/
def bytesFrom (a : Nat) : List Nat → Memory
  | [] => []
  | b :: bs => Memory.write (bytesFrom (a + 1) bs) a (BitVec.ofNat 8 b)

/-- 64-bit mode, everything of R152 enabled, every page present, the program counter at 0x1000. -/
def s64 : State := { State.reset.launch with rip := 0x1000 }

/-- A flat data segment of 32-bit mode. -/
def flat : Segment := ⟨0x10, 0, 0xFFFFFFFF, true, true⟩

/-- 32-bit mode, flat segments. -/
def s32 : State := { s64 with mode := .mode32, cs := ⟨0x8, 0, 0xFFFFFFFF, true, true⟩, ds := flat, ss := flat }

/-- The registers of the vectors: zmm1 = D, zmm2 = A, zmm3 = B, zmm4 = C, zmm0 = A. -/
def regs (s : State) : State :=
  { s with zmm := ((((s.zmm.set 0 A).set 1 D).set 2 A).set 3 B).set 4 C }

def withK (s : State) (n : Fin 8) (v : Word) : State := { s with k := s.k.set n v }

def withGpr (s : State) (n : Fin 16) (v : Word) : State := { s with gpr := s.gpr.set n v }

def withMem (s : State) (a : Nat) (bs : List Nat) : State := { s with mem := bytesFrom a bs }

/-- A result is a next state in which a test holds. -/
def nextIs (p : State → Bool) : Result → Bool
  | .next t => p t
  | _ => false

def faultIs (f : Fault) : Result → Bool
  | .fault g => f == g
  | _ => false

def refusedIs (q : Refusal) : Result → Bool
  | .refused r => q == r
  | _ => false

theorem next_of_nextIs (p : State → Bool) (r : Result) (h : nextIs p r = true) : ∃ t, r = .next t := by
  cases r with
  | next t => exact ⟨t, rfl⟩
  | fault f => cases h
  | refused q => cases h

/-- The register `d` holds `v` and the program counter is at `pc`. -/
def ends (d : Fin 32) (v : Vec) (pc : Word) : Result → Bool := nextIs fun t => t.readZmm d == v && t.rip == pc

def decodesTo (m : Mode) (bs : List Byte) (i : Instr) : Bool :=
  match decode m bs with
  | .ok j => i == j
  | .error _ => false

theorem decode_of_decodesTo (m : Mode) (bs : List Byte) (i : Instr) (h : decodesTo m bs i = true) : decode m bs = .ok i := by
  unfold decodesTo at h
  split at h
  · next j hj => rw [hj, beq_iff_eq.mp h]
  · cases h

def decodeFails (m : Mode) (bs : List Byte) (e : DecodeError) : Bool :=
  match decode m bs with
  | .ok _ => false
  | .error e' => e == e'

/-! ## WellFormed: an ill-formed term for each check -/

theorem test_wf_front_legacy : wellFormed .mode64 (.unpcklps [.opSize] 0 (.reg 1)) = false := by decide
theorem test_wf_front_rex32 : wellFormed .mode32 (.unpcklps [.rex false true false true] 0 (.reg 7)) = false := by decide
theorem test_wf_front_vex : wellFormed .mode64 (.vunpcklpsVex128C5 [.rep] 1 2 (.reg 3)) = false := by decide
theorem test_wf_front_evex32 : wellFormed .mode32 (.vunpcklpsEvex128 [.addrSize] false false 1 2 0 false false (.ind16 0)) = false := by
  decide
theorem test_wf_operand : wellFormed .mode64 (.unpcklps [] 0 (.ind 4)) = false := by decide
theorem test_wf_operand16 : wellFormed .mode64 (.unpcklps [] 0 (.ind16 0)) = false := by decide
theorem test_wf_extension : wellFormed .mode32 (.vunpcklpsVex128C5 [] 8 2 (.reg 3)) = false := by decide
theorem test_wf_zeroing : wellFormed .mode64 (.vunpcklpsEvex512 [] false false 1 2 0 true false (.reg 3)) = false := by decide
theorem test_wf_broadcast : wellFormed .mode64 (.vunpcklpsEvex512 [] false false 1 2 0 false true (.reg 3)) = false := by decide
theorem test_wf_length :
    wellFormed .mode64 (.unpcklps (List.replicate 13 (.seg .ds)) 0 (.reg 1)) = false := by decide
theorem test_wf_mode : wellFormed .real (.unpcklps [] 0 (.reg 1)) = false := by decide

/-- A record for the named checks of R81. -/
def rec0 : DecodedInst := ⟨.legacy128, 1, 1, .reg 2, 0, false, 3⟩

theorem test_record_checks :
    ({ rec0 with src1 := 2 }).legacySrc1 = false
    ∧ ({ rec0 with aaa := 1 }).nomaskOutsideEvex = false
    ∧ ({ rec0 with z := true }).zNeedsMask = false
    ∧ ({ rec0 with dest := 8 }).regRange .mode32 = false
    ∧ rec0.feature ⟨false, true, true, true⟩ = false
    ∧ ({ rec0 with src2 := .mem ⟨.ds, none, none, 1, 0, false, .a16⟩ false }).modeAddr .mode64 = false
    ∧ ({ rec0 with src2 := .mem ⟨.ds, none, none, 1, 0, true, .a32⟩ false }).modeAddr .mode32 = false := by decide

/-! ## Decoding: words from 30_encoding.md and E1 to E10 of 95_test_vectors.md -/

theorem test_decode_legacy : decodesTo .mode64 [0x0F, 0x14, 0xC1] (.unpcklps [] 0 (.reg 1)) = true := by decide
theorem test_decode_E2 :
    decodesTo .mode64 [0x0F, 0x14, 0x8C, 0x8C, 0x00, 0x01, 0x00, 0x00] (.unpcklps [] 1 (.sib32 2 1 4 0x100)) = true := by decide
theorem test_decode_vex128C5 : decodesTo .mode64 [0xC5, 0x28, 0x14, 0xCB] (.vunpcklpsVex128C5 [] 9 10 (.reg 3)) = true := by decide
theorem test_decode_vex128C4 :
    decodesTo .mode64 [0xC4, 0xE1, 0xE8, 0x14, 0xCB] (.vunpcklpsVex128C4 [] true false false 1 2 (.reg 3)) = true := by decide
theorem test_decode_vex256C5 : decodesTo .mode64 [0xC5, 0xFC, 0x14, 0xD1] (.vunpcklpsVex256C5 [] 2 0 (.reg 1)) = true := by decide
theorem test_decode_vex256C4 :
    decodesTo .mode64 [0xC4, 0xC1, 0x6C, 0x14, 0x4C, 0xC8, 0xFC]
      (.vunpcklpsVex256C4 [] false false true 1 2 (.sib8 3 1 0 0xFC)) = true := by decide
theorem test_decode_evex128 :
    decodesTo .mode64 [0x62, 0xE1, 0x6C, 0x08, 0x14, 0xC3] (.vunpcklpsEvex128 [] false false 16 2 0 false false (.reg 3)) = true := by
  decide
theorem test_decode_evex256 :
    decodesTo .mode64 [0x62, 0xF1, 0x6C, 0x39, 0x14, 0x48, 0x02]
      (.vunpcklpsEvex256 [] false false 1 2 1 false true (.ind8 0 2)) = true := by decide
theorem test_decode_evex512 :
    decodesTo .mode64 [0x62, 0x81, 0x0C, 0x47, 0x14, 0xC9]
      (.vunpcklpsEvex512 [] true true 17 30 7 false false (.reg 1)) = true := by decide
theorem test_decode_mode32 :
    decodesTo .mode32 [0x0F, 0x14, 0x0D, 0x00, 0x10, 0x00, 0x00] (.unpcklps [] 1 (.disp32 0x1000)) = true
    ∧ decodesTo .mode32 [0x67, 0x0F, 0x14, 0x08] (.unpcklps [.addrSize] 1 (.ind16 0)) = true
    ∧ decodesTo .mode32 [0xC5, 0xCC, 0x14, 0x38] (.vunpcklpsVex256C5 [] 7 6 (.ind 0)) = true
    ∧ decodesTo .mode32 [0x62, 0xF1, 0x6C, 0xD9, 0x14, 0x08]
        (.vunpcklpsEvex512 [] false false 1 2 1 true true (.ind 0)) = true := by decide

/-- E1, E3, E5: the records. -/
theorem test_record_registers :
    record .mode64 (.unpcklps [.rex false true false true] 0 (.reg 7)) = ⟨.legacy128, 8, 8, .reg 15, 0, false, 4⟩
    ∧ record .mode64 (.vunpcklpsVex128C5 [] 9 10 (.reg 3)) = ⟨.vex128, 9, 10, .reg 3, 0, false, 4⟩
    ∧ record .mode64 (.vunpcklpsEvex512 [] true true 17 30 7 false false (.reg 1)) = ⟨.evex512, 17, 30, .reg 25, 7, false, 6⟩ := by
  decide

/-- E2, E4, E6, E7, E8 and the first of E10: the memory operands. -/
theorem test_record_memory :
    (record .mode64 (.unpcklps [] 1 (.sib32 2 1 4 0x100))).src2 = .mem ⟨.ss, some 4, some 1, 4, 0x100, false, .a64⟩ false
    ∧ (record .mode64 (.vunpcklpsVex256C4 [] false false true 1 2 (.sib8 3 1 0 0xFC))).src2
        = .mem ⟨.ds, some 8, some 1, 8, -4, false, .a64⟩ false
    ∧ (record .mode64 (.vunpcklpsEvex256 [] false false 1 2 1 false true (.ind8 0 2))).src2
        = .mem ⟨.ds, some 0, none, 1, 8, false, .a64⟩ true
    ∧ (record .mode64 (.unpcklps [.seg .fs] 2 (.ind 0))).src2 = .mem ⟨.fs, some 0, none, 1, 0, false, .a64⟩ false
    ∧ (record .mode64 (.unpcklps [.addrSize] 2 (.ind 0))).src2 = .mem ⟨.ds, some 0, none, 1, 0, false, .a32⟩ false
    ∧ (record .mode32 (.unpcklps [] 1 (.ind8 5 8))).src2 = .mem ⟨.ss, some 5, none, 1, 8, false, .a32⟩ false := by decide

/-- X and B on a memory operand: `[r12 + r9*4]` with REX.XB, with `~X` and `~B` of C4, and of EVEX (R64, R66, R69, R73, by hand). -/
theorem test_record_index_extension :
    ∀ bs ∈ [[0x43#8, 0x0F#8, 0x14#8, 0x0C#8, 0x8C#8], [0xC4#8, 0x81#8, 0x68#8, 0x14#8, 0x0C#8, 0x8C#8],
        [0x62#8, 0x91#8, 0x6C#8, 0x08#8, 0x14#8, 0x0C#8, 0x8C#8]],
      (match decode .mode64 bs with
        | .ok i => (record .mode64 i).src2 == .mem ⟨.ds, some 12, some 9, 4, 0, false, .a64⟩ false
        | .error _ => false) = true := by decide

/-- The rows of the table of R80 that are refused or invalid, and bytes that end too early. -/
theorem test_decode_rejects :
    decodeFails .mode64 [0x66, 0x0F, 0x14, 0xC1] (.other .opSizeBeforeLegacy) = true
    ∧ decodeFails .mode64 [0xF3, 0x0F, 0x14, 0xC1] (.invalid .repBeforeLegacy) = true
    ∧ decodeFails .mode64 [0xC5, 0xE9, 0x14, 0xCB] (.other .vexPd) = true
    ∧ decodeFails .mode64 [0xC5, 0xEA, 0x14, 0xCB] (.invalid .vexPp) = true
    ∧ decodeFails .mode64 [0x62, 0xF1, 0xEC, 0x48, 0x14, 0xCB] (.invalid .evexW) = true
    ∧ decodeFails .mode64 [0x62, 0xF1, 0x6C, 0x68, 0x14, 0xCB] (.invalid .evexLength) = true
    ∧ decodeFails .mode64 [0x62, 0xF1, 0x6C, 0x58, 0x14, 0xCB] (.invalid .evexBcstReg) = true
    ∧ decodeFails .mode64 [0x62, 0xF1, 0x6C, 0xC8, 0x14, 0xCB] (.invalid .evexZeroNoMask) = true
    ∧ decodeFails .mode64 [0x0F, 0x15, 0xC1] (.other .opcode) = true
    ∧ decodeFails .mode64 [0x0F, 0x14] .truncated = true := by decide

/-- Bytes that only a `#UD` row of R80 describes, beside an EVEX `pp` or map of another instruction: 66 before 62; `P1[2] = 0` with
`pp = 01`; `P0[3:2]` not 00 with `mm = 10`; 66 before 62 and before C5 with another opcode. Without such a row they are another
instruction. -/
theorem test_decode_invalid_beside_other :
    decodeFails .mode64 [0x66, 0x62, 0xF1, 0xED, 0x08, 0x14, 0xCB] (.invalid .badBeforeVex) = true
    ∧ decodeFails .mode64 [0x62, 0xF1, 0x69, 0x08, 0x14, 0xCB] (.invalid .evexFixedBits) = true
    ∧ decodeFails .mode64 [0x62, 0xF6, 0x6C, 0x08, 0x14, 0xCB] (.invalid .evexFixedBits) = true
    ∧ decodeFails .mode64 [0x66, 0x62, 0xF1, 0x6C, 0x08, 0x15, 0xCB] (.invalid .badBeforeVex) = true
    ∧ decodeFails .mode64 [0x66, 0xC5, 0xE8, 0x15, 0xCB] (.invalid .badBeforeVex) = true
    ∧ decodeFails .mode64 [0x62, 0xF1, 0xED, 0x08, 0x14, 0xCB] (.other .evexPp) = true
    ∧ decodeFails .mode64 [0x62, 0xF2, 0x6C, 0x08, 0x14, 0xCB] (.other .evexMap) = true := by decide

/-- The words of spec/opcode_table.json, first byte most significant. -/
theorem test_decode_table :
    decodeTableWord 24 0x0F1400 = some (.unpcklps [] 0 (.ind 0))
    ∧ decodeTableWord 32 0xC5F81400 = some (.vunpcklpsVex128C5 [] 0 0 (.ind 0))
    ∧ decodeTableWord 40 0xC4E17C1400 = some (.vunpcklpsVex256C4 [] false false false 0 0 (.ind 0))
    ∧ decodeTableWord 48 0x62F17C481400 = some (.vunpcklpsEvex512 [] false false 0 0 0 false false (.ind 0)) := by decide

/-- The CPUID bits of R33, each alone. -/
theorem test_cpuid :
    Features.ofCpuid 0x02000000 0 0 = ⟨true, false, false, false⟩ ∧ Features.ofCpuid 0 0x10000000 0 = ⟨false, true, false, false⟩
    ∧ Features.ofCpuid 0 0 0x00010000 = ⟨false, false, true, false⟩ ∧ Features.ofCpuid 0 0 0x80000000 = ⟨false, false, false, true⟩ := by
  decide

/-- S2 with `s = D`, `k = 0xFA` of the 128-bit masked intrinsics: only bits 3:0 of the mask are used. -/
theorem test_intrinsics :
    (Intrinsic.maskUnpacklo .v128).value D 0xFA A B = vec [0xDDDD00D0, 0xBBBB00B0, 0xDDDD00D2, 0xBBBB00B1]
    ∧ (Intrinsic.maskzUnpacklo .v128).value D 0xFA A B = vec [0, 0xBBBB00B0, 0, 0xBBBB00B1] := by decide +kernel

/-! ## Execution: vectors of 95_test_vectors.md, run by one step from their bytes -/

/-- A processor with SSE only. -/
def sV9 : State :=
  { s64 with
    cfg := ⟨.v128, 16, ⟨true, false, false, false⟩⟩
    zmm := (s64.zmm.set 0 (truncate .v128 A)).set 1 (truncate .v128 B) }

/-- V2: the sources are read before the destination is written. V9: with `MAXVL = 128` there is nothing above bit 127 to keep. -/
theorem test_legacy_register :
    ends 0 (vec [0xAAAA00A0, 0xAAAA00A0, 0xAAAA00A1, 0xAAAA00A1, 0xAAAA00A4, 0xAAAA00A5, 0xAAAA00A6, 0xAAAA00A7,
    0xAAAA00A8, 0xAAAA00A9, 0xAAAA00AA, 0xAAAA00AB, 0xAAAA00AC, 0xAAAA00AD, 0xAAAA00AE, 0xAAAA00AF]) 0x1003
    (step ((regs s64).withCode [0x0F, 0x14, 0xC0])) = true
    ∧ ends 0 (vec [0xAAAA00A0, 0xBBBB00B0, 0xAAAA00A1, 0xBBBB00B1]) 0x1003
    (step (sV9.withCode [0x0F, 0x14, 0xC1])) = true := by decide +kernel

/-- V6: a memory operand, little-endian; bits 511:128 are kept. P4, step 1: 32-bit mode, the operand through SS. -/
theorem test_legacy_memory :
    ends 0 (vec [0xAAAA00A0, 0x03020100, 0xAAAA00A1, 0x07060504, 0xAAAA00A4, 0xAAAA00A5, 0xAAAA00A6, 0xAAAA00A7,
    0xAAAA00A8, 0xAAAA00A9, 0xAAAA00AA, 0xAAAA00AB, 0xAAAA00AC, 0xAAAA00AD, 0xAAAA00AE, 0xAAAA00AF]) 0x1003
    (step ((withMem (withGpr (regs s64) 0 0x8000) 0x8000 (List.range 16)).withCode [0x0F, 0x14, 0x00])) = true
    ∧ ends 1 (vec [0xDDDD00D0, 0x13121110, 0xDDDD00D1, 0x17161514, 0xDDDD00D4, 0xDDDD00D5, 0xDDDD00D6, 0xDDDD00D7,
    0xDDDD00D8, 0xDDDD00D9, 0xDDDD00DA, 0xDDDD00DB, 0xDDDD00DC, 0xDDDD00DD, 0xDDDD00DE, 0xDDDD00DF]) 0x1004
    (step ((withMem (withGpr (regs s32) 5 0x12FF08) 0x12FF10 ((List.range 16).map (0x10 + ·))).withCode
      [0x0F, 0x14, 0x4D, 0x08])) = true := by decide +kernel

/-- V25: an unaligned operand is legal for the VEX form; bits 511:128 become 0. -/
theorem test_V25 : ends 3 (vec [0xAAAA00A0, 0x14131211, 0xAAAA00A1, 0x18171615]) 0x1005
    (step ((withMem (withGpr (regs s64) 3 0x8001) 0x8000 (List.range 64)).withCode [0xC5, 0xF8, 0x14, 0x5B, 0x10])) = true := by
  decide +kernel

/-- V6 through segments with a base (R29, R40): in 64-bit mode through FS at 0x8000, and through DS, whose base is not added; in
32-bit mode through DS, whose base is. -/
theorem test_segment_bases :
    let v := vec [0xAAAA00A0, 0x03020100, 0xAAAA00A1, 0x07060504, 0xAAAA00A4, 0xAAAA00A5, 0xAAAA00A6, 0xAAAA00A7,
      0xAAAA00A8, 0xAAAA00A9, 0xAAAA00AA, 0xAAAA00AB, 0xAAAA00AC, 0xAAAA00AD, 0xAAAA00AE, 0xAAAA00AF]
    let s := withMem (withGpr (regs s64) 0 0x100) 0x8100 (List.range 16)
    ends 0 v 0x1004 (step ({ s with fs := { flat with base := 0x8000 } }.withCode [0x64, 0x0F, 0x14, 0x00])) = true
    ∧ ends 0 v 0x1003 (step ({ withGpr s 0 0x8100 with ds := { flat with base := 0x8000 } }.withCode [0x0F, 0x14, 0x00])) = true
    ∧ ends 0 v 0x1003 (step ({ s32 with mem := s.mem, gpr := s.gpr, zmm := s.zmm, ds := { flat with base := 0x8000 } }.withCode
        [0x0F, 0x14, 0x00])) = true := by decide +kernel

/-- V21: the three-byte spelling, with `W = 1`. -/
theorem test_V21 : ends 1 (vec [0xAAAA00A0, 0xBBBB00B0, 0xAAAA00A1, 0xBBBB00B1]) 0x1005
    (step ((regs s64).withCode [0xC4, 0xE1, 0xE8, 0x14, 0xCB])) = true := by decide +kernel

/-- V26: lane 1 comes from elements 4 and 5. -/
theorem test_V26 : ends 2 (vec [0xAAAA00A0, 0xDDDD00D0, 0xAAAA00A1, 0xDDDD00D1, 0xAAAA00A4, 0xDDDD00D4, 0xAAAA00A5, 0xDDDD00D5])
    0x1004 (step ((regs s64).withCode [0xC5, 0xFC, 0x14, 0xD1])) = true := by decide +kernel

/-- V28: SIB with scale 8, `VEX.B` on the base, disp8 = -4 unscaled; the operand at 0x9100 holds bytes 0, 1, 2, .... -/
theorem test_V28 : ends 1 (vec [0xAAAA00A0, 0x03020100, 0xAAAA00A1, 0x07060504, 0xAAAA00A4, 0x13121110, 0xAAAA00A5, 0x17161514])
    0x1007 (step ((withMem (withGpr (withGpr (regs s64) 8 0x9004) 1 0x20) 0x9100 (List.range 32)).withCode
      [0xC4, 0xC1, 0x6C, 0x14, 0x4C, 0xC8, 0xFC])) = true := by decide +kernel

/-- V42: merging, with `k1[3:0] = 1010`. -/
theorem test_V42 : ends 1 (vec [0xDDDD00D0, 0xBBBB00B0, 0xDDDD00D2, 0xBBBB00B1]) 0x1006
    (step ((withK (regs s64) 1 0xFA).withCode [0x62, 0xF1, 0x6C, 0x09, 0x14, 0xCB])) = true := by decide +kernel

/-- V45: broadcast, with disp8 = 3 scaled by 4. -/
theorem test_V45 : ends 1 (vec [0xAAAA00A0, 0xDEADBEEF, 0xAAAA00A1, 0xDEADBEEF]) 0x1008
    (step ((withMem (withGpr (withGpr (withK (regs s64) 3 0x0F) 0 0x8000) 3 0x10) 0x802C [0xEF, 0xBE, 0xAD, 0xDE]).withCode
      [0x62, 0xF1, 0x6C, 0x1B, 0x14, 0x4C, 0x58, 0x03])) = true := by decide +kernel

/-- V47: merging keeps the old upper lane, and bits 511:256 are zeroed. -/
theorem test_V47 : ends 1 (vec [0xAAAA00A0, 0xBBBB00B0, 0xAAAA00A1, 0xBBBB00B1, 0xDDDD00D4, 0xDDDD00D5, 0xDDDD00D6, 0xDDDD00D7])
    0x1006 (step ((withK (regs s64) 1 0x0F).withCode [0x62, 0xF1, 0x6C, 0x29, 0x14, 0xCB])) = true := by decide +kernel

/-- V48: zeroing with k2. -/
theorem test_V48 : ends 1 (vec [0xAAAA00A0, 0xBBBB00B0, 0, 0, 0, 0, 0xAAAA00A5, 0xBBBB00B5]) 0x1006
    (step ((withK (regs s64) 2 0xC3).withCode [0x62, 0xF1, 0x6C, 0xAA, 0x14, 0xCB])) = true := by decide +kernel

/-- V62: zeroing with a scattered mask. -/
theorem test_V62 : ends 1 (vec [0xAAAA00A0, 0, 0xAAAA00A1, 0, 0, 0xBBBB00B4, 0, 0xBBBB00B5, 0xAAAA00A8, 0, 0xAAAA00A9, 0, 0,
    0xBBBB00BC, 0, 0xBBBB00BD]) 0x1006
    (step ((withK (regs s64) 1 0xA5A5).withCode [0x62, 0xF1, 0x6C, 0xC9, 0x14, 0xCB])) = true := by decide +kernel

/-- V66: registers 16 to 31 through `R'`, `V'` and `X`. -/
theorem test_V66 : ends 17 (vec [0xAAAA00A0, 0xDDDD00D1, 0xDDDD00D2, 0xDDDD00D3, 0xDDDD00D4, 0xDDDD00D5, 0xDDDD00D6, 0xDDDD00D7,
    0xDDDD00D8, 0xDDDD00D9, 0xDDDD00DA, 0xDDDD00DB, 0xDDDD00DC, 0xDDDD00DD, 0xDDDD00DE, 0xBBBB00BD]) 0x1006
    (step (({ withK s64 7 0x8001 with zmm := ((s64.zmm.set 17 D).set 30 A).set 25 B }).withCode
      [0x62, 0x81, 0x0C, 0x47, 0x14, 0xC9])) = true := by decide +kernel

/-! ## Faults: V7, V8, F1 to F6 -/

/-- V7 and V8: the legacy form's operand is not aligned to 16 bytes. -/
theorem test_V7_V8 :
    faultIs .generalProtection (step ((withGpr s64 3 0x8001).withCode [0x0F, 0x14, 0x5B, 0x10])) = true
    ∧ faultIs .generalProtection (step ((withGpr s64 3 0x8008).withCode [0x0F, 0x14, 0x5B, 0x10])) = true := by decide +kernel

/-- F1, F2 and F3: the order of the checks. -/
theorem test_F1_F2_F3 :
    faultIs .invalidOpcode (step ({ withGpr s64 0 0x8001 with cr0 := s64.cr0 ||| 0xC }.withCode [0x0F, 0x14, 0x00])) = true
    ∧ faultIs .deviceNotAvailable (step ({ withGpr s64 0 0x8001 with cr0 := s64.cr0 ||| 0x8 }.withCode [0x0F, 0x14, 0x00])) = true
    ∧ faultIs .generalProtection (exec (.unpcklps [] 0 (.ind 0)) { withGpr s64 0 0x8001 with pages := [] }) = true := by
  decide +kernel

/-- F4 and F5: a non-canonical address, through DS and through SS. -/
theorem test_F4_F5 :
    faultIs .generalProtection (step ((withGpr s64 0 0x800000000000).withCode [0x0F, 0x14, 0x00])) = true
    ∧ faultIs .stackSegment (step ((withGpr s64 4 0x800000000000).withCode [0x0F, 0x14, 0x04, 0x24])) = true := by decide +kernel

/-- F6: an operand that spans two pages, the second of them absent, at `CPL = 3`. -/
def sF6 : State := { withGpr s64 0 0x8FF8 with pages := [PageRange.anyAccess 0 0x9000 0 .user], cs := ⟨3, 0, 0, true, true⟩ }

/-- F6: the address reported is one of the second page's and the code has the user bit only. Which of the eight it is is free,
so the test names the list it is drawn from. -/
theorem test_F6 : sF6.segmentAllows .ds 0x8FF8 16 = true
    ∧ sF6.byteFaults 0x8FF8 16
      = (List.range 8).map fun n => .pageFault ⟨false, false, true, false, false, false⟩ (BitVec.ofNat 64 (0x9000 + n)) := by
  decide +kernel

/-- A range may be for reads alone, or for some privilege levels alone. -/
theorem test_translate_by_access_and_level :
    let s := { s64 with pages := [{ PageRange.anyAccess 0 0x1000 0x5000 .user with fetch := false, levels := [0] }] }
    let at3 := { s with cs := ⟨3, 0, 0, true, true⟩ }
    (match s.translate .read 0x10 with | .ok pa => pa == 0x5010 | .error _ => false) = true
    ∧ (match s.translate .fetch 0x10 with | .ok _ => false | .error c => c.fetch && !c.present) = true
    ∧ (match at3.translate .read 0x10 with | .ok _ => false | .error c => c.user && !c.fetch) = true := by decide +kernel

/-! ## Witnesses: a state and operands that meet the hypotheses of each statement -/

/-- O1: a well-formed instruction of every constructor; the first has the greatest length. -/
theorem witness_DecodeInvertsEncode :
    wellFormed .mode64 (.unpcklps (List.replicate 12 (.seg .ds)) 0 (.reg 1)) = true
    ∧ wellFormed .mode64 (.vunpcklpsVex128C5 [] 15 15 (.reg 7)) = true
    ∧ wellFormed .mode64 (.vunpcklpsVex128C4 [.seg .fs] true true true 15 0 (.sib32 3 7 5 0xFFFFFFFF)) = true
    ∧ wellFormed .mode32 (.vunpcklpsVex256C5 [.addrSize] 7 7 (.ind16d16 7 0xFFFF)) = true
    ∧ wellFormed .mode32 (.vunpcklpsVex256C4 [] true false false 7 7 (.disp32 0x1000)) = true
    ∧ wellFormed .mode64 (.vunpcklpsEvex128 [] true true 31 31 7 true true (.ind8 5 0x80)) = true
    ∧ wellFormed .mode32 (.vunpcklpsEvex256 [.seg .gs] false false 7 7 0 false false (.reg 7)) = true
    ∧ wellFormed .mode64 (.vunpcklpsEvex512 [.addrSize] false true 0 16 1 false true (.sibDisp32 0 4 0)) = true := by decide

/-- O2 and O3: bytes that the decoder accepts, with a byte left over. -/
theorem witness_EncodeInvertsDecode :
    decode .mode64 [0x62, 0x81, 0x0C, 0x47, 0x14, 0xC9, 0x90]
      = .ok (.vunpcklpsEvex512 [] true true 17 30 7 false false (.reg 1)) :=
  decode_of_decodesTo _ _ _ (by decide)

/-- O5: LOCK in front of the legacy form. -/
theorem witness_LockBeforeAnyFormIsInvalidOpcode :
    let s := s64.withCode [0xF0, 0x0F, 0x14, 0x00]
    s.admitted = true ∧ s.trapFlag = false ∧ wellFormed s.mode (.unpcklps [] 0 (.ind 0)) = true
      ∧ s.fetch = 0xF0#8 :: encode (.unpcklps [] 0 (.ind 0)) ++ List.replicate 11 0 := by decide +kernel

/-- O6: each of 66, F2, F3, F0 and a REX byte in front of a VEX form. -/
theorem witness_BadBytesBeforeVexAreInvalidOpcode :
    ∀ p ∈ [Prefix.opSize, .repne, .rep, .lock, .rex true false false false],
      let s := s64.withCode (p.byte :: [0xC5, 0xE8, 0x14, 0xCB])
      let i : Instr := .vunpcklpsVex128C5 [] 1 2 (.reg 3)
      s.admitted = true ∧ s.trapFlag = false ∧ wellFormed s.mode i = true ∧ (record s.mode i).form ≠ .legacy128
        ∧ p.okBeforeVex = false ∧ (s.mode = .mode64 ∨ hasRex [p] = false)
        ∧ s.fetch = p.byte :: encode i ++ List.replicate 10 0 := by decide +kernel

/-- O7: each of 66, F2 and F3 in front of the legacy form. -/
theorem witness_MandatoryBytesBeforeLegacy :
    ∀ p ∈ [0x66#8, 0xF2#8, 0xF3#8],
      let s := s64.withCode [p, 0x0F, 0x14, 0xC1]
      s.admitted = true ∧ s.trapFlag = false ∧ wellFormed s.mode (.unpcklps [] 0 (.reg 1)) = true
        ∧ s.fetch = p :: encode (.unpcklps [] 0 (.reg 1)) ++ List.replicate 11 0 := by decide +kernel

/-- O8: `P0 P1 P2` for each reserved field value, in the order of the statement, with the extension bits neutral, so for both modes;
the bytes in front are FS and 67 in 64-bit mode and DS in 32-bit mode. -/
theorem witness_ReservedEvexFieldsAreInvalid :
    (∀ m ∈ [Mode.mode64, .mode32], ∀ pfx ∈ [[Prefix.seg .ds], []], m.admitted = true ∧ pfx.all Prefix.okBeforeVex = true
      ∧ (RM.reg 3).fits (addrSize m pfx) = true ∧ pfx.length + 5 + (RM.reg 3).len ≤ 15 ∧ pfx.contains .addrSize = false)
    ∧ [Prefix.seg .fs, .addrSize].all Prefix.okBeforeVex = true ∧ (RM.reg 3).isReg = true
    ∧ (∀ p0 ∈ [0xF5#8, 0xF1#8], p0.extractLsb' 4 4 = 15#4) ∧ (∀ p1 ∈ [0x68#8, 0x69#8, 0xEC#8], p1.getLsbD 6 = true)
    ∧ (∀ p2 ∈ [0x68#8, 0x88#8, 0x18#8], p2.getLsbD 3 = true)
    ∧ (0xF5#8).extractLsb' 2 2 ≠ 0#2 ∧ (0x68#8).getLsbD 2 = false ∧ (0x69#8).getLsbD 2 = false
    ∧ (0xEC#8).getLsbD 7 = true ∧ (0xEC#8).extractLsb' 0 2 = 0#2 ∧ (0x68#8).extractLsb' 5 2 = 3#2
    ∧ (0x88#8).getLsbD 7 = true ∧ (0x88#8).extractLsb' 0 3 = 0#3 ∧ (0x18#8).getLsbD 4 = true := by decide

/-- O9: one sequence for each clause: C5 with `pp` 01, 10, 11; C4 with maps 0 and 2, with `pp` 01, 10 and 00; in both modes, behind a
segment override and 67. -/
theorem witness_VexNeighboursAreRefusedOrInvalid :
    (∀ m ∈ [Mode.mode64, .mode32], m.admitted = true ∧ (RM.reg 3).fits (addrSize m [.seg .gs, .addrSize]) = true)
    ∧ [Prefix.seg .gs, .addrSize].all Prefix.okBeforeVex = true ∧ 2 + 4 + (RM.reg 3).len ≤ 15
    ∧ (∀ p ∈ [0xE9#8, 0xEA#8, 0xEB#8], p.extractLsb' 6 2 = 3#2) ∧ (∀ p0 ∈ [0xE0#8, 0xE2#8, 0xE1#8], p0.extractLsb' 5 3 = 7#3)
    ∧ (∀ p1 ∈ [0x69#8, 0x6A#8, 0xE8#8], p1.getLsbD 6 = true)
    ∧ (0xE9#8).extractLsb' 0 2 = 1#2 ∧ (0xEA#8).getLsbD 1 = true ∧ (0xEB#8).getLsbD 1 = true
    ∧ (0xE0#8).extractLsb' 0 5 ≠ 1#5 ∧ (0xE2#8).extractLsb' 0 5 ≠ 1#5 ∧ (0xE1#8).extractLsb' 0 5 = 1#5
    ∧ (0x69#8).extractLsb' 0 2 = 1#2 ∧ (0x6A#8).getLsbD 1 = true ∧ (0xE8#8).extractLsb' 0 2 = 0#2 := by decide

/-- O11: the shortest instruction that is too long, 16 bytes. -/
theorem witness_LongInstructionIsGeneralProtection :
    let i : Instr := .unpcklps (List.replicate 13 (.seg .ds)) 0 (.reg 1)
    let s := s64.withCode ((encode i).take 15)
    s.admitted = true ∧ s.trapFlag = false ∧ frontFits s.mode i = true ∧ operandFits s.mode i = true
      ∧ extensionFits s.mode i = true ∧ i.len = 16 ∧ s.fetch = (encode i).take 15 := by decide +kernel

/-- O12: LES, LDS and BOUND bytes; an extension bit of each kind; EVEX with 67. -/
theorem witness_Mode32RefusesWhatItIsUnsureOf :
    (0x00#8).extractLsb' 6 2 ≠ 3#2 ∧ (0xBF#8).extractLsb' 6 2 ≠ 3#2
    ∧ (∀ i ∈ [Instr.vunpcklpsVex128C5 [] 8 2 (.reg 3), .vunpcklpsVex128C4 [] false true false 1 2 (.reg 3),
          .vunpcklpsVex256C4 [] false false true 1 2 (.reg 3), .vunpcklpsVex256C4 [] false false false 1 8 (.reg 3),
          .vunpcklpsEvex512 [] false false 16 2 0 false false (.reg 3), .vunpcklpsEvex128 [] false false 1 16 0 false false (.reg 3)],
        wellFormed .mode64 i = true ∧ extensionFits .mode32 i = false)
    ∧ (let i : Instr := .vunpcklpsEvex256 [.addrSize] false false 1 2 0 false false (.ind 0)
       wellFormed .mode64 i = true ∧ extensionFits .mode32 i = true ∧ (record .mode64 i).form.isEvex = true
        ∧ frontFits .mode32 i = false) := by decide

/-- O13: a state whose next instruction decodes, one with TF set, and one state for each of the five errors. -/
theorem witness_StepRunsDecodedInstruction :
    let s := s64.withCode [0xC5, 0xE8, 0x14, 0xCB]
    let fails (s : State) (e : DecodeError) : Bool := s.admitted && !s.trapFlag && decodeFails s.mode s.fetch e
    s.admitted = true ∧ s.trapFlag = false ∧ decodesTo s.mode s.fetch (.vunpcklpsVex128C5 [] 1 2 (.reg 3)) = true
    ∧ ({ s with rflags := 0x102 } : State).admitted = true ∧ ({ s with rflags := 0x102 } : State).trapFlag = true
    ∧ fails (s64.withCode (List.replicate 15 0x3E)) .tooLong = true
    ∧ fails (s64.withCode [0xF0, 0x0F, 0x14, 0xC1]) (.invalid .lock) = true
    ∧ fails { s64 with pages := [] } .truncated = true
    ∧ fails (s64.withCode [0xC5, 0xE9, 0x14, 0xCB]) (.other .vexPd) = true
    ∧ fails (s32.withCode [0xC4, 0xC1, 0x68, 0x14, 0xCB]) (.uncertain .mode32Extension) = true := by decide +kernel

/-- O14: the bytes of memory at the program counter, one by one. -/
theorem witness_EncodedBytesAtProgramCounterRun :
    let s := s64.withCode [0xC5, 0xE8, 0x14, 0xCB]
    let i : Instr := .vunpcklpsVex128C5 [] 1 2 (.reg 3)
    s.admitted = true ∧ s.trapFlag = false ∧ wellFormed s.mode i = true
      ∧ ∀ n, n < i.len → s.codeAddress n = some (0x1000 + n) ∧ (encode i)[n]? = some (s.mem.read (0x1000 + n)) := by
  decide +kernel

/-- O15: a table word that decodes. -/
theorem witness_LaunchedWordRuns : decodeTableWord 32 0xC5F81400 = some (.vunpcklpsVex128C5 [] 0 0 (.ind 0)) := by decide

/-- O16 and O18: a state that meets the invariant and completes a step. -/
theorem witness_StepKeepsInvariant : ∃ s t : State, s.Inv ∧ step s = .next t := by
  have h : nextIs (fun _ => true) (step ((regs s64).withCode [0xC5, 0xE8, 0x14, 0xCB])) = true := by decide +kernel
  obtain ⟨t, ht⟩ := next_of_nextIs _ _ h
  exact ⟨_, t, ⟨by decide +kernel, by unfold State.vectorsFit; decide +kernel, by unfold State.masksFit; decide +kernel,
    fun h => absurd h (by decide +kernel), fun _ => by decide +kernel, by decide +kernel⟩, ht⟩

/-- O17: the reset state is in an excluded mode; a state of 64-bit mode with `EFLAGS.VM = 1`. -/
theorem witness_NothingRunsInExcludedModes : State.reset.mode ≠ .mode64 ∧ State.reset.mode ≠ .mode32
    ∧ ({ s64 with rflags := 0x20002 } : State).rflags.getLsbD 17 = true := by decide

/-- `EFLAGS.VM = 1`: the step is refused; a VEX form's own check says `#UD`, and the legacy form is refused. -/
theorem test_vm_flag :
    refusedIs .excludedMode (step { s64.withCode [0xC5, 0xE8, 0x14, 0xCB] with rflags := 0x20002 }) = true
    ∧ faultIs .invalidOpcode (exec (.vunpcklpsVex128C5 [] 1 2 (.reg 3)) { s64 with rflags := 0x20002 }) = true
    ∧ refusedIs .excludedMode (exec (.unpcklps [] 0 (.reg 1)) { s64 with rflags := 0x20002 }) = true := by decide +kernel

/-- O20: the legacy form with a register and with an aligned memory operand, enabled on a processor with SSE only. -/
theorem witness_LegacyFormInterleavesAndKeepsUpperBits :
    sV9.ready .legacy128 = true ∧ sV9.srcReadable (record sV9.mode (.unpcklps [] 0 (.reg 1))) = true
    ∧ (withGpr sV9 0 0x8000).srcReadable (record sV9.mode (.unpcklps [] 0 (.ind 0))) = true := by decide +kernel

/-- O21: the four constructors of forms 2 and 3, each with a register and with an unaligned memory operand. -/
theorem witness_VexFormsInterleaveAndZeroUpperBits :
    ∀ i ∈ [Instr.vunpcklpsVex128C5 [] 1 2 (.reg 3), .vunpcklpsVex128C5 [] 1 2 (.ind 0),
        .vunpcklpsVex128C4 [] true true true 1 2 (.reg 3), .vunpcklpsVex128C4 [] false false false 1 2 (.ind 0),
        .vunpcklpsVex256C5 [] 1 2 (.reg 3), .vunpcklpsVex256C5 [] 1 2 (.ind 0),
        .vunpcklpsVex256C4 [] true true true 1 2 (.reg 3), .vunpcklpsVex256C4 [] false false false 1 2 (.ind 0)],
      (withGpr s64 0 0x8001).ready (record s64.mode i).form = true
        ∧ (withGpr s64 0 0x8001).srcReadable (record s64.mode i) = true := by decide +kernel

/-- O22 to O24: the three EVEX constructors, each with a register, a full memory operand and a broadcast. -/
theorem witness_EvexInterleavesUnderMask :
    ∀ i ∈ [Instr.vunpcklpsEvex128 [] false false 1 2 0 false false (.reg 3), .vunpcklpsEvex128 [] false false 1 2 7 true false (.ind 0),
        .vunpcklpsEvex128 [] false false 1 2 7 false true (.ind 0),
        .vunpcklpsEvex256 [] false false 1 2 0 false false (.reg 3), .vunpcklpsEvex256 [] false false 1 2 7 true false (.ind 0),
        .vunpcklpsEvex256 [] false false 1 2 7 false true (.ind 0),
        .vunpcklpsEvex512 [] false false 1 2 0 false false (.reg 3), .vunpcklpsEvex512 [] false false 1 2 7 true false (.ind 0),
        .vunpcklpsEvex512 [] false false 1 2 7 false true (.ind 0)],
      (withGpr s64 0 0x8001).ready (record s64.mode i).form = true ∧ zeroingFits i = true ∧ broadcastFits i = true
        ∧ (withGpr s64 0 0x8001).srcReadable (record s64.mode i) = true := by decide +kernel

/-- O25 and O31: an execution that completes, with one register as both sources and no mask. -/
theorem witness_ExecutionFrame : s64.cfg.wf = true
    ∧ (∃ t, exec (.vunpcklpsEvex512 [] false false 1 2 0 false false (.reg 2)) (regs s64) = .next t)
    ∧ (record s64.mode (.vunpcklpsEvex512 [] false false 1 2 0 false false (.reg 2))).src2 = .reg 2
    ∧ (record s64.mode (.vunpcklpsEvex512 [] false false 1 2 0 false false (.reg 2))).src1 = 2
    ∧ (record s64.mode (.vunpcklpsEvex512 [] false false 1 2 0 false false (.reg 2))).aaa = 0 :=
  ⟨by decide, next_of_nextIs (fun _ => true) _ (by decide +kernel), by decide, by decide, by decide⟩

/-- O29: two vectors that differ in elements 2 and 3 of every lane. -/
theorem witness_UpperQuadwordsAreIgnored :
    let a := vec [1, 2, 3, 4, 5, 6, 7, 8, 9, 10, 11, 12, 13, 14, 15, 16]
    let a' := vec [1, 2, 0, 0, 5, 6, 0, 0, 9, 10, 0, 0, 13, 14, 0, 0]
    (∀ n, n < 4 → ∀ p, p < 2 → elem (4 * n + p) a = elem (4 * n + p) a') ∧ elem 2 a ≠ elem 2 a' := by decide +kernel

/-- A second source that has a value. -/
def valueIs : Except Stop Vec → Bool
  | .ok _ => true
  | .error _ => false

/-- O30: a register, a memory operand of the legacy form and of form 6, and a broadcast. -/
theorem witness_SecondSourceElements :
    ∀ i ∈ [Instr.unpcklps [] 0 (.reg 1), .unpcklps [] 0 (.ind 0), .vunpcklpsEvex512 [] false false 1 2 0 false false (.ind 0),
        .vunpcklpsEvex512 [] false false 1 2 0 false true (.ind 0)],
      valueIs (src2Value (withGpr s64 0 0x8000) true (record s64.mode i)) = true := by decide +kernel

/-- O32: forms 2 and 4, and 3 and 5, with the same operands, completing. -/
theorem witness_UnmaskedEvexAgreesWithVex :
    (∀ j, (regs s64).srcElem (record s64.mode (.vunpcklpsVex128C5 [] 1 2 (.reg 3))) j
        = (regs s64).srcElem (record s64.mode (.vunpcklpsEvex128 [] false false 1 2 0 false false (.reg 3))) j)
    ∧ (∃ t, exec (.vunpcklpsVex128C5 [] 1 2 (.reg 3)) (regs s64) = .next t)
    ∧ (∃ t, exec (.vunpcklpsEvex128 [] false false 1 2 0 false false (.reg 3)) (regs s64) = .next t)
    ∧ (∃ t, exec (.vunpcklpsVex256C5 [] 1 2 (.reg 3)) (regs s64) = .next t)
    ∧ (∃ t, exec (.vunpcklpsEvex256 [] false false 1 2 0 false false (.reg 3)) (regs s64) = .next t) :=
  ⟨fun _ => rfl, next_of_nextIs (fun _ => true) _ (by decide +kernel), next_of_nextIs (fun _ => true) _ (by decide +kernel),
    next_of_nextIs (fun _ => true) _ (by decide +kernel), next_of_nextIs (fun _ => true) _ (by decide +kernel)⟩

/-- O33: an all-ones and an all-zeros mask. -/
theorem witness_RelationsBetweenTheForms :
    (∀ j, j < 16 → (0xFFFF#64).getLsbD j = true) ∧ (∀ j, j < 16 → (0x10000#64).getLsbD j = false) ∧ (1#3 ≠ 0#3) := by decide

/-- O34: opmask registers that differ in k0 and at and above bit `KL` of the one that is named. -/
theorem witness_OnlyNamedMaskBitsAreRead :
    let s := withK s64 1 0xA5
    let k' := (s.k.set 1 0xFFFFA5).set 0 0xFF
    let r := record s.mode (.vunpcklpsEvex256 [] false false 1 2 1 false false (.reg 3))
    r.aaa ≠ 0 ∧ s.k ≠ k' ∧ ∀ j, j < r.form.vlen.elems →
      ((({ s with k := k' } : State)).readMask r.aaa).getLsbD j = (s.readMask r.aaa).getLsbD j := by decide +kernel

/-- O35: an EVEX form with a memory operand completes, with the mask all zeros. -/
theorem witness_MaskNeverSuppressesFault :
    (∃ t, exec (.vunpcklpsEvex512 [] false false 1 2 1 false false (.ind 0)) (withGpr s64 0 0x8001) = .next t)
    ∧ (record s64.mode (.vunpcklpsEvex512 [] false false 1 2 1 false false (.ind 0))).src2
        = .mem ⟨.ds, some 0, none, 1, 0, false, .a64⟩ false ∧ Form.isEvex .evex512 = true :=
  ⟨next_of_nextIs (fun _ => true) _ (by decide +kernel), by decide, by decide⟩

/-- O36: flags that differ everywhere but in `EFLAGS.AC` and `EFLAGS.VM`. -/
theorem witness_StatusRegistersAreNotRead : (0xFFFFFFFFFFF9FFFD#64).getLsbD 18 = State.reset.rflags.getLsbD 18
    ∧ (0xFFFFFFFFFFF9FFFD#64).getLsbD 17 = State.reset.rflags.getLsbD 17 := by decide

/-- O37: a register operand. -/
theorem witness_RegisterFormsIgnorePrivilege : (record .mode64 (.vunpcklpsVex256C5 [] 2 0 (.reg 1))).src2 = .reg 1 := by decide

/-- O38: memory that differs outside the operand's bytes: below it, above it, and for the legacy form in its upper 8 bytes. -/
theorem witness_OnlyOperandBytesAreRead :
    let s := withMem (withGpr s64 0 0x8000) 0x8000 ((List.range 16).map (· + 1))
    (∀ n, n < 8 → (bytesFrom 0x7FFF ([9] ++ (List.range 8).map (· + 1) ++ [77])).read (s.physical .read (s.linear .ds 0x8000 + n))
        = s.mem.read (s.physical .read (s.linear .ds 0x8000 + n)))
    ∧ (∀ n, n < 16 → (bytesFrom 0x7FFF ([9] ++ (List.range 16).map (· + 1) ++ [77])).read
        (s.physical .read (s.linear .ds 0x8000 + n)) = s.mem.read (s.physical .read (s.linear .ds 0x8000 + n)))
    ∧ (record s.mode (.unpcklps [] 0 (.ind 0))).src2 = .mem ⟨.ds, some 0, none, 1, 0, false, .a64⟩ false
    ∧ effectiveAddress s 3 ⟨.ds, some 0, none, 1, 0, false, .a64⟩ = 0x8000 := by decide +kernel

/-- O39: pages that begin and end at multiples of 16. With them an operand whose upper 8 bytes alone are on a device is refused
under both draws, and an absent page faults under both. -/
theorem witness_LegacyFetchWidthIsNotSeen :
    (∀ p ∈ [PageRange.anyAccess 0x1000 0x10 0x20 .user], p.first % 16 = 0 ∧ p.size % 16 = 0 ∧ p.phys % 16 = 0)
    ∧ (∀ narrow : Bool, refusedIs .deviceMemory
        (unpcklpsWith narrow [] 0 (.ind 0) { withGpr s64 0 0xFEE00000 with windows := [⟨0xFEE00008, 8, .device⟩] }) = true) := by
  decide +kernel

/-- O40, V12, V31, V52, V73: every condition of `#UD` that a decoded instruction can meet, one at a time. -/
theorem witness_InvalidOpcodeConditions :
    faultIs .invalidOpcode (exec (.unpcklps [] 0 (.reg 1)) { s64 with cr0 := s64.cr0 ||| 0x4 }) = true
    ∧ faultIs .invalidOpcode (exec (.unpcklps [] 0 (.reg 1)) { s64 with cr4 := 0x40020 }) = true
    ∧ faultIs .invalidOpcode (exec (.vunpcklpsVex128C5 [] 1 2 (.reg 3)) { s64 with cr4 := 0x220 }) = true
    ∧ faultIs .invalidOpcode (exec (.vunpcklpsVex128C5 [] 1 2 (.reg 3)) { s64 with xcr0 := 0xE3 }) = true
    ∧ faultIs .invalidOpcode (exec (.vunpcklpsVex256C5 [] 1 2 (.reg 3)) { s64 with mode := .virtual8086 }) = true
    ∧ faultIs .invalidOpcode (exec (.vunpcklpsVex256C4 [] true false false 1 2 (.reg 3)) { s64 with rflags := 0x20002 }) = true
    ∧ faultIs .invalidOpcode (exec (.vunpcklpsEvex512 [] false false 1 2 0 false false (.reg 3)) { s64 with xcr0 := 0x67 }) = true
    ∧ faultIs .invalidOpcode (exec (.vunpcklpsEvex128 [] false false 1 2 0 false false (.reg 3))
        { s64 with cfg := ⟨.v512, 64, ⟨true, true, true, false⟩⟩ }) = true
    ∧ faultIs .invalidOpcode (exec (.vunpcklpsEvex512 [] false false 1 2 0 true false (.reg 3)) s64) = true
    ∧ faultIs .invalidOpcode (exec (.vunpcklpsEvex512 [] false false 1 2 0 false true (.reg 3)) s64) = true := by decide +kernel

/-- O41, V11: `#NM` where the checks of `#UD` pass. -/
theorem witness_DeviceNotAvailableCondition :
    faultIs .deviceNotAvailable (exec (.unpcklps [] 0 (.reg 1)) { s64 with cr0 := s64.cr0 ||| 0x8 }) = true
    ∧ (record s64.mode (.unpcklps [] 0 (.reg 1))).form = .legacy128
    ∧ ({ s64 with cr0 := s64.cr0 ||| 0xC } : State).cr0.getLsbD 2 = true := by decide +kernel

/-- O42: an address off by one from a multiple of 16, and a segment base that is not one. -/
theorem witness_LegacyAlignmentIsEnforced :
    let s := withGpr s64 0 0x8001
    let s' := { s with fs := { s.fs with base := 8 } }
    s.ready .legacy128 = true ∧ s.segmentBase .ds % 16 = 0 ∧ s.linear .ds 0x8001 % 16 ≠ 0
    ∧ (record s.mode (.unpcklps [] 0 (.ind 0))).src2 = .mem ⟨.ds, some 0, none, 1, 0, false, .a64⟩ false
    ∧ effectiveAddress s 3 ⟨.ds, some 0, none, 1, 0, false, .a64⟩ = 0x8001
    ∧ s'.ready .legacy128 = true ∧ s'.segmentBase .fs % 16 ≠ 0
    ∧ (record s.mode (.unpcklps [.seg .fs] 0 (.ind 0))).src2 = .mem ⟨.fs, some 0, none, 1, 0, false, .a64⟩ false := by
  decide +kernel

/-- O43: the legacy form through SS and a VEX form through DS at the first non-canonical address; in 32-bit mode an operand whose
last byte is one above the limit. -/
theorem witness_SegmentViolationFaults :
    let s := withGpr (withGpr s64 4 0x800000000000) 0 0x7FFFFFFFFFF1
    let t := { withGpr s32 0 0xFF1 with ds := { flat with limit := 0xFFF } }
    s.ready .legacy128 = true ∧ s.ready .vex128 = true ∧ t.ready .vex128 = true
    ∧ s.segmentBase .ss % 16 = 0 ∧ s.linear .ss 0x800000000000 % 16 = 0
    ∧ s.segmentAllows .ss 0x800000000000 16 = false ∧ s.segmentAllows .ds 0x7FFFFFFFFFF1 16 = false
    ∧ t.segmentAllows .ds 0xFF1 16 = false
    ∧ (record s.mode (.unpcklps [] 0 (.sib 0 4 4))).src2 = .mem ⟨.ss, some 4, none, 1, 0, false, .a64⟩ false
    ∧ (record t.mode (.vunpcklpsVex128C5 [] 1 2 (.ind 0))).src2 = .mem ⟨.ds, some 0, none, 1, 0, false, .a32⟩ false := by
  decide +kernel

/-- O44: the modes of its clauses, and the check at its boundaries: the last canonical operand below and the first above, with 48 and 57 bits; the last operand
within a limit and the first beyond; a null selector; an absent and an unreadable segment. -/
theorem witness_SegmentCheckMeaning :
    let t := { s32 with ds := { flat with limit := 0xFFF } }
    s64.mode = .mode64 ∧ t.mode = .mode32 ∧ s64.segmentAllows .ds 0x7FFFFFFFFFF0 16 = true ∧ s64.segmentAllows .ds 0x7FFFFFFFFFF1 16 = false
    ∧ s64.segmentAllows .ds 0xFFFF800000000000 16 = true ∧ s64.segmentAllows .ds 0xFFFF7FFFFFFFFFFF 16 = false
    ∧ ({ s64 with cr4 := s64.cr4 ||| 0x1000 }).segmentAllows .ds 0xFFFFFFFFFFFFF0 16 = true
    ∧ ({ s64 with cr4 := s64.cr4 ||| 0x1000 }).segmentAllows .ds 0xFFFFFFFFFFFFF1 16 = false
    ∧ t.segmentAllows .ds 0xFF0 16 = true ∧ t.segmentAllows .ds 0xFF1 16 = false
    ∧ ({ t with ds := { flat with selector := 3 } }).segmentAllows .ds 0 4 = false
    ∧ ({ t with ds := { flat with present := false } }).segmentAllows .ds 0 4 = false
    ∧ ({ t with ds := { flat with readable := false } }).segmentAllows .ds 0 4 = false := by decide +kernel

/-- Translation of an address fails. -/
def translateFails (s : State) (la : Nat) : Bool :=
  match s.translate .read la with
  | .ok _ => false
  | .error _ => true

/-- O45, V51 and F6: the second page of a VEX operand is absent; the page of a legacy operand is absent. -/
theorem witness_PageFaultIsOfAnOperandByte :
    sF6.ready .vex128 = true ∧ sF6.segmentAllows .ds 0x8FF8 16 = true ∧ sF6.linear .ds 0x8FF8 + 16 ≤ 2 ^ 64
    ∧ sF6.alignmentChecking = false ∧ translateFails sF6 (sF6.linear .ds 0x8FF8 + 8) = true
    ∧ (record sF6.mode (.vunpcklpsVex128C5 [] 1 2 (.ind 0))).src2 = .mem ⟨.ds, some 0, none, 1, 0, false, .a64⟩ false
    ∧ effectiveAddress sF6 4 ⟨.ds, some 0, none, 1, 0, false, .a64⟩ = 0x8FF8
    ∧ (let s := withGpr sF6 0 0x9000
       s.ready .legacy128 = true ∧ s.segmentBase .ds % 16 = 0 ∧ s.linear .ds 0x9000 % 16 = 0 ∧ s.segmentAllows .ds 0x9000 16 = true
        ∧ translateFails s (s.linear .ds 0x9000 + 7) = true) := by decide +kernel

/-- A state in which alignment checking is active. -/
def sAC : State :=
  { s64 with cr0 := s64.cr0 ||| 0x40000, rflags := 0x40002, cs := ⟨0x2B, 0, 0xFFFFFFFF, true, true⟩ }

/-- O45 and O46 while alignment checking is active: the legacy form, and an operand of a VEX form that is aligned to its size, on an
absent page and on a device. -/
theorem witness_faults_while_alignment_checking :
    let s := withGpr sAC 0 0x9000
    let absent := { s with pages := [PageRange.anyAccess 0 0x9000 0 .user] }
    let device := { s with windows := [⟨0x9008, 8, .device⟩] }
    s.alignmentChecking = true ∧ s.linear .ds 0x9000 % 16 = 0 ∧ s.segmentAllows .ds 0x9000 16 = true
    ∧ (∀ f ∈ [Form.legacy128, .vex128], absent.ready f = true ∧ device.ready f = true)
    ∧ translateFails absent 0x9000 = true ∧ (∀ k, k < 16 → translateFails device (0x9000 + k) = false)
    ∧ device.windowAt (device.physical .read 0x900F) = some .deviceMemory
    ∧ (∀ narrow : Bool, refusedIs .deviceMemory (unpcklpsWith narrow [] 0 (.ind 0) device) = true)
    ∧ refusedIs .deviceMemory (exec (.vunpcklpsVex128C5 [] 1 2 (.ind 0)) device) = true := by decide +kernel

/-- O46: an operand whose upper 8 bytes are on a device and whose lower 8 are absent memory, for a VEX form and the legacy form. -/
theorem witness_OperandOutsideOrdinaryMemoryIsRefused :
    let s := { withGpr s64 0 0xFEE00000 with windows := [⟨0xFEE00008, 8, .device⟩, ⟨0xFEE00000, 8, .absent⟩] }
    s.ready .vex128 = true ∧ s.ready .legacy128 = true ∧ s.segmentAllows .ds 0xFEE00000 16 = true ∧ s.alignmentChecking = false
    ∧ (∀ k, k < 16 → translateFails s (s.linear .ds 0xFEE00000 + k) = false)
    ∧ s.windowAt (s.physical .read (s.linear .ds 0xFEE00000 + 15)) = some .deviceMemory
    ∧ s.windowAt (s.physical .read (s.linear .ds 0xFEE00000 + 7)) = some .absentMemory := by decide +kernel

/-- O47: a canonical operand across the top of the 64-bit space, and one across the top of the 32-bit space. -/
theorem witness_WrappingOperandIsRefused :
    let t := { s32 with ds := { flat with base := 0xFFFFFFF0 } }
    s64.ready .vex128 = true ∧ s64.segmentAllows .ds 0xFFFFFFFFFFFFFFF1 16 = true
    ∧ 2 ^ s64.linearWidth < s64.linear .ds 0xFFFFFFFFFFFFFFF1 + 16
    ∧ t.ready .evex512 = true ∧ t.segmentAllows .ds 1 16 = true ∧ 2 ^ t.linearWidth < t.linear .ds 1 + 16 := by decide +kernel

/-- O48: each of the conditions under which there is no `#AC(0)`; the last one with checking active and an aligned operand. -/
theorem witness_AlignmentCheckOnlyWhereActive :
    (record .mode64 (.unpcklps [] 0 (.ind 0))).form = .legacy128 ∧ s64.cr0.getLsbD 18 = false ∧ s64.rflags.getLsbD 18 = false
    ∧ s64.cs.selector.toNat % 4 ≠ 3 ∧ sAC.alignmentChecking = true
    ∧ (record sAC.mode (.vunpcklpsEvex512 [] false false 1 2 0 false false (.ind 0))).src2
        = .mem ⟨.ds, some 0, none, 1, 0, false, .a64⟩ false
    ∧ effectiveAddress (withGpr sAC 0 0x8000) 6 ⟨.ds, some 0, none, 1, 0, false, .a64⟩ = 0x8000
    ∧ (withGpr sAC 0 0x8000).linear .ds 0x8000 % 64 = 0 := by decide +kernel

/-- O49: a misaligned operand that is otherwise readable, with alignment checking active, for every one of forms 2 to 6 and a
broadcast. The two clauses exclude each other; which one applies is free. -/
theorem witness_MisalignedOperandFaultsOrCompletes :
    let s := withGpr sAC 0 0x8001
    s.alignmentChecking = true ∧ ∀ i ∈ [Instr.vunpcklpsVex128C5 [] 1 2 (.ind 0), .vunpcklpsVex256C5 [] 1 2 (.ind 0),
        .vunpcklpsEvex128 [] false false 1 2 1 true false (.ind 0), .vunpcklpsEvex256 [] false false 1 2 0 false true (.ind 0),
        .vunpcklpsEvex512 [] false false 1 2 0 false false (.ind 0)],
      let r := record s.mode i
      s.ready r.form = true ∧ zeroingFits i = true ∧ r.form ≠ .legacy128 ∧ ∃ bcst : Bool,
        r.src2 = .mem ⟨.ds, some 0, none, 1, 0, false, .a64⟩ bcst
        ∧ s.rangeReadable .ds (effectiveAddress s i.len ⟨.ds, some 0, none, 1, 0, false, .a64⟩) (operandBytes r.form bcst) = true
        ∧ s.linear .ds (effectiveAddress s i.len ⟨.ds, some 0, none, 1, 0, false, .a64⟩) % operandBytes r.form bcst ≠ 0 := by
  decide +kernel

/-- O51: operands of each shape that fit; the longest bytes in front of each clause; a REX byte in front that is not the last; valid
`P`, `P0 P1` and `P0 P1 P2` (that of R76's example, and one with broadcast), and neutral ones for 32-bit mode. -/
theorem witness_RegisterNumbersAreAssembled :
    (∀ o ∈ [RM.reg 1, .ind 0, .sib 2 1 4, .sibDisp32 0 1 0x10], o.fits (addrSize .mode64 []) = true ∧ o.fits (addrSize .mode32 []) = true)
    ∧ (RM.ind16d8 2 1).fits (addrSize .mode32 [.addrSize]) = true
    ∧ (List.replicate 12 (Prefix.seg .ds)).all Prefix.okBeforeLegacy = true ∧ 12 + 2 + 1 ≤ 15
    ∧ [Prefix.rex true true true true, .addrSize].all Prefix.okBeforeLegacy = true
    ∧ (∀ w r x b, [Prefix.rex true true true true, .addrSize].getLast? ≠ some (.rex w r x b))
    ∧ (List.replicate 11 (Prefix.seg .ds)).all Prefix.okBeforeVex = true ∧ hasRex [.seg .fs, .addrSize] = false
    ∧ (0x28#8).extractLsb' 0 2 = 0#2 ∧ (0xE8#8).extractLsb' 6 2 = 3#2
    ∧ (0xC1#8).extractLsb' 0 5 = 1#5 ∧ (0xE1#8).extractLsb' 5 3 = 7#3 ∧ (0x6C#8).extractLsb' 0 2 = 0#2 ∧ (0x6C#8).getLsbD 6 = true
    ∧ (0x81#8).extractLsb' 0 4 = 1#4 ∧ (0x0C#8).extractLsb' 0 3 = 4#3 ∧ (0x0C#8).getLsbD 7 = false
    ∧ (0x47#8).extractLsb' 5 2 ≠ 3#2 ∧ (0x47#8).getLsbD 7 = false ∧ (0x47#8).getLsbD 4 = false
    ∧ (0xF1#8).extractLsb' 4 4 = 15#4 ∧ (0xF1#8).extractLsb' 0 4 = 1#4 ∧ (0x6C#8).extractLsb' 0 3 = 4#3 ∧ (0xDA#8).getLsbD 3 = true
    ∧ (0xDA#8).extractLsb' 5 2 ≠ 3#2 ∧ (0xDA#8).extractLsb' 0 3 ≠ 0#3 ∧ (0xDA#8).getLsbD 4 = true ∧ (RM.ind 0).isReg = false := by
  decide

/-- O55: an operand with disp8 and one with disp32. -/
theorem witness_Disp8IsScaledUnderEvexOnly :
    (RM.sib8 3 1 0 0xFC = .ind8 0 0xFC ∨ RM.sib8 3 1 0 0xFC = .sib8 3 1 0 0xFC)
    ∧ (RM.disp32 0x10 = .ind32 0 0x10 ∨ RM.disp32 0x10 = .sib32 3 1 0 0x10 ∨ RM.disp32 0x10 = .sibDisp32 3 1 0x10
        ∨ RM.disp32 0x10 = .disp32 0x10) := by decide

/-- O52: SIB addressing with index 0100 and `X = 0` (no index) and with `X = 1` (R12); V10: relative to the next instruction. -/
theorem witness_EffectiveAddress64 :
    let s := withGpr (withGpr (withGpr s64 4 0x100) 12 0x1000) 0 0x20
    (rmAddr .mode64 [] false false 1 (.sib8 3 4 0 0xFC)).map (effectiveAddress s 5) = some 0x1C
    ∧ (rmAddr .mode64 [] true false 1 (.sib8 3 4 0 0xFC)).map (effectiveAddress s 5) = some 0x801C
    ∧ (rmAddr .mode64 [] false false 1 (.disp32 0x10)).map (effectiveAddress { s64 with rip := 0x19 } 7) = some 0x30 := by
  decide +kernel

/-- O53: a sum that wraps at `2^32`, disp32 alone, and in 64-bit mode with 67 the base EAX and an address relative to EIP. -/
theorem witness_EffectiveAddress32 :
    Prefix.addrSize ∉ ([] : List Prefix) ∧ Prefix.addrSize ∈ [Prefix.addrSize]
    ∧ (RM.ind8 0 8).fits (addrSize .mode32 []) = true ∧ (RM.ind 0).fits (addrSize .mode64 [.addrSize]) = true
    ∧ (RM.ind16 0).fits (addrSize .mode32 [.addrSize]) = true
    ∧ (rmAddr .mode32 [] false false 1 (.ind8 0 8)).map (effectiveAddress (withGpr s32 0 0xFFFFFFFC) 4) = some 4
    ∧ (rmAddr .mode32 [] false false 1 (.disp32 0x1000)).map (effectiveAddress s32 7) = some 0x1000
    ∧ (rmAddr .mode64 [.addrSize] false false 1 (.ind 0)).map (effectiveAddress (withGpr s64 0 0xFFFFFFFF00008000) 4) = some 0x8000
    ∧ (rmAddr .mode64 [.addrSize] false false 1 (.disp32 0x10)).map (effectiveAddress { s64 with rip := 0x100000019 } 8)
        = some 0x31 := by decide +kernel

/-- O54: `[bx+si]` and a sum that wraps at `2^16`. -/
theorem witness_EffectiveAddress16 :
    (rmAddr .mode32 [.addrSize] false false 1 (.ind16 0)).map (effectiveAddress (withGpr (withGpr s32 3 0x1000) 6 0x20) 4)
      = some 0x1020
    ∧ (rmAddr .mode32 [.addrSize] false false 1 (.ind16d8 5 0x10)).map (effectiveAddress (withGpr s32 7 0xFFF8) 5) = some 8 := by
  decide +kernel

/-- O56, E9: bases RSP and RBP default to SS, R12 and R13 to DS. -/
theorem witness_DefaultSegment :
    (RM.ind8 5 0).fits .a64 = true ∧ (rmAddr .mode64 [] false false 1 (.ind8 5 0)).map Addr.seg = some .ss
    ∧ (rmAddr .mode64 [] false true 1 (.ind8 5 0)).map Addr.seg = some .ds
    ∧ (rmAddr .mode64 [] false false 1 (.sib 0 4 4)).map Addr.seg = some .ss
    ∧ (rmAddr .mode64 [] false true 1 (.sib 0 4 4)).map Addr.seg = some .ds
    ∧ (rmAddr .mode32 [.addrSize] false false 1 (.ind16 2)).map Addr.seg = some .ss := by decide +kernel

/-- O57: the last override wins; in 64-bit mode ES after FS leaves FS. -/
theorem witness_SegmentOverrides :
    (rmAddr .mode32 [.seg .fs, .seg .es] false false 1 (.ind 0)).map Addr.seg = some .es
    ∧ (rmAddr .mode64 [.seg .gs, .seg .fs, .seg .es] false false 1 (.ind 0)).map Addr.seg = some .fs
    ∧ (rmAddr .mode64 [.seg .es] false false 1 (.ind 0)).map Addr.seg = some .ds := by decide +kernel

/-- O58: the widest operand, 64 bytes, can be read. -/
theorem witness_MemoryOperandIsLittleEndian : valueIs (s64.memRead .ds 0x8001 64) = true := by decide +kernel

end Sys2Proof.Tests
end

/-! # Completed executions and steps, and the invariant of the machine (O18) -/

namespace Sys2Proof.Machine

/-! ## What a completed execution and a completed step say -/

/-- `execute_next_iff` for the execution of an instruction, R100: the conditions under which it completes, and the next state. -/
theorem exec_next_iff (i : Instr) (s t : State) : exec i s = .next t ↔
    invalidOpcode s (record s.mode i).form (reservedOf i) = false ∧ s.ts = false ∧ s.admitted = true ∧
      ∃ s2, src2Value s (narrowOf s i) (record s.mode i) = .ok s2 ∧
        t = s.finish (record s.mode i).dest
          (recordResult (record s.mode i) (s.readZmm (record s.mode i).src1) s2 (s.readZmm (record s.mode i).dest)
            (s.readMask (record s.mode i).aaa)) i.len := by
  rw [exec_eq_execute, execute_next_iff, record_len]

/-- What the bytes at the program counter do when they decode to no instruction: the step does not complete. -/
theorem decodeErrorResult_ne_next (e : DecodeError) (t : State) : decodeErrorResult e ≠ .next t := by
  cases e <;> simp [decodeErrorResult, raise]

/-- A step completes exactly when it may run, the bytes at the program counter decode and that instruction completes. -/
theorem step_next_iff (s t : State) : step s = .next t ↔
    s.admitted = true ∧ s.trapFlag = false ∧ ∃ i, decode s.mode s.fetch = .ok i ∧ exec i s = .next t := by
  unfold step
  cases s.admitted with
  | false => simp
  | true =>
    cases s.trapFlag with
    | true => simp
    | false =>
      cases decode s.mode s.fetch with
      | error e => simp [decodeErrorResult_ne_next]
      | ok i => simp

/-! ## The end of an execution keeps the invariant -/

/-- A write of a vector register leaves no bit at or above `MAXVL`: the one written is cut to `MAXVL` bits (R21). -/
theorem writeZmm_vectorsFit {s : State} (d : Fin 32) (v : Vec) (h : s.vectorsFit) : (s.writeZmm d v).vectorsFit := by
  intro i
  by_cases hi : i = d
  · subst hi
    rw [State.readZmm_writeZmm_same, State.writeZmm_cfg, BitVec.and_assoc, BitVec.and_self]
  · rw [State.readZmm_writeZmm_other s d v i hi]
    exact h i

/-- In 32-bit mode the next program counter is one of 32 bits (R28). -/
theorem nextPc_lt_of_mode32 {s : State} (n : Nat) (h : s.mode = .mode32) : (s.nextPc n).toNat < 2 ^ 32 := by
  simp only [State.nextPc, h, BitVec.toNat_ofNat]
  omega

/-- Step 5 of R100 keeps the invariant, whatever value it writes and whatever the length. -/
theorem State.Inv.finish {s : State} (h : s.Inv) (d : Fin 32) (v : Vec) (n : Nat) : (s.finish d v n).Inv where
  config := h.config
  vectors := writeZmm_vectorsFit d v h.vectors
  masks := h.masks
  eip := nextPc_lt_of_mode32 (s := s) n
  notV86 := h.notV86
  memory := h.memory

/-- An execution that completes keeps the invariant. -/
theorem exec_keeps_inv {i : Instr} {s t : State} (h : s.Inv) (ht : exec i s = .next t) : t.Inv := by
  obtain ⟨-, -, -, s2, -, rfl⟩ := (exec_next_iff i s t).mp ht
  exact h.finish _ _ _

/-- Settles O18: a step that completes is the completed execution of one instruction, which ends in `State.finish`. -/
theorem stepKeepsInvariant : Obligations.StepKeepsInvariant := by
  intro s t hs ht
  obtain ⟨-, -, i, -, hi⟩ := (step_next_iff s t).mp ht
  exact exec_keeps_inv hs hi

end Sys2Proof.Machine

/-! # What an execution may change and what it reads (O16, O17, O25, O29, O34, O36, O44) -/

namespace Sys2Proof

/-! ## The length of a decoded instruction (R60, R79) -/

/-- R79: ModRM, after an opcode of two bytes, or of one behind at least two bytes of VEX or EVEX. -/
theorem three_le_len (i : Instr) : 3 ≤ i.len := by
  have hmodrm (rm : RM) : 1 ≤ rm.len := by cases rm <;> simp [RM.len]
  cases i <;> rename_i rm <;> have := hmodrm rm <;> simp only [Instr.len] <;> omega

/-- A check that refuses was passed where there is a result. -/
theorem ite_error_eq_ok {ε α : Type} {c : Prop} [Decidable c] {e : ε} {x : Except ε α} {a : α} :
    (if c then .error e else x) = .ok a ↔ ¬c ∧ x = .ok a := by
  by_cases h : c <;> simp [h]

theorem parseModRM_len_le {a : ASize} {bs : List Byte} {reg : BitVec 3} {rm : RM} (h : parseModRM a bs = some (reg, rm)) :
    rm.len ≤ bs.length := by
  obtain ⟨-, rest, rfl⟩ := modrmBytes_parseModRM a bs reg rm h
  rw [List.length_append, modrmBytes_length]
  omega

theorem decodeLegacy_len_le {m : Mode} {pfx : List Prefix} {bs : List Byte} {i : Instr} (h : decodeLegacy m pfx bs = .ok i) :
    i.len ≤ pfx.length + 1 + bs.length := by
  cases bs with
  | nil => cases h
  | cons op bs =>
    simp only [decodeLegacy, ite_error_eq_ok] at h
    obtain ⟨-, -, h⟩ := h
    cases hp : parseModRM (addrSize m pfx) bs with
    | none => simp [hp] at h
    | some o =>
      obtain ⟨reg, rm⟩ := o
      simp only [hp, ite_error_eq_ok] at h
      obtain ⟨-, -, h⟩ := h
      cases h
      have := parseModRM_len_le hp
      simp only [Instr.len, List.length_cons]
      omega

/-- `c` is the number of VEX bytes before the opcode. -/
theorem decodeVexTail_len_le {m : Mode} {pfx : List Prefix} {pp : BitVec 2} {build : BitVec 3 → RM → Instr} {bs : List Byte}
    {i : Instr} {c : Nat} (hbuild : ∀ reg rm, (build reg rm).len = pfx.length + c + 1 + rm.len)
    (h : decodeVexTail m pfx pp build bs = .ok i) : i.len ≤ pfx.length + c + bs.length := by
  cases bs with
  | nil => cases h
  | cons op bs =>
    simp only [decodeVexTail, ite_error_eq_ok] at h
    obtain ⟨-, h⟩ := h
    cases hp : parseModRM (addrSize m pfx) bs with
    | none => simp [hp] at h
    | some o =>
      obtain ⟨reg, rm⟩ := o
      simp only [hp, ite_error_eq_ok] at h
      obtain ⟨-, -, h⟩ := h
      cases h
      have := parseModRM_len_le hp
      rw [hbuild, List.length_cons]
      omega

theorem decodeVexC5_len_le {m : Mode} {pfx : List Prefix} {bs : List Byte} {i : Instr} (h : decodeVexC5 m pfx bs = .ok i) :
    i.len ≤ pfx.length + 1 + bs.length := by
  cases bs with
  | nil => cases h
  | cons p bs =>
    simp only [decodeVexC5, ite_error_eq_ok] at h
    obtain ⟨-, -, h⟩ := h
    have := decodeVexTail_len_le (c := 2) (fun reg rm => by split <;> rfl) h
    rw [List.length_cons]
    omega

theorem decodeVexC4_len_le {m : Mode} {pfx : List Prefix} {bs : List Byte} {i : Instr} (h : decodeVexC4 m pfx bs = .ok i) :
    i.len ≤ pfx.length + 1 + bs.length := by
  match bs with
  | [] => cases h
  | [p0] => simp [decodeVexC4, decodeVexC4P1, ite_error_eq_ok] at h
  | p0 :: p1 :: bs =>
    simp only [decodeVexC4, decodeVexC4P1, ite_error_eq_ok] at h
    obtain ⟨-, -, -, -, h⟩ := h
    have := decodeVexTail_len_le (c := 3) (fun reg rm => by split <;> rfl) h
    simp only [List.length_cons]
    omega

theorem evexInstr_len (ll : BitVec 2) (pfx : List Prefix) (x b : Bool) (dest src1 : BitVec 5) (aaa : BitVec 3) (z bcst : Bool)
    (rm : RM) : (evexInstr ll pfx x b dest src1 aaa z bcst rm).len = pfx.length + 4 + 1 + rm.len := by
  unfold evexInstr
  split
  · rfl
  · split <;> rfl

theorem decodeEvexFields_len {pfx : List Prefix} {p0 p1 p2 : Byte} {reg : BitVec 3} {rm : RM} {i : Instr}
    (h : decodeEvexFields pfx p0 p1 p2 reg rm = .ok i) : i.len = pfx.length + 4 + 1 + rm.len := by
  simp only [decodeEvexFields, ite_error_eq_ok] at h
  obtain ⟨-, -, -, -, -, -, -, -, h⟩ := h
  cases h
  exact evexInstr_len ..

theorem decodeEvex_len_le {m : Mode} {pfx : List Prefix} {bs : List Byte} {i : Instr} (h : decodeEvex m pfx bs = .ok i) :
    i.len ≤ pfx.length + 1 + bs.length := by
  match bs with
  | [] => cases h
  | [p0] => simp [decodeEvex, ite_error_eq_ok] at h
  | [p0, p1] => simp [decodeEvex, ite_error_eq_ok] at h
  | [p0, p1, p2] => simp [decodeEvex, decodeEvexTail, ite_error_eq_ok] at h
  | p0 :: p1 :: p2 :: op :: bs =>
    simp only [decodeEvex, decodeEvexTail, ite_error_eq_ok] at h
    obtain ⟨-, -, -, -, h⟩ := h
    cases hp : parseModRM (addrSize m pfx) bs with
    | none => simp [hp] at h
    | some o =>
      obtain ⟨reg, rm⟩ := o
      simp only [hp] at h
      have := parseModRM_len_le hp
      rw [decodeEvexFields_len h]
      simp only [List.length_cons]
      omega

/-- The instruction read is no longer than what stands in front and what follows it. -/
theorem decodeBody_len_le {m : Mode} {pfx : List Prefix} {bs : List Byte} {i : Instr} (h : decodeBody m pfx bs = .ok i) :
    i.len ≤ pfx.length + bs.length := by
  cases bs with
  | nil => cases h
  | cons b bs =>
    rw [List.length_cons, Nat.add_comm bs.length, ← Nat.add_assoc]
    simp only [decodeBody] at h
    split at h
    · exact decodeLegacy_len_le h
    split at h
    · exact decodeVexC5_len_le h
    split at h
    · exact decodeVexC4_len_le h
    split at h
    · exact decodeEvex_len_le h
    · cases h

theorem splitFront_length (m : Mode) (bs : List Byte) : (splitFront m bs).1.length + (splitFront m bs).2.length = bs.length := by
  conv_rhs => rw [← (splitFront_append m bs).1]
  rw [List.length_append, List.length_map]

/-- The decoder reads from the first 15 bytes only, after those in front as `decodeBody` says (R60). -/
theorem decodeBody_of_decode {m : Mode} {bs : List Byte} {i : Instr} (h : decode m bs = .ok i) :
    decodeBody m (splitFront m (bs.take maxLength)).1 (splitFront m (bs.take maxLength)).2 = .ok i := by
  simp only [decode] at h
  split at h
  · split at h
    · split at h <;> cases h
    · exact h
  · cases h

/-- R60: what the decoder accepts has at most 15 bytes. -/
theorem decode_len_le {m : Mode} {bs : List Byte} {i : Instr} (h : decode m bs = .ok i) : i.len ≤ 15 :=
  calc i.len
    _ ≤ (splitFront m (bs.take maxLength)).1.length + (splitFront m (bs.take maxLength)).2.length :=
      decodeBody_len_le (decodeBody_of_decode h)
    _ = (bs.take maxLength).length := splitFront_length m _
    _ ≤ 15 := List.length_take_le _ _

end Sys2Proof

namespace Sys2Proof.Machine

/-! ## The frame of an execution and of a step -/

/-- Settles O25: an execution that completes ends in `State.finish`, which cuts what it writes to `MAXVL` bits. -/
theorem executionFrame : Obligations.ExecutionFrame := by
  intro i s t h
  obtain ⟨-, -, -, s2, -, rfl⟩ := (exec_next_iff i s t).mp h
  refine ⟨finish_onlyWrites .., finish_pcAdvanced .., rfl, fun b hb => ?_⟩
  rw [State.readZmm_finish, State.readZmm_writeZmm_same, BitVec.getLsbD_and, getLsbD_registerOnes]
  simp [Nat.not_lt.mpr hb]

/-- CS is in the frame, so the privilege level is (R34, R135). -/
theorem cpl_of_onlyWrites {s t : State} {d : Fin 32} (h : onlyWrites s t d) : t.cpl = s.cpl := by
  obtain ⟨-, -, -, -, -, -, hcs, -⟩ := h
  rw [State.cpl, hcs, State.cpl]

/-- Settles O16: a step that completes is the completed execution of one decoded instruction, of 3 to 15 bytes. -/
theorem stepChangesOneRegisterAndPc : Obligations.StepChangesOneRegisterAndPc := by
  intro s t h
  obtain ⟨-, -, i, hdec, hi⟩ := (step_next_iff s t).mp h
  obtain ⟨hframe, hpc, -, -⟩ := executionFrame i s t hi
  exact ⟨_, i.len, hframe, three_le_len i, decode_len_le hdec, hpc, cpl_of_onlyWrites hframe⟩

/-- The states outside R6, by the mode field and by `EFLAGS.VM` (log entry 30). -/
theorem admitted_eq_false_iff (s : State) :
    s.admitted = false ↔ s.mode ≠ .mode64 ∧ s.mode ≠ .mode32 ∨ s.rflags.getLsbD 17 = true := by
  unfold State.admitted State.vmFlag
  cases s.mode <;> simp [Mode.admitted]

theorem step_of_not_admitted {s : State} (h : s.admitted = false) : step s = .refused .excludedMode := by
  simp [step, h]

/-- Settles O17: both the step and every execution ask whether the state is admitted. -/
theorem nothingRunsInExcludedModes : Obligations.NothingRunsInExcludedModes := by
  intro s hs
  have hno : s.admitted = false := (admitted_eq_false_iff s).mpr hs
  refine ⟨step_of_not_admitted hno, fun i t h => ?_⟩
  obtain ⟨-, -, hyes, -⟩ := (exec_next_iff i s t).mp h
  simp [hno] at hyes

/-! ## What the interleave does not read (R23, R101) -/

/-- A vector of `n` lanes is determined by them. -/
theorem ofLanes_congr {f g : Nat → BitVec 128} {n : Nat} (h : ∀ j, j < n → f j = g j) : ofLanes f n = ofLanes g n := by
  induction n with
  | zero => rfl
  | succ n ih => rw [ofLanes, ofLanes, ih fun j hj => h j (by omega), h n (by omega)]

/-- Element `p` of lane `n` is element `4n + p` of the vector (R23). -/
theorem extractLsb'_lane (n p : Nat) (hp : p < 4) (v : Vec) : (lane n v).extractLsb' (32 * p) 32 = elem (4 * n + p) v := by
  apply BitVec.eq_of_getLsbD_eq
  intro i hi
  rw [BitVec.getLsbD_extractLsb', getLsbD_lane, getLsbD_elem]
  have hin : 32 * p + i < 128 := by omega
  have hbit : 128 * n + (32 * p + i) = 32 * (4 * n + p) + i := by omega
  simp [hin, hbit]

/-- R101 with the four elements it names. -/
theorem lane128_lane (n : Nat) (a b : Vec) :
    lane128 (lane n a) (lane n b) = elem (4 * n + 1) b ++ elem (4 * n + 1) a ++ elem (4 * n + 0) b ++ elem (4 * n + 0) a := by
  simp only [← extractLsb'_lane n 0 (by decide), ← extractLsb'_lane n 1 (by decide)]
  rfl

/-- Settles O29: each lane of the interleave is put together from elements 0 and 1 of the sources' lanes. -/
theorem upperQuadwordsAreIgnored : Obligations.UpperQuadwordsAreIgnored := by
  intro v a b a' b' h
  refine ofLanes_congr fun n hn => ?_
  obtain ⟨ha0, hb0⟩ := h n hn 0 (by decide)
  obtain ⟨ha1, hb1⟩ := h n hn 1 (by decide)
  rw [lane128_lane, lane128_lane, ha0, hb0, ha1, hb1]

/-! ## What an execution does not read -/

/-- A change `f` of the state that the execution of a decoded instruction does not see: the checks, the second source and the
result are the same after it, and step 5 of R100 carries it along. -/
structure Unseen (f : State → State) (s : State) (r : DecodedInst) : Prop where
  mode     : (f s).mode = s.mode
  draws    : (f s).draws = s.draws
  invalid  : ∀ q, invalidOpcode (f s) r.form q = invalidOpcode s r.form q
  ts       : (f s).ts = s.ts
  admitted : (f s).admitted = s.admitted
  src2     : ∀ narrow, src2Value (f s) narrow r = src2Value s narrow r
  vectors  : (f s).readZmm = s.readZmm
  result   : ∀ s1 s2 old, recordResult r s1 s2 old ((f s).readMask r.aaa) = recordResult r s1 s2 old (s.readMask r.aaa)
  finish   : ∀ d v n, (f s).finish d v n = f (s.finish d v n)

/-- The rule for what an execution neither reads nor writes: it commutes with a change that it does not see. -/
theorem exec_mapNext_of_unseen {f : State → State} {i : Instr} {s : State} (h : Unseen f s (record s.mode i)) :
    exec i (f s) = mapNext f (exec i s) := by
  have hnarrow : narrowOf (f s) i = narrowOf s i := by cases i <;> simp only [narrowOf, h.draws]
  rw [exec_eq_execute, exec_eq_execute, h.mode, hnarrow]
  unfold execute deviceNotAvailable
  rw [h.invalid, h.ts, h.admitted, h.src2]
  cases invalidOpcode s (record s.mode i).form (reservedOf i) with
  | true => rfl
  | false =>
    cases s.ts with
    | true => rfl
    | false =>
      cases s.admitted with
      | false => rfl
      | true =>
        cases src2Value s (narrowOf s i) (record s.mode i) with
        | error e => cases e <;> rfl
        | ok s2 =>
          refine congrArg Host.Outcome.next ?_
          rw [h.vectors, h.result, h.finish]

/-! ### The opmask registers (R24, R25) -/

/-- The result of an EVEX form looks at bits `KL-1:0` of the mask, and at none when `aaa = 0` (R111). -/
theorem evexResult_congr_mask {v : VLen} {s1 s2 old : Vec} {aaa : BitVec 3} {z : Bool} {m m' : Word}
    (h : aaa ≠ 0 → ∀ j, j < v.elems → m.getLsbD j = m'.getLsbD j) :
    evexResult v s1 s2 old aaa z m = evexResult v s1 s2 old aaa z m' := by
  by_cases ha : aaa = 0
  · simp [evexResult, applyMask, enabled, ha]
  · exact applyMask_congr v _ old aaa aaa z m m' ha ha (h ha)

theorem recordResult_congr_mask {r : DecodedInst} {s1 s2 old : Vec} {m m' : Word}
    (h : r.aaa ≠ 0 → ∀ j, j < r.form.vlen.elems → m.getLsbD j = m'.getLsbD j) :
    recordResult r s1 s2 old m = recordResult r s1 s2 old m' := by
  cases hf : r.form <;> simp only [recordResult, hf] <;> rw [hf] at h <;> exact evexResult_congr_mask h

/-- Another content of the opmask registers is unseen where it agrees on bits `KL-1:0` of the one that `aaa` names. -/
theorem unseen_opmasks {s : State} {r : DecodedInst} {k' : Vector Word 8}
    (h : r.aaa ≠ 0 → ∀ j, j < r.form.vlen.elems →
      (({ s with k := k' } : State).readMask r.aaa).getLsbD j = (s.readMask r.aaa).getLsbD j) :
    Unseen (fun t => { t with k := k' }) s r where
  mode := rfl
  draws := rfl
  invalid _ := rfl
  ts := rfl
  admitted := rfl
  src2 _ := rfl
  vectors := rfl
  result _ _ _ := recordResult_congr_mask h
  finish _ _ _ := rfl

/-- Settles O34: only the masking of the result looks at an opmask register. -/
theorem onlyNamedMaskBitsAreRead : Obligations.OnlyNamedMaskBitsAreRead :=
  fun _ _ _ hk => exec_mapNext_of_unseen (unseen_opmasks hk)

/-! ### MXCSR, the x87 state and the flags (R30, R31) -/

/-- The state with another MXCSR, x87 state and flags register. -/
def State.setStatus (m : BitVec 32) (x : X87) (f : Word) (s : State) : State := { s with mxcsr := m, x87 := x, rflags := f }

section
variable {s : State} {m : BitVec 32} {x : X87} {f : Word}

theorem invalidOpcode_setStatus (hvm : f.getLsbD 17 = s.rflags.getLsbD 17) (form : Form) (q : Bool) :
    invalidOpcode (s.setStatus m x f) form q = invalidOpcode s form q := by
  have hv86 : (s.setStatus m x f).realOrV86 = s.realOrV86 := congrArg (s.mode == .real || s.mode == .virtual8086 || ·) hvm
  unfold invalidOpcode controlsAllow
  rw [hv86]
  rfl

theorem checkAlignment_setStatus (hac : f.getLsbD 18 = s.rflags.getLsbD 18) (r : SegReg) (ea n : Nat) :
    (s.setStatus m x f).checkAlignment r ea n = s.checkAlignment r ea n := by
  have h : (s.setStatus m x f).alignmentChecking = s.alignmentChecking := congrArg (s.am && · && s.cpl == 3) hac
  unfold State.checkAlignment
  rw [h]
  rfl

theorem memRead_setStatus (hac : f.getLsbD 18 = s.rflags.getLsbD 18) (r : SegReg) (ea n : Nat) :
    (s.setStatus m x f).memRead r ea n = s.memRead r ea n := by
  unfold State.memRead
  rw [checkAlignment_setStatus hac]
  rfl

/-- Of the flags the read of an operand looks at `EFLAGS.AC` only, through the alignment check (R129). -/
theorem src2Value_setStatus (hac : f.getLsbD 18 = s.rflags.getLsbD 18) (narrow : Bool) (r : DecodedInst) :
    src2Value (s.setStatus m x f) narrow r = src2Value s narrow r := by
  unfold src2Value
  simp only [memRead_setStatus hac]
  rfl

theorem unseen_status (hac : f.getLsbD 18 = s.rflags.getLsbD 18) (hvm : f.getLsbD 17 = s.rflags.getLsbD 17) (r : DecodedInst) :
    Unseen (State.setStatus m x f) s r where
  mode := rfl
  draws := rfl
  invalid := invalidOpcode_setStatus hvm r.form
  ts := rfl
  admitted := congrArg (s.mode.admitted && !·) hvm
  src2 narrow := src2Value_setStatus hac narrow r
  vectors := rfl
  result _ _ _ := rfl
  finish _ _ _ := rfl

end

/-- Settles O36: of the flags, `EFLAGS.VM` decides whether the mode is admitted and `EFLAGS.AC` whether alignment is checked. -/
theorem statusRegistersAreNotRead : Obligations.StatusRegistersAreNotRead :=
  fun _ _ m x f hac hvm => exec_mapNext_of_unseen (f := State.setStatus m x f) (unseen_status hac hvm _)

/-! ## The segment check (R29, R40, R48) -/

/-- Bits from `k` up to the top of a word are all equal exactly when what stands from `k` on is all zeros or all ones. -/
theorem upper_bits_equal_iff (w k : Nat) (hk : k < w + 1) (x : BitVec (w + 1)) :
    (∀ b, k ≤ b → b < w + 1 → x.getLsbD b = x.getLsbD w) ↔
      x.toNat / 2 ^ k = 0 ∨ x.toNat / 2 ^ k = 2 ^ (w + 1 - k) - 1 := by
  have hbit (j : Nat) : (x.toNat / 2 ^ k).testBit j = x.getLsbD (k + j) := by
    rw [Nat.testBit_div_two_pow, Nat.add_comm j k, BitVec.getLsbD]
  constructor
  · intro h
    have hall (j : Nat) : (x.toNat / 2 ^ k).testBit j = (decide (j < w + 1 - k) && x.getLsbD w) := by
      rw [hbit]
      by_cases hj : j < w + 1 - k
      · simp [hj, h (k + j) (by omega) (by omega)]
      · simp [hj, BitVec.getLsbD_of_ge x (k + j) (by omega)]
    cases hw : x.getLsbD w with
    | false => exact .inl (Nat.eq_of_testBit_eq fun j => by simp only [hall, hw, Bool.and_false, Nat.zero_testBit])
    | true => exact .inr (Nat.eq_of_testBit_eq fun j => by simp only [hall, hw, Bool.and_true, Nat.testBit_two_pow_sub_one])
  · rintro h b hkb hb
    have hb' : x.getLsbD b = (x.toNat / 2 ^ k).testBit (b - k) := by rw [hbit, Nat.add_sub_cancel' hkb]
    have hw' : x.getLsbD w = (x.toNat / 2 ^ k).testBit (w - k) := by rw [hbit, Nat.add_sub_cancel' (by omega)]
    rw [hb', hw']
    obtain h | h := h
    · simp [h]
    · simp only [h, Nat.testBit_two_pow_sub_one]
      rw [decide_eq_true (by omega), decide_eq_true (by omega)]

/-- R48: an address is canonical when bits `63:LA-1` of it are all equal. -/
theorem canonical_iff (s : State) (la : Nat) : s.canonical (la % 2 ^ 64) = true ↔
    ∀ b, s.linearBits - 1 ≤ b → b < 64 → (BitVec.ofNat 64 la).getLsbD b = (BitVec.ofNat 64 la).getLsbD 63 := by
  have hla : 0 < s.linearBits ∧ s.linearBits - 1 < 64 := by unfold State.linearBits; split <;> decide
  rw [upper_bits_equal_iff 63 (s.linearBits - 1) hla.2 (BitVec.ofNat 64 la), BitVec.toNat_ofNat,
    show 63 + 1 - (s.linearBits - 1) = 65 - s.linearBits by omega]
  simp [State.canonical]

theorem segmentAllows_mode64_iff {s : State} (hm : s.mode = .mode64) (r : SegReg) (ea n : Nat) :
    s.segmentAllows r ea n = true ↔ ∀ i, i < n → s.canonical ((s.linear r ea + i) % 2 ^ 64) = true := by
  simp [State.segmentAllows, hm]

/-- A selector is not null when its bits 15:2 are not 0 (R48; log entry 17). -/
theorem notNull_iff (g : Segment) : g.notNull = true ↔ g.selector.toNat / 4 ≠ 0 := by
  have h : g.selector.extractLsb' 2 14 = 0#14 ↔ g.selector.toNat / 4 = 0 := by
    rw [← BitVec.toNat_inj, BitVec.extractLsb'_toNat, Nat.shiftRight_eq_div_pow]
    have := g.selector.isLt
    simp
    omega
  simp [Segment.notNull, h]

theorem segmentAllows_mode32_iff {s : State} (hm : s.mode = .mode32) (r : SegReg) (ea n : Nat) (hn : 0 < n) :
    s.segmentAllows r ea n = true ↔ (s.segment r).present = true ∧ (s.segment r).readable = true
      ∧ (s.segment r).selector.toNat / 4 ≠ 0 ∧ ∀ i, i < n → ea + i ≤ (s.segment r).limit.toNat := by
  have hlimit : ea + n ≤ (s.segment r).limit.toNat + 1 ↔ ∀ i, i < n → ea + i ≤ (s.segment r).limit.toNat :=
    ⟨fun h i hi => by omega, fun h => by have := h (n - 1) (by omega); omega⟩
  simp only [State.segmentAllows, hm, Segment.usable, Bool.and_eq_true, decide_eq_true_eq, notNull_iff, hlimit, and_assoc]

/-- In 64-bit mode only FS and GS have a base (R29). -/
theorem segmentBase_mode64 {s : State} (hm : s.mode = .mode64) (r : SegReg) :
    s.segmentBase r = if r = .fs ∨ r = .gs then (s.segment r).base.toNat else 0 := by
  cases r <;> simp [State.segmentBase, State.segment, hm]

theorem segmentBase_mode32 {s : State} (hm : s.mode = .mode32) (r : SegReg) : s.segmentBase r = (s.segment r).base.toNat := by
  simp [State.segmentBase, hm]

/-- Settles O44, clause by clause: the two bases, the canonical check and the limit check. -/
theorem segmentCheckMeaning : Obligations.SegmentCheckMeaning := by
  intro s r ea n seg
  have hseg : seg = s.segment r := by cases r <;> rfl
  rw [hseg]
  refine ⟨fun hm => ?_, fun hm => ?_, fun _ hm => ?_, fun hn hm => segmentAllows_mode32_iff hm r ea n hn⟩
  · rw [State.linear, segmentBase_mode64 hm, State.linearWidth, hm]
    exact ⟨rfl, rfl⟩
  · rw [State.linear, segmentBase_mode32 hm, State.linearWidth, hm]
    exact ⟨rfl, rfl⟩
  · rw [segmentAllows_mode64_iff hm]
    exact forall₂_congr fun i _ => canonical_iff s _

end Sys2Proof.Machine

/-! # Memory operands: what of them is read, checked and refused (O35, O38, O39, O42, O43, O46, O47, O58) -/

namespace Sys2Proof.Machine

/-! ## The value of a read (R41) -/

/-- Byte `k` of a little-endian value is byte `k` of the list. -/
theorem extractLsb'_leValue (bs : List Byte) (k : Nat) (hk : k < 64) :
    (leValue bs).extractLsb' (8 * k) 8 = bs.getD k 0#8 := by
  apply BitVec.eq_of_getLsbD_eq
  intro i hi
  have hd : (8 * k + i) / 8 = k := by omega
  have hm : (8 * k + i) % 8 = i := by omega
  simp [getLsbD_leValue bs (8 * k + i) (by omega), hi, hd, hm]

/-- Above its last byte a little-endian value is 0. -/
theorem getLsbD_leValue_of_ge (bs : List Byte) (b : Nat) (hb : 8 * bs.length ≤ b) : (leValue bs).getLsbD b = false := by
  by_cases h : b < 512
  · rw [getLsbD_leValue bs b h, List.getD_eq_default _ _ (by omega)]
    simp
  · exact BitVec.getLsbD_of_ge _ b (by omega)

theorem length_operandByteList (s : State) (la n : Nat) : (s.operandByteList la n).length = n := by
  simp [State.operandByteList]

/-- Settles O58: what `MemRead` gives is the little-endian value of the operand's bytes. -/
theorem memoryOperandIsLittleEndian : Obligations.MemoryOperandIsLittleEndian := by
  intro s r ea n v hn hv
  obtain ⟨-, rfl⟩ := memRead_ok s r ea n v hv
  refine ⟨fun k hk => ?_, fun b hb => getLsbD_leValue_of_ge _ b ?_⟩
  · rw [extractLsb'_leValue _ k (by omega), operandByteList_getD _ _ _ _ hk]
  · rwa [length_operandByteList]

/-! ## The steps of the read, one equation each (R43, R44) -/

section
variable {s : State} {r : SegReg} {ea n la : Nat}

theorem checkSegment_of_allows (h : s.segmentAllows r ea n = true) : s.checkSegment r ea n = .ok () := by
  simp [State.checkSegment, h]

theorem checkSegment_of_violation (h : s.segmentAllows r ea n = false) :
    s.checkSegment r ea n = .error (.fault (segmentFault r)) := by
  simp [State.checkSegment, h]

theorem checkWrap_of_le (h : s.linear r ea + n ≤ 2 ^ s.linearWidth) : s.checkWrap r ea n = .ok () := if_pos h

theorem checkWrap_of_lt (h : 2 ^ s.linearWidth < s.linear r ea + n) : s.checkWrap r ea n = .error (.refused .addressWrap) :=
  if_neg (Nat.not_le.mpr h)

theorem checkLegacyAlignment_of_aligned (hb : s.segmentBase r % 16 = 0) (hl : s.linear r ea % 16 = 0) :
    s.checkLegacyAlignment r ea = .ok () := by
  simp [State.checkLegacyAlignment, hb, hl]

theorem linear_aligned_of_checkLegacyAlignment (h : s.checkLegacyAlignment r ea = .ok ()) : s.linear r ea % 16 = 0 := by
  simp only [State.checkLegacyAlignment, ite_error_eq_ok, ne_eq, not_not] at h
  exact h.2.1

theorem memRead_of_violation (h : s.segmentAllows r ea n = false) : s.memRead r ea n = .error (.fault (segmentFault r)) := by
  simp [State.memRead, checkSegment_of_violation h]

theorem memRead_of_wrap (hs : s.segmentAllows r ea n = true) (hw : 2 ^ s.linearWidth < s.linear r ea + n) :
    s.memRead r ea n = .error (.refused .addressWrap) := by
  simp [State.memRead, checkSegment_of_allows hs, checkWrap_of_lt hw]

/-- `MemRead` of an operand that passes every check is the read of its bytes. -/
theorem memRead_of_checks (hs : s.segmentAllows r ea n = true) (hw : s.linear r ea + n ≤ 2 ^ s.linearWidth)
    (ha : s.checkAlignment r ea n = .ok ()) : s.memRead r ea n = s.readLinear (s.linear r ea) n := by
  simp [State.memRead, checkSegment_of_allows hs, checkWrap_of_le hw, ha]

/-- A `MemRead` that gives a value was of an operand that can be read. -/
theorem rangeReadable_of_memRead_ok {v : Vec} (h : s.memRead r ea n = .ok v) : s.rangeReadable r ea n = true := by
  have hb := (memRead_ok s r ea n v h).1
  cases hs : s.segmentAllows r ea n with
  | false => rw [memRead_of_violation hs] at h; cases h
  | true =>
    by_cases hw : s.linear r ea + n ≤ 2 ^ s.linearWidth
    · simp [State.rangeReadable, hs, hw, hb]
    · rw [memRead_of_wrap hs (by omega)] at h; cases h

theorem memReadLegacy_of_base_unaligned (narrow : Bool) (hb : s.segmentBase r % 16 ≠ 0) :
    s.memReadLegacy narrow r ea = .error (.refused .legacyBaseUnaligned) := by
  simp [State.memReadLegacy, State.checkLegacyAlignment, hb]

theorem memReadLegacy_of_unaligned (narrow : Bool) (hb : s.segmentBase r % 16 = 0) (hl : s.linear r ea % 16 ≠ 0) :
    s.memReadLegacy narrow r ea = .error (.fault .generalProtection) := by
  simp [State.memReadLegacy, State.checkLegacyAlignment, hb, hl]

theorem memReadLegacy_of_violation (narrow : Bool) (hb : s.segmentBase r % 16 = 0) (hl : s.linear r ea % 16 = 0)
    (hs : s.segmentAllows r ea 16 = false) : s.memReadLegacy narrow r ea = .error (.fault (segmentFault r)) := by
  simp [State.memReadLegacy, checkLegacyAlignment_of_aligned hb hl, checkSegment_of_violation hs]

/-- `MemRead` of a legacy operand that passes every check is the read of its bytes. -/
theorem memReadLegacy_of_checks (narrow : Bool) (hb : s.segmentBase r % 16 = 0) (hl : s.linear r ea % 16 = 0)
    (hs : s.segmentAllows r ea 16 = true) (hw : s.linear r ea + 16 ≤ 2 ^ s.linearWidth) :
    s.memReadLegacy narrow r ea = s.readLegacy narrow (s.linear r ea) := by
  simp [State.memReadLegacy, checkLegacyAlignment_of_aligned hb hl, checkSegment_of_allows hs, checkWrap_of_le hw]

/-! ## The read of bytes that do not all stand in ordinary memory (R57, R58, R127) -/

theorem readLinear_of_byteFaults (h : s.byteFaults la n ≠ []) : ∃ c x, s.readLinear la n = .error (.fault (.pageFault c x)) := by
  cases hf : s.byteFaults la n with
  | nil => exact absurd hf h
  | cons f fs =>
    have hread : s.readLinear la n = .error (.fault (s.pickFault f fs)) := by simp [State.readLinear, hf]
    obtain ⟨i, c, -, -, he⟩ | ⟨hnil, -⟩ := readLinear_error s la n _ hread
    · exact ⟨c, _, by rw [hread, he]⟩
    · exact absurd hnil h

theorem readLinear_of_window {q : Refusal} (hf : s.byteFaults la n = []) (hq : s.windowIn la n = some q) :
    s.readLinear la n = .error (.refused q) := by
  simp [State.readLinear, hf, hq]

theorem byteFaults_eq_nil_of_le {m : Nat} (hmn : m ≤ n) (h : s.byteFaults la n = []) : s.byteFaults la m = [] :=
  (byteFaults_eq_nil s la m).mpr fun i hi => (byteFaults_eq_nil s la n).mp h i (by omega)

/-- Where all 16 bytes translate, the legacy form's read is refused for the first that is not ordinary memory, under either
draw (R45, R58). -/
theorem readLegacy_of_window {q : Refusal} (narrow : Bool) (hf : s.byteFaults la 16 = []) (hq : s.windowIn la 16 = some q) :
    s.readLegacy narrow la = .error (.refused q) := by
  have h16 := readLinear_of_window hf hq
  cases narrow with
  | false => simp [State.readLegacy, h16]
  | true =>
    have hf8 : s.byteFaults la 8 = [] := byteFaults_eq_nil_of_le (by decide) hf
    cases hq8 : s.windowIn la 8 with
    | none =>
      have h8 := readLinear_of_readable s la 8 ((bytesReadable_eq s la 8).mpr ⟨hf8, hq8⟩)
      simp [State.readLegacy, h16, h8, hq]
    | some q' =>
      have hqq : q' = q := Option.some.inj ((windowIn_append s la 8 8 q' hq8).symm.trans hq)
      simp [State.readLegacy, h16, readLinear_of_window hf8 hq8, hqq]

/-- One byte of the operand that is not ordinary memory gives the read a refusal to name. -/
theorem windowIn_of_windowAt {k : Nat} {q : Refusal} (hf : s.byteFaults la n = []) (hk : k < n)
    (hq : s.windowAt (s.physical .read (la + k)) = some q) :
    ∃ q', s.windowIn la n = some q' ∧ (q' = .deviceMemory ∨ q' = .absentMemory) := by
  cases hw : s.windowIn la n with
  | none =>
    obtain ⟨pa, hpa⟩ := (byteFaults_eq_nil s la n).mp hf k hk
    have hnone := (windowIn_eq_none s la n).mp hw k hk pa hpa
    simp [State.physical, hpa, hnone] at hq
  | some q' =>
    obtain ⟨-, pa, -, -, hat⟩ := windowIn_some s la n q' hw
    exact ⟨q', rfl, windowAt_some s pa q' hat⟩

end

/-! ## From the read to the execution -/

/-- The second source in memory of the forms but the legacy one: what `MemRead` gives of the operand's bytes, or the broadcast of it
(R109). -/
theorem src2Value_of_mem {r : DecodedInst} {a : Addr} {bcst : Bool} (s : State) (narrow : Bool) (hmem : r.src2 = .mem a bcst)
    (hf : r.form ≠ .legacy128) : src2Value s narrow r =
      (s.memRead a.seg (effectiveAddress s r.len a) (operandBytes r.form bcst)).map
        (if bcst then broadcast r.form.vlen else id) := by
  unfold src2Value operandBytes
  rw [hmem]
  cases bcst with
  | true =>
    simp only [if_true]
    cases s.memRead a.seg (effectiveAddress s r.len a) 4 <;> rfl
  | false =>
    simp only [if_neg hf, Bool.false_eq_true, if_false]
    cases s.memRead a.seg (effectiveAddress s r.len a) r.form.vlen.bytes <;> rfl

/-- The second source in memory of the legacy form, which has no broadcast (R109). -/
theorem src2Value_of_legacy_mem {r : DecodedInst} {a : Addr} (s : State) (narrow : Bool) (hmem : r.src2 = .mem a false)
    (hf : r.form = .legacy128) : src2Value s narrow r = s.memReadLegacy narrow a.seg (effectiveAddress s r.len a) := by
  simp [src2Value, hmem, hf]

section
variable {i : Instr} {s : State} {a : Addr} {bcst : Bool} {e : Stop}

/-- Enabled and with no reserved field, an execution stops as the read of its second source does. -/
theorem exec_of_src2Value_error (hready : s.ready (record s.mode i).form = true) (hz : zeroingFits i = true)
    (hmem : (record s.mode i).src2 = .mem a bcst) (he : src2Value s (narrowOf s i) (record s.mode i) = .error e) :
    exec i s = e.result := by
  obtain ⟨-, hadm, hts, hinv⟩ := ready_checks _ hready
  have hres : reservedOf i = false := by simp [reservedOf, hz, broadcastFits_of_mem _ _ _ _ hmem]
  simp [exec_eq_execute, execute, deviceNotAvailable, hres, hinv, hts, hadm, he]

theorem exec_of_memRead_error (hready : s.ready (record s.mode i).form = true) (hz : zeroingFits i = true)
    (hmem : (record s.mode i).src2 = .mem a bcst) (hf : (record s.mode i).form ≠ .legacy128)
    (he : s.memRead a.seg (effectiveAddress s i.len a) (operandBytes (record s.mode i).form bcst) = .error e) :
    exec i s = e.result := by
  refine exec_of_src2Value_error hready hz hmem ?_
  rw [src2Value_of_mem s _ hmem hf, record_len, he]
  rfl

theorem exec_of_memReadLegacy_error (hready : s.ready (record s.mode i).form = true) (hz : zeroingFits i = true)
    (hmem : (record s.mode i).src2 = .mem a bcst) (hf : (record s.mode i).form = .legacy128)
    (he : ∀ narrow, s.memReadLegacy narrow a.seg (effectiveAddress s i.len a) = .error e) : exec i s = e.result := by
  cases bcst with
  | true => exact absurd hmem (record_legacy_src2 s.mode i hf a)
  | false =>
    refine exec_of_src2Value_error hready hz hmem ?_
    rw [src2Value_of_legacy_mem s _ hmem hf, record_len, he]

end

/-! ## Alignment, segment, wrap and ordinary memory (R43, R44, R48, R57, R58) -/

/-- Settles O42: alignment is the first check of the legacy form's read, and of it the segment base the first. -/
theorem legacyAlignmentIsEnforced : Obligations.LegacyAlignmentIsEnforced := by
  intro pfx reg rm s a i hready hmem
  exact ⟨fun hb hl => exec_of_memReadLegacy_error hready rfl hmem rfl fun narrow => memReadLegacy_of_unaligned narrow hb hl,
    fun hb => exec_of_memReadLegacy_error hready rfl hmem rfl fun narrow => memReadLegacy_of_base_unaligned narrow hb⟩

/-- Settles O43: the segment check is the first of the read, and of the legacy form's read the first after alignment. -/
theorem segmentViolationFaults : Obligations.SegmentViolationFaults := by
  intro i s a bcst f ea hready hz hmem halign hviol
  have hresult : exec i s = Stop.result (.fault (segmentFault a.seg)) := by
    by_cases hf : f = .legacy128
    · obtain ⟨hb, hl⟩ := halign hf
      rw [if_pos hf] at hviol
      exact exec_of_memReadLegacy_error hready hz hmem hf fun narrow => memReadLegacy_of_violation narrow hb hl hviol
    · rw [if_neg hf] at hviol
      exact exec_of_memRead_error hready hz hmem hf (memRead_of_violation hviol)
  exact hresult

/-- Settles O47: the wrap is looked at right after the segment check. -/
theorem wrappingOperandIsRefused : Obligations.WrappingOperandIsRefused := by
  intro i s a bcst f ea hready hz hf hmem hs hw
  exact exec_of_memRead_error hready hz hmem hf (memRead_of_wrap hs hw)

/-- Settles O46: past the checks and the translation, the read looks for a byte that is not ordinary memory. -/
theorem operandOutsideOrdinaryMemoryIsRefused : Obligations.OperandOutsideOrdinaryMemoryIsRefused := by
  intro i s a bcst n q f ea size hready hz hmem halign hs hw hac htrans hn hq
  have hnil : s.byteFaults (s.linear a.seg ea) size = [] := (byteFaults_eq_nil s _ _).mpr htrans
  obtain ⟨q', hq', hkind⟩ := windowIn_of_windowAt hnil hn hq
  have hresult : exec i s = Stop.result (.refused q') := by
    by_cases hf : f = .legacy128
    · obtain ⟨hb, hl⟩ := halign hf
      have hsize : size = 16 := if_pos hf
      rw [hsize] at hs hw hnil hq'
      refine exec_of_memReadLegacy_error hready hz hmem hf fun narrow => ?_
      rw [memReadLegacy_of_checks narrow hb hl hs hw]
      exact readLegacy_of_window narrow hnil hq'
    · have hsize : size = operandBytes f bcst := if_neg hf
      have haligned : (!s.alignmentChecking || s.linear a.seg ea % size == 0) = true := by
        obtain h | h | h := hac
        · simp [h]
        · exact absurd h hf
        · simp [h]
      rw [hsize] at hs hw hnil hq' haligned
      refine exec_of_memRead_error hready hz hmem hf ?_
      rw [memRead_of_checks hs hw (checkAlignment_of_aligned s _ _ _ haligned)]
      exact readLinear_of_window hnil hq'
  rw [hresult]
  exact hkind.imp (congrArg Host.Outcome.refused) (congrArg Host.Outcome.refused)

/-! ## Masks and faults (R51) -/

/-- What a refusal of an execution says. -/
theorem execute_refused_iff {s : State} {r : DecodedInst} {reserved narrow : Bool} {result : Vec → Vec → Vec → Word → Vec}
    (q : Refusal) : execute s r reserved narrow result = .refused q ↔
      invalidOpcode s r.form reserved = false ∧ s.ts = false ∧
        (s.admitted = false ∧ q = .excludedMode ∨ s.admitted = true ∧ src2Value s narrow r = .error (.refused q)) := by
  unfold execute deviceNotAvailable raise
  cases invalidOpcode s r.form reserved with
  | true => simp
  | false =>
    cases s.ts with
    | true => simp
    | false =>
      cases s.admitted with
      | false => simp [eq_comm]
      | true =>
        cases src2Value s narrow r with
        | error e => cases e <;> simp [Stop.result, raise]
        | ok v => simp

/-- The opmask registers enter the result only: an execution stops alike whatever they hold. -/
theorem exec_fault_iff_opmasks (i : Instr) (s : State) (k' : Vector Word 8) (f : Fault) :
    exec i s = .fault f ↔ exec i { s with k := k' } = .fault f := by
  have hnarrow : narrowOf { s with k := k' } i = narrowOf s i := by cases i <;> rfl
  simp only [exec_eq_execute, execute_fault_iff, hnarrow]
  rfl

theorem exec_refused_iff_opmasks (i : Instr) (s : State) (k' : Vector Word 8) (q : Refusal) :
    exec i s = .refused q ↔ exec i { s with k := k' } = .refused q := by
  have hnarrow : narrowOf { s with k := k' } i = narrowOf s i := by cases i <;> rfl
  simp only [exec_eq_execute, execute_refused_iff, hnarrow]
  rfl

/-- The second source in memory has a value only where its whole operand can be read; the legacy form is left out. -/
theorem rangeReadable_of_src2Value_ok {s : State} {narrow : Bool} {r : DecodedInst} {a : Addr} {bcst : Bool} {v : Vec}
    (hmem : r.src2 = .mem a bcst) (hf : r.form ≠ .legacy128) (hv : src2Value s narrow r = .ok v) :
    s.rangeReadable a.seg (effectiveAddress s r.len a) (operandBytes r.form bcst) = true := by
  rw [src2Value_of_mem s narrow hmem hf] at hv
  cases hread : s.memRead a.seg (effectiveAddress s r.len a) (operandBytes r.form bcst) with
  | ok w => exact rangeReadable_of_memRead_ok hread
  | error e => rw [hread] at hv; cases hv

/-- Settles O35: no check and no read looks at an opmask register, and the read covers the whole operand. -/
theorem maskNeverSuppressesFault : Obligations.MaskNeverSuppressesFault := by
  intro i s k'
  refine ⟨exec_fault_iff_opmasks i s k', exec_refused_iff_opmasks i s k', fun t a bcst hevex hmem hnext => ?_⟩
  obtain ⟨-, -, -, v, hv, -⟩ := (exec_next_iff i s t).mp hnext
  have hf : (record s.mode i).form ≠ .legacy128 := by
    intro h
    rw [h] at hevex
    cases hevex
  rw [← record_len s.mode i]
  exact rangeReadable_of_src2Value_ok hmem hf hv

/-! ## The bytes of memory an execution reads (R42, R45, R50) -/

/-- The state with another memory. -/
def State.setMem (m : Memory) (s : State) : State := { s with mem := m }

section
variable {s : State} {m : Memory}

@[simp] theorem linear_setMem (r : SegReg) (ea : Nat) : (s.setMem m).linear r ea = s.linear r ea := rfl
@[simp] theorem byteFaults_setMem (la n : Nat) : (s.setMem m).byteFaults la n = s.byteFaults la n := rfl
@[simp] theorem windowIn_setMem (la n : Nat) : (s.setMem m).windowIn la n = s.windowIn la n := rfl
@[simp] theorem effectiveAddress_setMem (len : Nat) (a : Addr) :
    effectiveAddress (s.setMem m) len a = effectiveAddress s len a := rfl

theorem operandByteList_setMem {la n : Nat}
    (h : ∀ k, k < n → m.read (s.physical .read (la + k)) = s.mem.read (s.physical .read (la + k))) :
    (s.setMem m).operandByteList la n = s.operandByteList la n :=
  List.map_congr_left fun k hk => h k (List.mem_range.mp hk)

/-- Steps 4 to 6 of `MemRead` look at memory for the value only: a stop is the same in another memory. -/
theorem readLinear_setMem_eq (s : State) (m : Memory) (la n : Nat) :
    (s.setMem m).readLinear la n = (s.readLinear la n).map fun _ => leValue ((s.setMem m).operandByteList la n) := by
  unfold State.readLinear
  rw [byteFaults_setMem, windowIn_setMem]
  cases s.byteFaults la n with
  | cons f fs => rfl
  | nil => cases s.windowIn la n <;> rfl

theorem readLinear_setMem {la n : Nat}
    (h : ∀ k, k < n → m.read (s.physical .read (la + k)) = s.mem.read (s.physical .read (la + k))) :
    (s.setMem m).readLinear la n = s.readLinear la n := by
  rw [readLinear_setMem_eq, operandByteList_setMem h]
  cases hv : s.readLinear la n with
  | error e => rfl
  | ok v => rw [(readLinear_ok s la n v hv).2]; rfl

/-- The low quadword is determined by the low 8 bytes. -/
theorem lowQuad_leValue_congr {bs bs' : List Byte} (h : ∀ k, k < 8 → bs.getD k 0#8 = bs'.getD k 0#8) :
    lowQuad (leValue bs) = lowQuad (leValue bs') := by
  refine congrArg (BitVec.setWidth 512) (BitVec.eq_of_getLsbD_eq fun i hi => ?_)
  rw [BitVec.getLsbD_extractLsb', BitVec.getLsbD_extractLsb', Nat.zero_add, getLsbD_leValue bs i (by omega),
    getLsbD_leValue bs' i (by omega), h (i / 8) (by omega)]

/-- Of the 16 bytes of a legacy operand the low 8 decide, under either draw. -/
theorem readLegacy_setMem (narrow : Bool) {la : Nat}
    (h : ∀ k, k < 8 → m.read (s.physical .read (la + k)) = s.mem.read (s.physical .read (la + k))) :
    (s.setMem m).readLegacy narrow la = s.readLegacy narrow la := by
  unfold State.readLegacy
  rw [readLinear_setMem_eq, readLinear_setMem h, windowIn_setMem]
  cases hv : s.readLinear la 16 with
  | error e => rfl
  | ok v =>
    rw [(readLinear_ok s la 16 v hv).2]
    refine congrArg Except.ok (lowQuad_leValue_congr fun k hk => ?_)
    rw [operandByteList_getD _ _ _ _ (by omega), operandByteList_getD _ _ _ _ (by omega)]
    exact h k hk

theorem memRead_setMem {r : SegReg} {ea n : Nat}
    (h : ∀ k, k < n → m.read (s.physical .read (s.linear r ea + k)) = s.mem.read (s.physical .read (s.linear r ea + k))) :
    (s.setMem m).memRead r ea n = s.memRead r ea n := by
  unfold State.memRead
  rw [linear_setMem, readLinear_setMem h]
  rfl

theorem memReadLegacy_setMem (narrow : Bool) {r : SegReg} {ea : Nat}
    (h : ∀ k, k < 8 → m.read (s.physical .read (s.linear r ea + k)) = s.mem.read (s.physical .read (s.linear r ea + k))) :
    (s.setMem m).memReadLegacy narrow r ea = s.memReadLegacy narrow r ea := by
  unfold State.memReadLegacy
  rw [linear_setMem, readLegacy_setMem narrow h]
  rfl

/-- How many bytes of an operand in memory decide (R42, R45, R50). -/
def decidingBytes (f : Form) (bcst : Bool) : Nat := if f = .legacy128 then 8 else operandBytes f bcst

theorem src2Value_setMem (narrow : Bool) {r : DecodedInst} (hlegacy : r.form = .legacy128 → ∀ a, r.src2 ≠ .mem a true)
    (h : ∀ a bcst, r.src2 = .mem a bcst → ∀ n, n < decidingBytes r.form bcst →
      m.read (s.physical .read (s.linear a.seg (effectiveAddress s r.len a) + n))
        = s.mem.read (s.physical .read (s.linear a.seg (effectiveAddress s r.len a) + n))) :
    src2Value (s.setMem m) narrow r = src2Value s narrow r := by
  cases hmem : r.src2 with
  | reg q => simp only [src2Value, hmem]; rfl
  | mem a bcst =>
    have hbytes := h a bcst hmem
    by_cases hf : r.form = .legacy128
    · rw [decidingBytes, if_pos hf] at hbytes
      cases bcst with
      | true => exact absurd hmem (hlegacy hf a)
      | false =>
        rw [src2Value_of_legacy_mem _ narrow hmem hf, src2Value_of_legacy_mem _ narrow hmem hf, effectiveAddress_setMem,
          memReadLegacy_setMem narrow hbytes]
    · rw [decidingBytes, if_neg hf] at hbytes
      rw [src2Value_of_mem _ narrow hmem hf, src2Value_of_mem _ narrow hmem hf, effectiveAddress_setMem,
        memRead_setMem hbytes]

end

/-- Another memory is unseen where it agrees on the deciding bytes of the operand. -/
theorem unseen_memory {s : State} {m : Memory} {r : DecodedInst} (hlegacy : r.form = .legacy128 → ∀ a, r.src2 ≠ .mem a true)
    (h : ∀ a bcst, r.src2 = .mem a bcst → ∀ n, n < decidingBytes r.form bcst →
      m.read (s.physical .read (s.linear a.seg (effectiveAddress s r.len a) + n))
        = s.mem.read (s.physical .read (s.linear a.seg (effectiveAddress s r.len a) + n))) :
    Unseen (State.setMem m) s r where
  mode := rfl
  draws := rfl
  invalid _ := rfl
  ts := rfl
  admitted := rfl
  src2 narrow := src2Value_setMem narrow hlegacy h
  vectors := rfl
  result _ _ _ := rfl
  finish _ _ _ := rfl

/-- Settles O38: memory enters through the second source only, and that through the deciding bytes of the operand. -/
theorem onlyOperandBytesAreRead : Obligations.OnlyOperandBytesAreRead := by
  intro i s m h
  rw [← record_len s.mode i] at h
  exact exec_mapNext_of_unseen (f := State.setMem m) (unseen_memory (record_legacy_src2 s.mode i) h)

/-! ## The two draws of `LEGACY_FETCH` (R45) -/

/-- Pages begin and end at multiples of 16. -/
def State.pagesAligned (s : State) : Prop := ∀ p ∈ s.pages, p.first % 16 = 0 ∧ p.size % 16 = 0 ∧ p.phys % 16 = 0

/-- A range that begins and ends at multiples of 16 holds the whole of an aligned block of 16 bytes or nothing of it. -/
theorem holds_add_of_aligned {p : PageRange} (acc : Access) (cpl la i : Nat) (hfirst : p.first % 16 = 0)
    (hsize : p.size % 16 = 0) (hla : la % 16 = 0) (hi : i < 16) : p.holds acc cpl (la + i) = p.holds acc cpl la := by
  have hlow : p.first ≤ la + i ↔ p.first ≤ la := by omega
  have hhigh : la + i < p.first + p.size ↔ la < p.first + p.size := by omega
  simp only [PageRange.holds, hlow, hhigh]

/-- The bytes of an aligned block of 16 translate all or none. -/
theorem translates_add_iff {s : State} (hpages : s.pagesAligned) {la i : Nat} (hla : la % 16 = 0) (hi : i < 16) :
    (∃ pa, s.translate .read (la + i) = .ok pa) ↔ ∃ pa, s.translate .read la = .ok pa := by
  have hfind : s.pages.find? (PageRange.holds .read s.cpl (la + i)) = s.pages.find? (PageRange.holds .read s.cpl la) :=
    List.find?_congr fun p hp => by
      obtain ⟨hfirst, hsize, -⟩ := hpages p hp
      exact holds_add_of_aligned _ _ _ _ hfirst hsize hla hi
  unfold State.translate
  rw [hfind]
  cases s.pagingOn with
  | false => simp
  | true =>
    cases s.pages.find? (PageRange.holds .read s.cpl la) with
    | none => simp
    | some p =>
      cases hk : p.kind with
      | supervisor => by_cases h3 : s.cpl = 3 <;> simp [hk, h3]
      | _ => simp [hk]

/-- So 16 bytes fault where the low 8 do. -/
theorem byteFaults_eq_nil_of_aligned {s : State} (hpages : s.pagesAligned) {la : Nat} (hla : la % 16 = 0)
    (h : s.byteFaults la 8 = []) : s.byteFaults la 16 = [] := by
  have h0 := (byteFaults_eq_nil s la 8).mp h 0 (by decide)
  exact (byteFaults_eq_nil s la 16).mpr fun i hi => (translates_add_iff hpages hla hi).mpr h0

/-- What does not depend on the draw, but for which page fault it is. -/
def drawUnseen (read : Bool → Except Stop Vec) : Prop :=
  read true = read false ∨ ∀ narrow, ∃ c x, read narrow = .error (.fault (.pageFault c x))

theorem readLegacy_drawUnseen {s : State} (hpages : s.pagesAligned) {la : Nat} (hla : la % 16 = 0) :
    drawUnseen fun narrow => s.readLegacy narrow la := by
  by_cases h16 : s.byteFaults la 16 = []
  · left
    cases hq : s.windowIn la 16 with
    | some q => simp only [readLegacy_of_window _ h16 hq]
    | none =>
      have hread := readLinear_of_readable s la 16 ((bytesReadable_eq s la 16).mpr ⟨h16, hq⟩)
      simp [State.readLegacy, hread]
  · right
    intro narrow
    have h8 : s.byteFaults la 8 ≠ [] := fun h => h16 (byteFaults_eq_nil_of_aligned hpages hla h)
    obtain ⟨c16, x16, hread16⟩ := readLinear_of_byteFaults h16
    obtain ⟨c8, x8, hread8⟩ := readLinear_of_byteFaults h8
    cases narrow with
    | false => exact ⟨c16, x16, by simp [State.readLegacy, hread16]⟩
    | true => exact ⟨c8, x8, by simp [State.readLegacy, hread16, hread8]⟩

theorem memReadLegacy_drawUnseen {s : State} (hpages : s.pagesAligned) (r : SegReg) (ea : Nat) :
    drawUnseen fun narrow => s.memReadLegacy narrow r ea := by
  unfold State.memReadLegacy
  cases hal : s.checkLegacyAlignment r ea with
  | error e => exact .inl rfl
  | ok _ =>
    cases s.checkSegment r ea 16 with
    | error e => exact .inl rfl
    | ok _ =>
      cases s.checkWrap r ea 16 with
      | error e => exact .inl rfl
      | ok _ => exact readLegacy_drawUnseen hpages (linear_aligned_of_checkLegacyAlignment hal)

theorem src2Value_drawUnseen {s : State} (hpages : s.pagesAligned) (r : DecodedInst) :
    drawUnseen fun narrow => src2Value s narrow r := by
  unfold src2Value
  cases r.src2 with
  | reg n => exact .inl rfl
  | mem a bcst =>
    cases bcst with
    | true => exact .inl rfl
    | false =>
      by_cases hf : r.form = .legacy128
      · simp only [if_pos hf]
        exact memReadLegacy_drawUnseen hpages _ _
      · exact .inl (by simp only [if_neg hf])

/-- The legacy form under the two draws: one outcome, or a page fault under each. -/
theorem unpcklpsWith_draws {s : State} (hpages : s.pagesAligned) (pfx : List Prefix) (reg : BitVec 3) (rm : RM) :
    unpcklpsWith true pfx reg rm s = unpcklpsWith false pfx reg rm s ∨
      ∀ narrow, ∃ c x, unpcklpsWith narrow pfx reg rm s = .fault (.pageFault c x) := by
  unfold unpcklpsWith execute
  cases invalidOpcode s (record s.mode (.unpcklps pfx reg rm)).form false with
  | true => exact .inl rfl
  | false =>
    cases deviceNotAvailable s with
    | true => exact .inl rfl
    | false =>
      cases s.admitted with
      | false => exact .inl rfl
      | true =>
        obtain h | h := src2Value_drawUnseen hpages (record s.mode (.unpcklps pfx reg rm))
        · exact .inl (by simp only [h])
        · refine .inr fun narrow => ?_
          obtain ⟨c, x, hc⟩ := h narrow
          exact ⟨c, x, by simp [hc, Stop.result, raise]⟩

/-- Settles O39: an aligned operand's upper 8 bytes fault only with its low 8, and both draws look for memory that is not
ordinary in all 16. -/
theorem legacyFetchWidthIsNotSeen : Obligations.LegacyFetchWidthIsNotSeen := by
  intro pfx reg rm s hpages
  obtain h | h := unpcklpsWith_draws hpages pfx reg rm
  · simp [h]
  · obtain ⟨c, x, htrue⟩ := h true
    obtain ⟨c', x', hfalse⟩ := h false
    rw [htrue, hfalse]
    refine ⟨fun t => by simp, fun q => by simp, fun f hf => ?_, by simp⟩
    simp [(hf c x).symm, (hf c' x').symm]

end Sys2Proof.Machine

/-! # A byte in front that no form may have there: LOCK before any form (O5), and the rows of R68 -/

namespace Sys2Proof

/-- The bytes in front of the opcode or of the VEX or EVEX bytes (R60). -/
def Instr.front : Instr → List Prefix
  | .unpcklps pfx _ _ => pfx
  | .vunpcklpsVex128C5 pfx _ _ _ => pfx
  | .vunpcklpsVex128C4 pfx _ _ _ _ _ _ => pfx
  | .vunpcklpsVex256C5 pfx _ _ _ => pfx
  | .vunpcklpsVex256C4 pfx _ _ _ _ _ _ => pfx
  | .vunpcklpsEvex128 pfx _ _ _ _ _ _ _ _ => pfx
  | .vunpcklpsEvex256 pfx _ _ _ _ _ _ _ _ => pfx
  | .vunpcklpsEvex512 pfx _ _ _ _ _ _ _ _ => pfx

/-- The bytes after those in front (R60). -/
def Instr.body : Instr → List Byte
  | .unpcklps _ reg rm => 0x0F#8 :: 0x14#8 :: modrmBytes reg rm
  | .vunpcklpsVex128C5 _ dest src1 rm => vexC5Bytes false dest src1 ++ 0x14#8 :: modrmBytes (lowReg dest) rm
  | .vunpcklpsVex128C4 _ w x b dest src1 rm => vexC4Bytes w x b false dest src1 ++ 0x14#8 :: modrmBytes (lowReg dest) rm
  | .vunpcklpsVex256C5 _ dest src1 rm => vexC5Bytes true dest src1 ++ 0x14#8 :: modrmBytes (lowReg dest) rm
  | .vunpcklpsVex256C4 _ w x b dest src1 rm => vexC4Bytes w x b true dest src1 ++ 0x14#8 :: modrmBytes (lowReg dest) rm
  | .vunpcklpsEvex128 _ x b dest src1 aaa z bcst rm =>
    evexBytes 0#2 x b dest src1 aaa z bcst ++ 0x14#8 :: modrmBytes (lowReg dest) rm
  | .vunpcklpsEvex256 _ x b dest src1 aaa z bcst rm =>
    evexBytes 1#2 x b dest src1 aaa z bcst ++ 0x14#8 :: modrmBytes (lowReg dest) rm
  | .vunpcklpsEvex512 _ x b dest src1 aaa z bcst rm =>
    evexBytes 2#2 x b dest src1 aaa z bcst ++ 0x14#8 :: modrmBytes (lowReg dest) rm

theorem encode_eq_front_body (i : Instr) : encode i = i.front.map Prefix.byte ++ i.body := by
  cases i <;> simp [encode, Instr.front, Instr.body]

/-! ### Splitting the bytes in front off -/

/-- After the bytes in front stands 0F, C5, C4 or 62. -/
theorem body_eq_cons (i : Instr) : ∃ b bs, i.body = b :: bs ∧ b ∈ [0x0F#8, 0xC5#8, 0xC4#8, 0x62#8] := by
  cases i <;> exact ⟨_, _, rfl, by decide⟩

/-- None of the four is a byte in front. -/
theorem decodePrefix_opening (m : Mode) {b : Byte} (h : b ∈ [0x0F#8, 0xC5#8, 0xC4#8, 0x62#8]) : decodePrefix m b = none := by
  revert b
  cases m <;> decide

theorem splitFront_front_body {m : Mode} {pfx : List Prefix} (hrex : m = .mode64 ∨ hasRex pfx = false) (i : Instr)
    (rest : List Byte) : splitFront m (pfx.map Prefix.byte ++ (i.body ++ rest)) = (pfx, i.body ++ rest) := by
  refine splitFront_map m pfx (i.body ++ rest) hrex fun b bs hb => ?_
  obtain ⟨c, cs, hc, hopen⟩ := body_eq_cons i
  rw [hc, List.cons_append, List.cons.injEq] at hb
  exact decodePrefix_opening m (hb.1 ▸ hopen)

/-- Within the longest length, an encoding that is invalid after the bytes in front is invalid. -/
theorem decode_of_decodeBody_invalid {m : Mode} {pfx : List Prefix} {i : Instr} {rest : List Byte} {q : InvalidReason}
    (hm : m.admitted = true) (hrex : m = .mode64 ∨ hasRex pfx = false)
    (hlen : (pfx.map Prefix.byte ++ (i.body ++ rest)).length ≤ maxLength)
    (h : decodeBody m pfx (i.body ++ rest) = .error (.invalid q)) :
    decode m (pfx.map Prefix.byte ++ (i.body ++ rest)) = .error (.invalid q) := by
  simp only [decode, hm, if_true, List.take_of_length_le hlen, splitFront_front_body hrex, h]

/-! ### What a well-formed instruction has in front -/

theorem wellFormed_iff (m : Mode) (i : Instr) : wellFormed m i = true ↔ m.admitted = true ∧ frontFits m i = true ∧
    operandFits m i = true ∧ extensionFits m i = true ∧ zeroingFits i = true ∧ broadcastFits i = true ∧ lengthFits i = true := by
  simp only [wellFormed, Bool.and_eq_true, and_assoc]

/-- A REX byte is none that a VEX or EVEX form may have in front (R68). -/
theorem hasRex_of_okBeforeVex {pfx : List Prefix} (h : pfx.all Prefix.okBeforeVex = true) : hasRex pfx = false := by
  simp only [hasRex, List.any_eq_false, List.all_eq_true] at h ⊢
  intro p hp
  have := h p hp
  cases p <;> simp [Prefix.okBeforeVex] at this ⊢

/-- REX bytes stand in front in 64-bit mode only (R64). -/
theorem hasRex_front {m : Mode} {i : Instr} (h : frontFits m i = true) : m = .mode64 ∨ hasRex i.front = false := by
  cases i with
  | unpcklps pfx reg rm =>
    simp only [frontFits, Bool.and_eq_true, Bool.or_eq_true, beq_iff_eq, Bool.not_eq_true'] at h
    exact h.2
  | vunpcklpsVex128C5 => exact .inr (hasRex_of_okBeforeVex h)
  | vunpcklpsVex128C4 => exact .inr (hasRex_of_okBeforeVex h)
  | vunpcklpsVex256C5 => exact .inr (hasRex_of_okBeforeVex h)
  | vunpcklpsVex256C4 => exact .inr (hasRex_of_okBeforeVex h)
  | vunpcklpsEvex128 => exact .inr (hasRex_of_okBeforeVex (Bool.and_eq_true_iff.mp h).1)
  | vunpcklpsEvex256 => exact .inr (hasRex_of_okBeforeVex (Bool.and_eq_true_iff.mp h).1)
  | vunpcklpsEvex512 => exact .inr (hasRex_of_okBeforeVex (Bool.and_eq_true_iff.mp h).1)

/-- One more byte in front changes the address size only when it is 67 (R72). -/
theorem contains_addrSize_cons {p : Prefix} (hp : p ≠ .addrSize) (pfx : List Prefix) :
    (p :: pfx).contains .addrSize = pfx.contains .addrSize := by
  simp [Ne.symm hp]

theorem addrSize_cons (m : Mode) {p : Prefix} (hp : p ≠ .addrSize) (pfx : List Prefix) :
    addrSize m (p :: pfx) = addrSize m pfx := by
  simp only [addrSize, contains_addrSize_cons hp]

/-! ### VEX and EVEX bytes behind a byte that may not stand in front of them (R68) -/

section
variable {m : Mode} {pfx : List Prefix} {rm : RM} {p p0 p1 p2 : Byte}

theorem decodeVexTail_of_bad_front (pp : BitVec 2) (build : BitVec 3 → RM → Instr) (reg : BitVec 3) (rest : List Byte)
    (hbad : pfx.all Prefix.okBeforeVex = false) (hfits : rm.fits (addrSize m pfx) = true) :
    decodeVexTail m pfx pp build (0x14#8 :: modrmBytes reg rm ++ rest) = .error (.invalid .badBeforeVex) := by
  simp [decodeVexTail, parseModRM_modrmBytes _ _ _ _ hfits, hbad]

theorem decodeVexC5_of_bad_front (reg : BitVec 3) (rest : List Byte) (hbad : pfx.all Prefix.okBeforeVex = false)
    (hfits : rm.fits (addrSize m pfx) = true) (h32 : m = .mode32 → p.extractLsb' 6 2 = 3#2) (hpp : p.extractLsb' 0 2 = 0#2) :
    decodeVexC5 m pfx (p :: 0x14#8 :: modrmBytes reg rm ++ rest) = .error (.invalid .badBeforeVex) := by
  have hles : ¬(m = .mode32 ∧ p.extractLsb' 6 2 ≠ 3#2) := fun h => h.2 (h32 h.1)
  have hpd : p.extractLsb' 0 2 ≠ 1#2 := by simp [hpp]
  simp only [List.cons_append, decodeVexC5, if_neg hles, if_neg hpd]
  exact decodeVexTail_of_bad_front _ _ reg rest hbad hfits

theorem decodeVexC4_of_bad_front (reg : BitVec 3) (rest : List Byte) (hbad : pfx.all Prefix.okBeforeVex = false)
    (hfits : rm.fits (addrSize m pfx) = true)
    (h32 : m = .mode32 → p0.extractLsb' 6 2 = 3#2 ∧ p0.getLsbD 5 = true ∧ p1.getLsbD 6 = true)
    (hmap : p0.extractLsb' 0 5 = 1#5) (hpp : p1.extractLsb' 0 2 = 0#2) :
    decodeVexC4 m pfx (p0 :: p1 :: 0x14#8 :: modrmBytes reg rm ++ rest) = .error (.invalid .badBeforeVex) := by
  have hles : ¬(m = .mode32 ∧ p0.extractLsb' 6 2 ≠ 3#2) := fun h => h.2 (h32 h.1).1
  have hneutral : ¬(m = .mode32 ∧ (p0.getLsbD 5 = false ∨ p1.getLsbD 6 = false)) := by
    rintro ⟨hm, h⟩
    obtain ⟨-, h5, h6⟩ := h32 hm
    rw [h5, h6] at h
    simp at h
  have hpd : p1.extractLsb' 0 2 ≠ 1#2 := by simp [hpp]
  simp only [List.cons_append, decodeVexC4, decodeVexC4P1, if_neg hles, hmap, ne_eq, not_true_eq_false, if_false, if_neg hpd,
    if_neg hneutral]
  exact decodeVexTail_of_bad_front _ _ reg rest hbad hfits

theorem decodeEvex_of_bad_front (reg : BitVec 3) (rest : List Byte) (hbad : pfx.all Prefix.okBeforeVex = false)
    (hfits : rm.fits (addrSize m pfx) = true)
    (h32 : m = .mode32 → p0.extractLsb' 6 2 = 3#2 ∧ evexNeutral p0 p1 p2 = true ∧ pfx.contains .addrSize = false) :
    decodeEvex m pfx (p0 :: p1 :: p2 :: 0x14#8 :: modrmBytes reg rm ++ rest) = .error (.invalid .badBeforeVex) := by
  have hles : ¬(m = .mode32 ∧ p0.extractLsb' 6 2 ≠ 3#2) := fun h => h.2 (h32 h.1).1
  have hneutral : ¬(m = .mode32 ∧ evexNeutral p0 p1 p2 = false) := fun h => by simp [(h32 h.1).2.1] at h
  have haddr : ¬(m = .mode32 ∧ pfx.contains .addrSize = true) := fun h => by
    rw [(h32 h.1).2.2] at h
    cases h.2
  simp only [List.cons_append, decodeEvex, decodeEvexTail, if_neg hles, if_neg hneutral, if_neg haddr, ne_eq, not_true_eq_false,
    if_false, parseModRM_modrmBytes _ _ _ _ hfits]
  simp [decodeEvexFields, hbad]

end

/-- In 32-bit mode every extension bit has the value 0 (R70). -/
theorem extensions_neutral {x b : Bool} {n : Nat} {dest src1 : BitVec n}
    (h : (Mode.mode32 == .mode64 || (!x && !b && decide (dest.toNat < 8) && decide (src1.toNat < 8))) = true) :
    x = false ∧ b = false ∧ dest.toNat < 8 ∧ src1.toNat < 8 := by
  have h : (!x && !b && decide (dest.toNat < 8) && decide (src1.toNat < 8)) = true := h
  simpa only [Bool.and_eq_true, Bool.not_eq_true', decide_eq_true_eq, and_assoc] using h

/-! ### The fields of the encoder's VEX and EVEX bytes (R65, R66, R69, R70) -/

theorem vexC5_pp (l : Bool) (dest src1 : BitVec 4) :
    ((~~~dest.extractLsb' 3 1) ++ (~~~src1) ++ BitVec.ofBool l ++ 0#2 : Byte).extractLsb' 0 2 = 0#2 := by
  revert l dest src1
  decide

/-- Registers 0 to 7 store 11 in bits 7:6 of the byte after `C5`. -/
theorem vexC5_top (l : Bool) (dest src1 : BitVec 4) (hd : dest.toNat < 8) (hs : src1.toNat < 8) :
    ((~~~dest.extractLsb' 3 1) ++ (~~~src1) ++ BitVec.ofBool l ++ 0#2 : Byte).extractLsb' 6 2 = 3#2 := by
  revert l dest src1
  decide

theorem vexC4_map (x b : Bool) (dest : BitVec 4) :
    ((~~~dest.extractLsb' 3 1) ++ BitVec.ofBool (!x) ++ BitVec.ofBool (!b) ++ 1#5 : Byte).extractLsb' 0 5 = 1#5 := by
  revert x b dest
  decide

theorem vexC4_pp (w l : Bool) (src1 : BitVec 4) :
    (BitVec.ofBool w ++ (~~~src1) ++ BitVec.ofBool l ++ 0#2 : Byte).extractLsb' 0 2 = 0#2 := by
  revert w l src1
  decide

/-- Neutral extension bits in the byte after `C4`. -/
theorem vexC4_p0_neutral (dest : BitVec 4) (hd : dest.toNat < 8) :
    let p0 : Byte := (~~~dest.extractLsb' 3 1) ++ BitVec.ofBool (!false) ++ BitVec.ofBool (!false) ++ 1#5
    p0.extractLsb' 6 2 = 3#2 ∧ p0.getLsbD 5 = true := by
  revert dest
  decide

theorem vexC4_p1_neutral (w l : Bool) (src1 : BitVec 4) (hs : src1.toNat < 8) :
    (BitVec.ofBool w ++ (~~~src1) ++ BitVec.ofBool l ++ 0#2 : Byte).getLsbD 6 = true := by
  revert w l src1
  decide

theorem evex_p0_neutral (dest : BitVec 5) (hd : dest.toNat < 8) :
    let p0 : Byte := (~~~dest.extractLsb' 3 1) ++ BitVec.ofBool (!false) ++ BitVec.ofBool (!false) ++ (~~~dest.extractLsb' 4 1)
      ++ 1#4
    p0.extractLsb' 6 2 = 3#2 ∧ p0.getLsbD 5 = true ∧ p0.getLsbD 4 = true := by
  revert dest
  decide

theorem evex_p1_neutral (src1 : BitVec 5) (hs : src1.toNat < 8) :
    (0#1 ++ (~~~src1.extractLsb' 0 4) ++ 4#3 : Byte).getLsbD 6 = true := by
  revert src1
  decide

theorem evex_p2_neutral (z bcst : Bool) (ll : BitVec 2) (src1 : BitVec 5) (aaa : BitVec 3) (hs : src1.toNat < 8) :
    (BitVec.ofBool z ++ ll ++ BitVec.ofBool bcst ++ (~~~src1.extractLsb' 4 1) ++ aaa : Byte).getLsbD 3 = true := by
  have hv : (~~~src1.extractLsb' 4 1 : BitVec 1) = 1#1 := by
    revert src1
    decide
  rw [hv, BitVec.getLsbD_append, BitVec.getLsbD_append]
  simp

/-! ### The forms behind a byte none of them may have in front (R54, R68) -/

section
variable {m : Mode} {pfx : List Prefix} {rm : RM}

theorem decodeBody_vexC5_of_bad_front (l : Bool) {dest src1 : BitVec 4} (reg : BitVec 3) (rest : List Byte)
    (hbad : pfx.all Prefix.okBeforeVex = false) (hfits : rm.fits (addrSize m pfx) = true)
    (hext : (m == .mode64 || (decide (dest.toNat < 8) && decide (src1.toNat < 8))) = true) :
    decodeBody m pfx (vexC5Bytes l dest src1 ++ 0x14#8 :: modrmBytes reg rm ++ rest) = .error (.invalid .badBeforeVex) := by
  refine decodeVexC5_of_bad_front reg rest hbad hfits ?_ (vexC5_pp l dest src1)
  rintro rfl
  have hext : (decide (dest.toNat < 8) && decide (src1.toNat < 8)) = true := hext
  obtain ⟨hd, hs⟩ := Bool.and_eq_true_iff.mp hext
  exact vexC5_top l dest src1 (of_decide_eq_true hd) (of_decide_eq_true hs)

theorem decodeBody_vexC4_of_bad_front (w l : Bool) {x b : Bool} {dest src1 : BitVec 4} (reg : BitVec 3) (rest : List Byte)
    (hbad : pfx.all Prefix.okBeforeVex = false) (hfits : rm.fits (addrSize m pfx) = true)
    (hext : (m == .mode64 || (!x && !b && decide (dest.toNat < 8) && decide (src1.toNat < 8))) = true) :
    decodeBody m pfx (vexC4Bytes w x b l dest src1 ++ 0x14#8 :: modrmBytes reg rm ++ rest)
      = .error (.invalid .badBeforeVex) := by
  refine decodeVexC4_of_bad_front reg rest hbad hfits ?_ (vexC4_map x b dest) (vexC4_pp w l src1)
  rintro rfl
  obtain ⟨rfl, rfl, hd, hs⟩ := extensions_neutral hext
  obtain ⟨htop, h5⟩ := vexC4_p0_neutral dest hd
  exact ⟨htop, h5, vexC4_p1_neutral w l src1 hs⟩

theorem decodeBody_evex_of_bad_front (ll : BitVec 2) {x b : Bool} {dest src1 : BitVec 5} (aaa : BitVec 3) (z bcst : Bool)
    (reg : BitVec 3) (rest : List Byte) (hbad : pfx.all Prefix.okBeforeVex = false) (hfits : rm.fits (addrSize m pfx) = true)
    (hext : (m == .mode64 || (!x && !b && decide (dest.toNat < 8) && decide (src1.toNat < 8))) = true)
    (haddr : (m == .mode64 || !pfx.contains .addrSize) = true) :
    decodeBody m pfx (evexBytes ll x b dest src1 aaa z bcst ++ 0x14#8 :: modrmBytes reg rm ++ rest)
      = .error (.invalid .badBeforeVex) := by
  refine decodeEvex_of_bad_front reg rest hbad hfits ?_
  rintro rfl
  obtain ⟨rfl, rfl, hd, hs⟩ := extensions_neutral hext
  obtain ⟨htop, h5, h4⟩ := evex_p0_neutral dest hd
  have hneutral := evex_p2_neutral z bcst ll src1 aaa hs
  refine ⟨htop, ?_, by simpa using haddr⟩
  rw [evexNeutral, h5, h4, evex_p1_neutral src1 hs, hneutral]
  rfl

end

/-- R68: a VEX or EVEX form with one more byte in front, which no such form may have there. -/
theorem decodeBody_vex_of_bad_front {m : Mode} {p : Prefix} {i : Instr} (hp : p.okBeforeVex = false) (hwf : wellFormed m i = true)
    (hform : (Machine.record m i).form ≠ .legacy128) (rest : List Byte) :
    decodeBody m (p :: i.front) (i.body ++ rest) = .error (.invalid .badBeforeVex) := by
  have hne : p ≠ .addrSize := by rintro rfl; cases hp
  have hbad : (p :: i.front).all Prefix.okBeforeVex = false := by simp [hp]
  obtain ⟨-, hfront, hfits, hext, -⟩ := (wellFormed_iff m i).mp hwf
  have hsize := addrSize_cons m hne i.front
  have hcontains := contains_addrSize_cons hne i.front
  cases i with
  | unpcklps => exact absurd rfl hform
  | vunpcklpsVex128C5 => exact decodeBody_vexC5_of_bad_front _ _ rest hbad (hsize ▸ hfits) hext
  | vunpcklpsVex128C4 => exact decodeBody_vexC4_of_bad_front _ _ _ rest hbad (hsize ▸ hfits) hext
  | vunpcklpsVex256C5 => exact decodeBody_vexC5_of_bad_front _ _ rest hbad (hsize ▸ hfits) hext
  | vunpcklpsVex256C4 => exact decodeBody_vexC4_of_bad_front _ _ _ rest hbad (hsize ▸ hfits) hext
  | vunpcklpsEvex128 =>
    exact decodeBody_evex_of_bad_front _ _ _ _ _ rest hbad (hsize ▸ hfits) hext (hcontains ▸ (Bool.and_eq_true_iff.mp hfront).2)
  | vunpcklpsEvex256 =>
    exact decodeBody_evex_of_bad_front _ _ _ _ _ rest hbad (hsize ▸ hfits) hext (hcontains ▸ (Bool.and_eq_true_iff.mp hfront).2)
  | vunpcklpsEvex512 =>
    exact decodeBody_evex_of_bad_front _ _ _ _ _ rest hbad (hsize ▸ hfits) hext (hcontains ▸ (Bool.and_eq_true_iff.mp hfront).2)

/-- R80: the legacy form with LOCK in front. -/
theorem decodeBody_legacy_of_lock {m : Mode} {pfx : List Prefix} {reg : BitVec 3} {rm : RM}
    (hwf : wellFormed m (.unpcklps pfx reg rm) = true) (rest : List Byte) :
    decodeBody m (.lock :: pfx) ((Instr.unpcklps pfx reg rm).body ++ rest) = .error (.invalid .lock) := by
  obtain ⟨-, hfront, hoperand, -⟩ := (wellFormed_iff m _).mp hwf
  have hfits : rm.fits (addrSize m (.lock :: pfx)) = true := hoperand
  have hall : pfx.all Prefix.okBeforeLegacy = true := (Bool.and_eq_true_iff.mp hfront).1
  have hop : Prefix.opSize ∉ pfx := fun h => Bool.noConfusion (List.all_eq_true.mp hall _ h)
  calc decodeBody m (.lock :: pfx) ((Instr.unpcklps pfx reg rm).body ++ rest)
    _ = decodeLegacy m (.lock :: pfx) (0x14#8 :: modrmBytes reg rm ++ rest) := rfl
    _ = .error (.invalid .lock) := by simp [decodeLegacy, hop, parseModRM_modrmBytes _ _ _ _ hfits]

/-- R54: LOCK in front of any of the encodings. -/
theorem decodeBody_of_lock {m : Mode} {i : Instr} (hwf : wellFormed m i = true) (rest : List Byte) :
    ∃ q, decodeBody m (.lock :: i.front) (i.body ++ rest) = .error (.invalid q) := by
  by_cases hform : (Machine.record m i).form = .legacy128
  · cases i with
    | unpcklps => exact ⟨_, decodeBody_legacy_of_lock hwf rest⟩
    | _ => cases hform
  · exact ⟨_, decodeBody_vex_of_bad_front rfl hwf hform rest⟩

end Sys2Proof

namespace Sys2Proof.Machine

theorem length_fetchFrom_le (s : State) (i n : Nat) : (s.fetchFrom i n).length ≤ n := by
  induction n generalizing i with
  | zero => rfl
  | succ n ih =>
    unfold State.fetchFrom
    split
    · exact Nat.zero_le _
    · exact Nat.succ_le_succ (ih (i + 1))

/-- Bytes that decode to an invalid encoding are `#UD` (R80). -/
theorem step_of_decode_invalid {s : State} {q : InvalidReason} (hadm : s.admitted = true) (htf : s.trapFlag = false)
    (h : decode s.mode s.fetch = .error (.invalid q)) : step s = .fault .invalidOpcode := by
  simp [step, hadm, htf, h, decodeErrorResult, raise]

/-- Settles O5: LOCK joins the bytes in front, behind which every form is decoded as an invalid encoding. -/
theorem lockBeforeAnyFormIsInvalidOpcode : Obligations.LockBeforeAnyFormIsInvalidOpcode := by
  intro s i rest hadm htf hwf hfetch
  have hbytes : s.fetch = (Prefix.lock :: i.front).map Prefix.byte ++ (i.body ++ rest) := by
    rw [hfetch, encode_eq_front_body, List.map_cons]
    simp [Prefix.byte]
  have hlen : s.fetch.length ≤ maxLength := length_fetchFrom_le s 0 maxLength
  obtain ⟨hmode, hfront, -⟩ := (wellFormed_iff s.mode i).mp hwf
  have hrex : s.mode = .mode64 ∨ hasRex (Prefix.lock :: i.front) = false := hasRex_front hfront
  obtain ⟨q, hq⟩ := decodeBody_of_lock hwf rest
  rw [hbytes] at hlen
  refine step_of_decode_invalid (q := q) hadm htf ?_
  rw [hbytes]
  exact decode_of_decodeBody_invalid hmode hrex hlen hq

end Sys2Proof.Machine

/-! # Bytes and instructions: the decoder and the encoder are inverse to each other (O1, O2, O11, O14) -/

namespace Sys2Proof

/-! ## The window of 15 bytes and what is split off in front (R60) -/

/-- The bytes begin as one of the templates does after the bytes in front (R60). -/
def Opens (bs : List Byte) : Prop := ∃ b t, bs = b :: t ∧ b ∈ [0x0F#8, 0xC5#8, 0xC4#8, 0x62#8]

theorem body_opens (i : Instr) : Opens i.body := body_eq_cons i

theorem Opens.append {bs : List Byte} (h : Opens bs) (rest : List Byte) : Opens (bs ++ rest) := by
  obtain ⟨b, t, rfl, hb⟩ := h
  exact ⟨b, t ++ rest, rfl, hb⟩

theorem Opens.decodePrefix_head {bs : List Byte} (h : Opens bs) (m : Mode) (n : Nat) {b : Byte} {t : List Byte}
    (hb : bs.take n = b :: t) : decodePrefix m b = none := by
  obtain ⟨c, u, rfl, hc⟩ := h
  cases n with
  | zero => cases hb
  | succ n =>
    cases hb
    exact decodePrefix_opening m hc

theorem hasRex_take {pfx : List Prefix} (h : hasRex pfx = false) (n : Nat) : hasRex (pfx.take n) = false := by
  simp only [hasRex, List.any_eq_false] at h ⊢
  exact fun p hp => h p (List.mem_of_mem_take hp)

/-- Of a window of `n` bytes as much as there is room for is the bytes in front, and the rest follows them. -/
theorem splitFront_take {m : Mode} {pfx : List Prefix} {bs : List Byte} (hrex : m = .mode64 ∨ hasRex pfx = false)
    (hopen : Opens bs) (n : Nat) :
    splitFront m ((pfx.map Prefix.byte ++ bs).take n) = (pfx.take n, bs.take (n - pfx.length)) := by
  rw [List.take_append, List.length_map, ← List.map_take]
  exact splitFront_map m _ _ (hrex.imp_right (hasRex_take · n)) fun b t hb => hopen.decodePrefix_head m _ hb

/-- What the decoder finds in the window after the bytes in front is its answer, unless the window ends too early. -/
theorem decode_of_window {m : Mode} {pfx : List Prefix} {bs : List Byte} {r : Except DecodeError Instr}
    (hm : m.admitted = true) (hrex : m = .mode64 ∨ hasRex pfx = false) (hopen : Opens bs) (hr : r ≠ .error .truncated)
    (h : decodeBody m (pfx.take maxLength) (bs.take (maxLength - pfx.length)) = r) :
    decode m (pfx.map Prefix.byte ++ bs) = r := by
  simp only [decode, hm, if_true, splitFront_take hrex hopen, h]

/-- A window of 15 bytes that ends too early is an instruction that is too long (R60). -/
theorem decode_tooLong_of_window {m : Mode} {pfx : List Prefix} {bs : List Byte} (hm : m.admitted = true)
    (hrex : m = .mode64 ∨ hasRex pfx = false) (hopen : Opens bs) (hlen : maxLength ≤ pfx.length + bs.length)
    (h : decodeBody m (pfx.take maxLength) (bs.take (maxLength - pfx.length)) = .error .truncated) :
    decode m ((pfx.map Prefix.byte ++ bs).take maxLength) = .error .tooLong := by
  simp only [decode, hm, if_true, List.take_take, Nat.min_self, splitFront_take hrex hopen, h, List.length_take,
    List.length_append, List.length_map, Nat.min_eq_left hlen, le_refl]

/-- The answer to bytes that stand within the first 15, where it does not depend on what follows them. -/
theorem decode_append {m : Mode} {pfx : List Prefix} {bs : List Byte} {r : Except DecodeError Instr}
    (hm : m.admitted = true) (hrex : m = .mode64 ∨ hasRex pfx = false) (hopen : Opens bs)
    (hlen : pfx.length + bs.length ≤ maxLength) (hr : r ≠ .error .truncated)
    (h : ∀ rest, decodeBody m pfx (bs ++ rest) = r) (rest : List Byte) :
    decode m (pfx.map Prefix.byte ++ (bs ++ rest)) = r := by
  refine decode_of_window hm hrex (hopen.append rest) hr ?_
  rw [List.take_of_length_le (by omega), List.take_append, List.take_of_length_le (by omega)]
  exact h _

/-! ## One equation for each kind of VEX or EVEX bytes, and for the opcode and the operand after them -/

/-- The instruction of the two-byte VEX sequence, by the byte `P` (R65). -/
def vexC5Instr (pfx : List Prefix) (p : Byte) (reg : BitVec 3) (rm : RM) : Instr :=
  if p.getLsbD 2 then .vunpcklpsVex256C5 pfx ((~~~p.extractLsb' 7 1) ++ reg) (~~~p.extractLsb' 3 4) rm
  else .vunpcklpsVex128C5 pfx ((~~~p.extractLsb' 7 1) ++ reg) (~~~p.extractLsb' 3 4) rm

/-- The instruction of the three-byte VEX sequence, by the bytes `P0` and `P1` (R66). -/
def vexC4Instr (pfx : List Prefix) (p0 p1 : Byte) (reg : BitVec 3) (rm : RM) : Instr :=
  if p1.getLsbD 2 then
    .vunpcklpsVex256C4 pfx (p1.getLsbD 7) (!p0.getLsbD 6) (!p0.getLsbD 5) ((~~~p0.extractLsb' 7 1) ++ reg)
      (~~~p1.extractLsb' 3 4) rm
  else
    .vunpcklpsVex128C4 pfx (p1.getLsbD 7) (!p0.getLsbD 6) (!p0.getLsbD 5) ((~~~p0.extractLsb' 7 1) ++ reg)
      (~~~p1.extractLsb' 3 4) rm

/-- The instruction of the EVEX sequence, by the bytes `P0`, `P1` and `P2` (R69, R78). -/
def evexBytesInstr (pfx : List Prefix) (p0 p1 p2 : Byte) (reg : BitVec 3) (rm : RM) : Instr :=
  evexInstr (p2.extractLsb' 5 2) pfx (!p0.getLsbD 6) (!p0.getLsbD 5)
    ((~~~p0.extractLsb' 4 1) ++ (~~~p0.extractLsb' 7 1) ++ reg) ((~~~p2.extractLsb' 3 1) ++ (~~~p1.extractLsb' 3 4))
    (p2.extractLsb' 0 3) (p2.getLsbD 7) (p2.getLsbD 4) rm

section
variable {m : Mode} {pfx : List Prefix} {rm : RM} {p p0 p1 p2 : Byte}

theorem decodeBody_vexC5 (h32 : m = .mode32 → p.extractLsb' 6 2 = 3#2) (hpp : p.extractLsb' 0 2 ≠ 1#2) (bs : List Byte) :
    decodeBody m pfx (0xC5#8 :: p :: bs) = decodeVexTail m pfx (p.extractLsb' 0 2) (vexC5Instr pfx p) bs := by
  have hles : ¬(m = .mode32 ∧ p.extractLsb' 6 2 ≠ 3#2) := fun h => h.2 (h32 h.1)
  exact (if_neg hles).trans (if_neg hpp)

theorem decodeBody_vexC4_map (h32 : m = .mode32 → p0.extractLsb' 6 2 = 3#2) (hmap : p0.extractLsb' 0 5 = 1#5)
    (bs : List Byte) : decodeBody m pfx (0xC4#8 :: p0 :: bs) = decodeVexC4P1 m pfx p0 bs := by
  have hles : ¬(m = .mode32 ∧ p0.extractLsb' 6 2 ≠ 3#2) := fun h => h.2 (h32 h.1)
  exact (if_neg hles).trans (if_neg (not_not_intro hmap))

theorem decodeBody_vexC4 (h32 : m = .mode32 → p0.extractLsb' 6 2 = 3#2 ∧ p0.getLsbD 5 = true ∧ p1.getLsbD 6 = true)
    (hmap : p0.extractLsb' 0 5 = 1#5) (hpp : p1.extractLsb' 0 2 ≠ 1#2) (bs : List Byte) :
    decodeBody m pfx (0xC4#8 :: p0 :: p1 :: bs) = decodeVexTail m pfx (p1.extractLsb' 0 2) (vexC4Instr pfx p0 p1) bs := by
  have hneutral : ¬(m = .mode32 ∧ (p0.getLsbD 5 = false ∨ p1.getLsbD 6 = false)) := by
    rintro ⟨hm, h⟩
    obtain ⟨-, h5, h6⟩ := h32 hm
    rw [h5, h6] at h
    simp at h
  rw [decodeBody_vexC4_map (fun hm => (h32 hm).1) hmap]
  exact (if_neg hpp).trans (if_neg hneutral)

theorem decodeBody_evex (h32 : m = .mode32 → p0.extractLsb' 6 2 = 3#2) (bs : List Byte) :
    decodeBody m pfx (0x62#8 :: p0 :: p1 :: p2 :: bs) = decodeEvexTail m pfx p0 p1 p2 bs := by
  have hles : ¬(m = .mode32 ∧ p0.extractLsb' 6 2 ≠ 3#2) := fun h => h.2 (h32 h.1)
  exact if_neg hles

theorem decodeVexTail_operand {pp : BitVec 2} (build : BitVec 3 → RM → Instr) (hok : pfx.all Prefix.okBeforeVex = true)
    (hfits : rm.fits (addrSize m pfx) = true) (reg : BitVec 3) (rest : List Byte) :
    decodeVexTail m pfx pp build (0x14#8 :: (modrmBytes reg rm ++ rest))
      = if pp ≠ 0#2 then .error (.invalid .vexPp) else .ok (build reg rm) := by
  simp [decodeVexTail, parseModRM_modrmBytes _ _ _ _ hfits, hok]

/-- In 32-bit mode for neutral extension bits and without 67, no EVEX encoding is uncertain (R70, R84). -/
theorem evex_certain (h32 : m = .mode32 → evexNeutral p0 p1 p2 = true ∧ pfx.contains .addrSize = false) :
    ¬(m = .mode32 ∧ evexNeutral p0 p1 p2 = false) ∧ ¬(m = .mode32 ∧ pfx.contains .addrSize = true) :=
  ⟨fun h => by simp [(h32 h.1).1] at h, fun h => by rw [(h32 h.1).2] at h; cases h.2⟩

theorem decodeEvexTail_operand (h32 : m = .mode32 → evexNeutral p0 p1 p2 = true ∧ pfx.contains .addrSize = false)
    (hfits : rm.fits (addrSize m pfx) = true) (reg : BitVec 3) (rest : List Byte) :
    decodeEvexTail m pfx p0 p1 p2 (0x14#8 :: (modrmBytes reg rm ++ rest)) = decodeEvexFields pfx p0 p1 p2 reg rm := by
  obtain ⟨hneutral, haddr⟩ := evex_certain h32
  simp only [decodeEvexTail, if_neg hneutral, if_neg haddr, ne_eq, not_true_eq_false, if_false,
    parseModRM_modrmBytes _ _ _ _ hfits]

theorem decodeLegacy_operand (hok : pfx.all Prefix.okBeforeLegacy = true) (hfits : rm.fits (addrSize m pfx) = true)
    (reg : BitVec 3) (rest : List Byte) :
    decodeLegacy m pfx (0x14#8 :: (modrmBytes reg rm ++ rest)) = .ok (.unpcklps pfx reg rm) := by
  have hnot (p : Prefix) (hp : p.okBeforeLegacy = false) : p ∉ pfx := fun h => by
    rw [List.all_eq_true.mp hok p h] at hp
    cases hp
  simp [decodeLegacy, parseModRM_modrmBytes _ _ _ _ hfits, hnot .opSize rfl, hnot .lock rfl, hnot .rep rfl,
    hnot .repne rfl]

/-- The EVEX rows of R80 for field values that none of them excludes. -/
theorem decodeEvexFields_ok (hok : pfx.all Prefix.okBeforeVex = true) (hp0 : p0.extractLsb' 0 4 = 1#4)
    (hp1 : p1.extractLsb' 0 3 = 4#3) (hw : p1.getLsbD 7 = false) (hll : p2.extractLsb' 5 2 ≠ 3#2)
    (hz : p2.getLsbD 7 = true → p2.extractLsb' 0 3 ≠ 0#3) (hb : p2.getLsbD 4 = true → rm.isReg = false) (reg : BitVec 3) :
    decodeEvexFields pfx p0 p1 p2 reg rm = .ok (evexBytesInstr pfx p0 p1 p2 reg rm) := by
  have hfixed : evexFixed p0 p1 = true ∧ p0.extractLsb' 0 2 = 1#2 ∧ p1.extractLsb' 0 2 = 0#2 := by
    have h0 : ∀ p0 : Byte, p0.extractLsb' 0 4 = 1#4 → p0.extractLsb' 2 2 = 0#2 ∧ p0.extractLsb' 0 2 = 1#2 := by decide
    have h1 : ∀ p1 : Byte, p1.extractLsb' 0 3 = 4#3 → p1.getLsbD 2 = true ∧ p1.extractLsb' 0 2 = 0#2 := by decide
    simp [evexFixed, h0 p0 hp0, h1 p1 hp1]
  obtain ⟨hfixed, hmap, hpp⟩ := hfixed
  have hz' : ¬(p2.getLsbD 7 = true ∧ p2.extractLsb' 0 3 = 0#3) := fun h => hz h.1 h.2
  have hb' : ¬(p2.getLsbD 4 = true ∧ rm.isReg = true) := fun h => by rw [hb h.1] at h; cases h.2
  simp only [decodeEvexFields, hok, hfixed, hw, if_neg hll, if_neg hz', if_neg hb', hmap, hpp, Bool.not_true,
    Bool.false_eq_true, false_and, if_false, ne_eq, not_true_eq_false]
  rfl

end

/-! ## The bytes of the encoder, one by one -/

/-- The byte after `C5` (R65). -/
def vexC5P (l : Bool) (dest src1 : BitVec 4) : Byte := (~~~dest.extractLsb' 3 1) ++ (~~~src1) ++ BitVec.ofBool l ++ 0#2

/-- The first byte after `C4` (R66). -/
def vexC4P0 (x b : Bool) (dest : BitVec 4) : Byte :=
  (~~~dest.extractLsb' 3 1) ++ BitVec.ofBool (!x) ++ BitVec.ofBool (!b) ++ 1#5

/-- The second byte after `C4` (R66). -/
def vexC4P1 (w l : Bool) (src1 : BitVec 4) : Byte := BitVec.ofBool w ++ (~~~src1) ++ BitVec.ofBool l ++ 0#2

/-- The first byte after `62` (R69). -/
def evexP0 (x b : Bool) (dest : BitVec 5) : Byte :=
  (~~~dest.extractLsb' 3 1) ++ BitVec.ofBool (!x) ++ BitVec.ofBool (!b) ++ (~~~dest.extractLsb' 4 1) ++ 1#4

/-- The second byte after `62` (R69). -/
def evexP1 (src1 : BitVec 5) : Byte := 0#1 ++ (~~~src1.extractLsb' 0 4) ++ 4#3

/-- The third byte after `62` (R69, R78). -/
def evexP2 (ll : BitVec 2) (src1 : BitVec 5) (aaa : BitVec 3) (z bcst : Bool) : Byte :=
  BitVec.ofBool z ++ ll ++ BitVec.ofBool bcst ++ (~~~src1.extractLsb' 4 1) ++ aaa

theorem vexC5Bytes_eq (l : Bool) (dest src1 : BitVec 4) : vexC5Bytes l dest src1 = [0xC5#8, vexC5P l dest src1] := rfl

theorem vexC4Bytes_eq (w x b l : Bool) (dest src1 : BitVec 4) :
    vexC4Bytes w x b l dest src1 = [0xC4#8, vexC4P0 x b dest, vexC4P1 w l src1] := rfl

theorem evexBytes_eq (ll : BitVec 2) (x b : Bool) (dest src1 : BitVec 5) (aaa : BitVec 3) (z bcst : Bool) :
    evexBytes ll x b dest src1 aaa z bcst = [0x62#8, evexP0 x b dest, evexP1 src1, evexP2 ll src1 aaa z bcst] := rfl

/-! ### The fields put into them come out again -/

theorem vexC5P_fields (l : Bool) (dest src1 : BitVec 4) :
    let p := vexC5P l dest src1
    p.getLsbD 2 = l ∧ (~~~p.extractLsb' 7 1) ++ lowReg dest = dest ∧ ~~~p.extractLsb' 3 4 = src1 := by
  revert l dest src1
  decide

theorem vexC4P0_fields (x b : Bool) (dest : BitVec 4) :
    let p0 := vexC4P0 x b dest
    (!p0.getLsbD 6) = x ∧ (!p0.getLsbD 5) = b ∧ (~~~p0.extractLsb' 7 1) ++ lowReg dest = dest := by
  revert x b dest
  decide

theorem vexC4P1_fields (w l : Bool) (src1 : BitVec 4) :
    let p1 := vexC4P1 w l src1
    p1.getLsbD 7 = w ∧ p1.getLsbD 2 = l ∧ ~~~p1.extractLsb' 3 4 = src1 := by
  revert w l src1
  decide

theorem evexP0_fields (x b : Bool) (dest : BitVec 5) :
    let p0 := evexP0 x b dest
    p0.extractLsb' 0 4 = 1#4 ∧ (!p0.getLsbD 6) = x ∧ (!p0.getLsbD 5) = b
      ∧ (~~~p0.extractLsb' 4 1) ++ (~~~p0.extractLsb' 7 1) ++ lowReg dest = dest := by
  revert x b dest
  decide

theorem evexP1_fields (src1 : BitVec 5) :
    let p1 := evexP1 src1
    p1.extractLsb' 0 3 = 4#3 ∧ p1.getLsbD 7 = false ∧ ~~~p1.extractLsb' 3 4 = src1.extractLsb' 0 4 := by
  revert src1
  decide

theorem evexP2_fields (ll : BitVec 2) (src1 : BitVec 5) (aaa : BitVec 3) (z bcst : Bool) :
    let p2 := evexP2 ll src1 aaa z bcst
    p2.extractLsb' 5 2 = ll ∧ ~~~p2.extractLsb' 3 1 = src1.extractLsb' 4 1 ∧ p2.extractLsb' 0 3 = aaa
      ∧ p2.getLsbD 7 = z ∧ p2.getLsbD 4 = bcst := by
  have h : ∀ (ll : BitVec 2) (v : BitVec 1) (aaa : BitVec 3) (z bcst : Bool),
      let p2 : Byte := BitVec.ofBool z ++ ll ++ BitVec.ofBool bcst ++ (~~~v) ++ aaa
      p2.extractLsb' 5 2 = ll ∧ ~~~p2.extractLsb' 3 1 = v ∧ p2.extractLsb' 0 3 = aaa ∧ p2.getLsbD 7 = z
        ∧ p2.getLsbD 4 = bcst := by decide
  exact h ll (src1.extractLsb' 4 1) aaa z bcst

theorem bit_append_low (src1 : BitVec 5) : src1.extractLsb' 4 1 ++ src1.extractLsb' 0 4 = src1 := by
  revert src1
  decide

theorem vexC5Instr_vexC5P (pfx : List Prefix) (l : Bool) (dest src1 : BitVec 4) (rm : RM) :
    vexC5Instr pfx (vexC5P l dest src1) (lowReg dest) rm =
      if l then .vunpcklpsVex256C5 pfx dest src1 rm else .vunpcklpsVex128C5 pfx dest src1 rm := by
  obtain ⟨hl, hdest, hsrc⟩ := vexC5P_fields l dest src1
  rw [vexC5Instr, hl, hdest, hsrc]

theorem vexC4Instr_vexC4P (pfx : List Prefix) (w x b l : Bool) (dest src1 : BitVec 4) (rm : RM) :
    vexC4Instr pfx (vexC4P0 x b dest) (vexC4P1 w l src1) (lowReg dest) rm =
      if l then .vunpcklpsVex256C4 pfx w x b dest src1 rm else .vunpcklpsVex128C4 pfx w x b dest src1 rm := by
  obtain ⟨hx, hb, hdest⟩ := vexC4P0_fields x b dest
  obtain ⟨hw, hl, hsrc⟩ := vexC4P1_fields w l src1
  rw [vexC4Instr, hx, hb, hdest, hw, hl, hsrc]

theorem evexBytesInstr_evexP (pfx : List Prefix) (ll : BitVec 2) (x b : Bool) (dest src1 : BitVec 5) (aaa : BitVec 3)
    (z bcst : Bool) (rm : RM) :
    evexBytesInstr pfx (evexP0 x b dest) (evexP1 src1) (evexP2 ll src1 aaa z bcst) (lowReg dest) rm
      = evexInstr ll pfx x b dest src1 aaa z bcst rm := by
  obtain ⟨-, hx, hb, hdest⟩ := evexP0_fields x b dest
  obtain ⟨-, -, hlow⟩ := evexP1_fields src1
  obtain ⟨hll, hbit, haaa, hz, hbcst⟩ := evexP2_fields ll src1 aaa z bcst
  rw [evexBytesInstr, hx, hb, hdest, hlow, hll, hbit, haaa, hz, hbcst, bit_append_low]

/-! ### From the first bytes of an encoding to its opcode -/

section
variable {m : Mode} {pfx : List Prefix} {rm : RM}

theorem decodeBody_vexC5Bytes {dest src1 : BitVec 4}
    (hext : (m == .mode64 || (decide (dest.toNat < 8) && decide (src1.toNat < 8))) = true) (l : Bool) (bs : List Byte) :
    decodeBody m pfx (vexC5Bytes l dest src1 ++ bs) = decodeVexTail m pfx 0#2 (vexC5Instr pfx (vexC5P l dest src1)) bs := by
  have hpp : (vexC5P l dest src1).extractLsb' 0 2 = 0#2 := vexC5_pp l dest src1
  have h32 : m = .mode32 → (vexC5P l dest src1).extractLsb' 6 2 = 3#2 := by
    rintro rfl
    obtain ⟨-, -, hd, hs⟩ := extensions_neutral (x := false) (b := false) hext
    exact vexC5_top l dest src1 hd hs
  rw [vexC5Bytes_eq, List.cons_append, List.cons_append, List.nil_append, decodeBody_vexC5 h32 (by rw [hpp]; decide), hpp]

/-- What the two bytes after `C4` store in 32-bit mode (R70). -/
theorem vexC4P_neutral {w x b l : Bool} {dest src1 : BitVec 4}
    (hext : (m == .mode64 || (!x && !b && decide (dest.toNat < 8) && decide (src1.toNat < 8))) = true) :
    m = .mode32 → (vexC4P0 x b dest).extractLsb' 6 2 = 3#2 ∧ (vexC4P0 x b dest).getLsbD 5 = true
      ∧ (vexC4P1 w l src1).getLsbD 6 = true := by
  rintro rfl
  obtain ⟨rfl, rfl, hd, hs⟩ := extensions_neutral hext
  obtain ⟨htop, h5⟩ := vexC4_p0_neutral dest hd
  exact ⟨htop, h5, vexC4_p1_neutral w l src1 hs⟩

theorem decodeBody_vexC4Bytes {x b : Bool} {dest src1 : BitVec 4}
    (hext : (m == .mode64 || (!x && !b && decide (dest.toNat < 8) && decide (src1.toNat < 8))) = true) (w l : Bool)
    (bs : List Byte) :
    decodeBody m pfx (vexC4Bytes w x b l dest src1 ++ bs)
      = decodeVexTail m pfx 0#2 (vexC4Instr pfx (vexC4P0 x b dest) (vexC4P1 w l src1)) bs := by
  have hpp : (vexC4P1 w l src1).extractLsb' 0 2 = 0#2 := vexC4_pp w l src1
  rw [vexC4Bytes_eq, List.cons_append, List.cons_append, List.cons_append, List.nil_append,
    decodeBody_vexC4 (vexC4P_neutral hext) (vexC4_map x b dest) (by rw [hpp]; decide), hpp]

/-- What the three bytes after `62` store in 32-bit mode (R70). -/
theorem evexP_neutral {ll : BitVec 2} {x b z bcst : Bool} {dest src1 : BitVec 5} {aaa : BitVec 3}
    (hext : (m == .mode64 || (!x && !b && decide (dest.toNat < 8) && decide (src1.toNat < 8))) = true) :
    m = .mode32 → (evexP0 x b dest).extractLsb' 6 2 = 3#2
      ∧ evexNeutral (evexP0 x b dest) (evexP1 src1) (evexP2 ll src1 aaa z bcst) = true := by
  rintro rfl
  obtain ⟨rfl, rfl, hd, hs⟩ := extensions_neutral hext
  obtain ⟨htop, h5, h4⟩ := evex_p0_neutral dest hd
  have hp0 : (evexP0 false false dest).getLsbD 5 = true ∧ (evexP0 false false dest).getLsbD 4 = true := ⟨h5, h4⟩
  have hp1 : (evexP1 src1).getLsbD 6 = true := evex_p1_neutral src1 hs
  have hp2 : (evexP2 ll src1 aaa z bcst).getLsbD 3 = true := evex_p2_neutral z bcst ll src1 aaa hs
  exact ⟨htop, by rw [evexNeutral, hp0.1, hp0.2, hp1, hp2]; rfl⟩

theorem decodeBody_evexBytes {x b : Bool} {dest src1 : BitVec 5}
    (hext : (m == .mode64 || (!x && !b && decide (dest.toNat < 8) && decide (src1.toNat < 8))) = true) (ll : BitVec 2)
    (aaa : BitVec 3) (z bcst : Bool) (bs : List Byte) :
    decodeBody m pfx (evexBytes ll x b dest src1 aaa z bcst ++ bs)
      = decodeEvexTail m pfx (evexP0 x b dest) (evexP1 src1) (evexP2 ll src1 aaa z bcst) bs :=
  decodeBody_evex (fun hm => (evexP_neutral (ll := ll) (z := z) (bcst := bcst) (aaa := aaa) hext hm).1) bs

/-- In 32-bit mode an EVEX form has no 67 in front (R84). -/
theorem no_addrSize_of_frontFits (h : (m == .mode64 || !pfx.contains .addrSize) = true) :
    m = .mode32 → pfx.contains .addrSize = false := by
  rintro rfl
  simpa using h

end

/-! ## Decoding an encoding (O1) -/

section
variable {m : Mode} {pfx : List Prefix} {rm : RM}

theorem decodeBody_vexC5_encoding {dest src1 : BitVec 4} (hok : pfx.all Prefix.okBeforeVex = true)
    (hfits : rm.fits (addrSize m pfx) = true)
    (hext : (m == .mode64 || (decide (dest.toNat < 8) && decide (src1.toNat < 8))) = true) (l : Bool) (rest : List Byte) :
    decodeBody m pfx (vexC5Bytes l dest src1 ++ 0x14#8 :: modrmBytes (lowReg dest) rm ++ rest)
      = .ok (if l then .vunpcklpsVex256C5 pfx dest src1 rm else .vunpcklpsVex128C5 pfx dest src1 rm) := by
  rw [List.append_assoc, decodeBody_vexC5Bytes hext, List.cons_append, decodeVexTail_operand _ hok hfits, vexC5Instr_vexC5P]
  rfl

theorem decodeBody_vexC4_encoding {x b : Bool} {dest src1 : BitVec 4} (hok : pfx.all Prefix.okBeforeVex = true)
    (hfits : rm.fits (addrSize m pfx) = true)
    (hext : (m == .mode64 || (!x && !b && decide (dest.toNat < 8) && decide (src1.toNat < 8))) = true) (w l : Bool)
    (rest : List Byte) :
    decodeBody m pfx (vexC4Bytes w x b l dest src1 ++ 0x14#8 :: modrmBytes (lowReg dest) rm ++ rest)
      = .ok (if l then .vunpcklpsVex256C4 pfx w x b dest src1 rm else .vunpcklpsVex128C4 pfx w x b dest src1 rm) := by
  rw [List.append_assoc, decodeBody_vexC4Bytes hext, List.cons_append, decodeVexTail_operand _ hok hfits, vexC4Instr_vexC4P]
  rfl

theorem decodeBody_evex_encoding {ll : BitVec 2} {x b : Bool} {dest src1 : BitVec 5} {aaa : BitVec 3} {z bcst : Bool}
    (hfront : (pfx.all Prefix.okBeforeVex && (m == .mode64 || !pfx.contains .addrSize)) = true)
    (hfits : rm.fits (addrSize m pfx) = true)
    (hext : (m == .mode64 || (!x && !b && decide (dest.toNat < 8) && decide (src1.toNat < 8))) = true)
    (hz : (!z || aaa != 0#3) = true) (hb : (!bcst || !rm.isReg) = true) (hll : ll ≠ 3#2) (rest : List Byte) :
    decodeBody m pfx (evexBytes ll x b dest src1 aaa z bcst ++ 0x14#8 :: modrmBytes (lowReg dest) rm ++ rest)
      = .ok (evexInstr ll pfx x b dest src1 aaa z bcst rm) := by
  obtain ⟨hok, haddr⟩ := Bool.and_eq_true_iff.mp hfront
  obtain ⟨hp0, -⟩ := evexP0_fields x b dest
  obtain ⟨hp1, hw, -⟩ := evexP1_fields src1
  obtain ⟨hp2, -, haaa, hzz, hbcst⟩ := evexP2_fields ll src1 aaa z bcst
  rw [List.append_assoc, decodeBody_evexBytes hext, List.cons_append,
    decodeEvexTail_operand (fun hm => ⟨(evexP_neutral hext hm).2, no_addrSize_of_frontFits haddr hm⟩) hfits,
    decodeEvexFields_ok hok hp0 hp1 hw (by rwa [hp2]) (by rw [hzz, haaa]; rintro rfl; simpa using hz)
      (by rw [hbcst]; rintro rfl; simpa using hb),
    evexBytesInstr_evexP]

end

/-- R60 to R79: after the bytes in front, the rest of an encoding is decoded as its instruction. -/
theorem decodeBody_body {m : Mode} {i : Instr} (h : wellFormed m i = true) (rest : List Byte) :
    decodeBody m i.front (i.body ++ rest) = .ok i := by
  obtain ⟨-, hfront, hfits, hext, hz, hb, -⟩ := (wellFormed_iff m i).mp h
  cases i with
  | unpcklps => exact decodeLegacy_operand (Bool.and_eq_true_iff.mp hfront).1 hfits _ rest
  | vunpcklpsVex128C5 => exact decodeBody_vexC5_encoding hfront hfits hext false rest
  | vunpcklpsVex128C4 => exact decodeBody_vexC4_encoding hfront hfits hext _ false rest
  | vunpcklpsVex256C5 => exact decodeBody_vexC5_encoding hfront hfits hext true rest
  | vunpcklpsVex256C4 => exact decodeBody_vexC4_encoding hfront hfits hext _ true rest
  | vunpcklpsEvex128 => exact decodeBody_evex_encoding (ll := 0#2) hfront hfits hext hz hb (by decide) rest
  | vunpcklpsEvex256 => exact decodeBody_evex_encoding (ll := 1#2) hfront hfits hext hz hb (by decide) rest
  | vunpcklpsEvex512 => exact decodeBody_evex_encoding (ll := 2#2) hfront hfits hext hz hb (by decide) rest

/-- R79, for every instruction. -/
theorem encode_length (i : Instr) : (encode i).length = i.len := by
  cases i with
  | unpcklps => exact Laws.EncodeLength.unpcklps ..
  | vunpcklpsVex128C5 => exact Laws.EncodeLength.vunpcklpsVex128C5 ..
  | vunpcklpsVex128C4 => exact Laws.EncodeLength.vunpcklpsVex128C4 ..
  | vunpcklpsVex256C5 => exact Laws.EncodeLength.vunpcklpsVex256C5 ..
  | vunpcklpsVex256C4 => exact Laws.EncodeLength.vunpcklpsVex256C4 ..
  | vunpcklpsEvex128 => exact Laws.EncodeLength.vunpcklpsEvex128 ..
  | vunpcklpsEvex256 => exact Laws.EncodeLength.vunpcklpsEvex256 ..
  | vunpcklpsEvex512 => exact Laws.EncodeLength.vunpcklpsEvex512 ..

theorem front_length_add_body_length (i : Instr) : i.front.length + i.body.length = i.len := by
  rw [← encode_length, encode_eq_front_body, List.length_append, List.length_map]

/-- Settles O1: the bytes in front are split off, and the rest is decoded form by form. -/
theorem decodeInvertsEncode : Obligations.DecodeInvertsEncode := by
  intro m i rest h
  obtain ⟨hm, hfront, -, -, -, -, hlen⟩ := (wellFormed_iff m i).mp h
  have hlen : i.front.length + i.body.length ≤ maxLength := front_length_add_body_length i ▸ of_decide_eq_true hlen
  rw [encode_eq_front_body, List.append_assoc]
  exact decode_append hm (hasRex_front hfront) (body_opens i) hlen (by simp) (decodeBody_body h) rest

/-! ## An encoding that is cut off (O11) -/

/-- Operand bytes that are cut off are not parsed: what they were parsed as would be the whole operand. -/
theorem parseModRM_take {a : ASize} {rm : RM} (hfits : rm.fits a = true) (reg : BitVec 3) {k : Nat} (hk : k < rm.len) :
    parseModRM a ((modrmBytes reg rm).take k) = none := by
  cases h : parseModRM a ((modrmBytes reg rm).take k) with
  | none => rfl
  | some o =>
    obtain ⟨reg', rm'⟩ := o
    obtain ⟨hfits', rest, hrest⟩ := modrmBytes_parseModRM a _ reg' rm' h
    have hwhole : modrmBytes reg rm = modrmBytes reg' rm' ++ (rest ++ (modrmBytes reg rm).drop k) := by
      rw [← List.append_assoc, ← hrest, List.take_append_drop]
    have hsame : some (reg, rm) = some (reg', rm') :=
      calc some (reg, rm)
        _ = parseModRM a (modrmBytes reg rm ++ []) := (parseModRM_modrmBytes a reg rm [] hfits).symm
        _ = parseModRM a (modrmBytes reg' rm' ++ (rest ++ (modrmBytes reg rm).drop k)) := by rw [List.append_nil, ← hwhole]
        _ = some (reg', rm') := parseModRM_modrmBytes a reg' rm' _ hfits'
    have hlen := congrArg List.length hrest
    simp only [Option.some.injEq, Prod.mk.injEq] at hsame
    rw [List.length_take, List.length_append, modrmBytes_length, modrmBytes_length, ← hsame.2] at hlen
    omega

section
variable {m : Mode} {pfx : List Prefix} {rm : RM} {k : Nat}

theorem decodeLegacy_take (hok : pfx.all Prefix.okBeforeLegacy = true) (hfits : rm.fits (addrSize m pfx) = true)
    (reg : BitVec 3) (hk : k < 1 + rm.len) :
    decodeLegacy m pfx ((0x14#8 :: modrmBytes reg rm).take k) = .error .truncated := by
  cases k with
  | zero => rfl
  | succ k =>
    have hop : Prefix.opSize ∉ pfx := fun h => Bool.noConfusion (List.all_eq_true.mp hok _ h)
    simp [decodeLegacy, hop, parseModRM_take hfits reg (show k < rm.len by omega)]

theorem decodeVexTail_take (pp : BitVec 2) (build : BitVec 3 → RM → Instr) (hfits : rm.fits (addrSize m pfx) = true)
    (reg : BitVec 3) (hk : k < 1 + rm.len) :
    decodeVexTail m pfx pp build ((0x14#8 :: modrmBytes reg rm).take k) = .error .truncated := by
  cases k with
  | zero => rfl
  | succ k => simp [decodeVexTail, parseModRM_take hfits reg (show k < rm.len by omega)]

theorem decodeEvexTail_take {p0 p1 p2 : Byte}
    (h32 : m = .mode32 → evexNeutral p0 p1 p2 = true ∧ pfx.contains .addrSize = false)
    (hfits : rm.fits (addrSize m pfx) = true) (reg : BitVec 3) (hk : k < 1 + rm.len) :
    decodeEvexTail m pfx p0 p1 p2 ((0x14#8 :: modrmBytes reg rm).take k) = .error .truncated := by
  obtain ⟨hneutral, haddr⟩ := evex_certain h32
  cases k with
  | zero => rfl
  | succ k =>
    simp only [List.take_succ_cons, decodeEvexTail, if_neg hneutral, if_neg haddr, ne_eq, not_true_eq_false, if_false,
      parseModRM_take hfits reg (show k < rm.len by omega)]

theorem decodeBody_legacy_take (hok : pfx.all Prefix.okBeforeLegacy = true) (hfits : rm.fits (addrSize m pfx) = true)
    (reg : BitVec 3) (hk : k < 2 + rm.len) :
    decodeBody m pfx ((0x0F#8 :: 0x14#8 :: modrmBytes reg rm).take k) = .error .truncated :=
  match k with
  | 0 => rfl
  | _ + 1 => decodeLegacy_take hok hfits reg (by omega)

theorem decodeBody_vexC5_take (l : Bool) {dest src1 : BitVec 4} (hfits : rm.fits (addrSize m pfx) = true)
    (hext : (m == .mode64 || (decide (dest.toNat < 8) && decide (src1.toNat < 8))) = true) (reg : BitVec 3)
    (hk : k < 3 + rm.len) :
    decodeBody m pfx ((vexC5Bytes l dest src1 ++ 0x14#8 :: modrmBytes reg rm).take k) = .error .truncated :=
  match k with
  | 0 => rfl
  | 1 => rfl
  | _ + 2 => (decodeBody_vexC5Bytes hext l _).trans (decodeVexTail_take _ _ hfits reg (by omega))

theorem decodeBody_vexC4_take (w l : Bool) {x b : Bool} {dest src1 : BitVec 4} (hfits : rm.fits (addrSize m pfx) = true)
    (hext : (m == .mode64 || (!x && !b && decide (dest.toNat < 8) && decide (src1.toNat < 8))) = true) (reg : BitVec 3)
    (hk : k < 4 + rm.len) :
    decodeBody m pfx ((vexC4Bytes w x b l dest src1 ++ 0x14#8 :: modrmBytes reg rm).take k) = .error .truncated :=
  match k with
  | 0 => rfl
  | 1 => rfl
  | 2 => decodeBody_vexC4_map (fun hm => (vexC4P_neutral (w := w) (l := l) hext hm).1) (vexC4_map x b dest) []
  | _ + 3 => (decodeBody_vexC4Bytes hext w l _).trans (decodeVexTail_take _ _ hfits reg (by omega))

theorem decodeBody_evex_take (ll : BitVec 2) {x b : Bool} {dest src1 : BitVec 5} (aaa : BitVec 3) (z bcst : Bool)
    (haddr : (m == .mode64 || !pfx.contains .addrSize) = true) (hfits : rm.fits (addrSize m pfx) = true)
    (hext : (m == .mode64 || (!x && !b && decide (dest.toNat < 8) && decide (src1.toNat < 8))) = true) (reg : BitVec 3)
    (hk : k < 5 + rm.len) :
    decodeBody m pfx ((evexBytes ll x b dest src1 aaa z bcst ++ 0x14#8 :: modrmBytes reg rm).take k)
      = .error .truncated :=
  have h32 := evexP_neutral (ll := ll) (z := z) (bcst := bcst) (aaa := aaa) hext
  have hles : ¬(m = .mode32 ∧ (evexP0 x b dest).extractLsb' 6 2 ≠ 3#2) := fun h => h.2 (h32 h.1).1
  match k with
  | 0 => rfl
  | 1 => rfl
  | 2 => if_neg hles
  | 3 => if_neg hles
  | _ + 4 => (decodeBody_evexBytes hext ll aaa z bcst _).trans
    (decodeEvexTail_take (fun hm => ⟨(h32 hm).2, no_addrSize_of_frontFits haddr hm⟩) hfits reg (by omega))

end

/-- Whatever part of an encoding after the bytes in front is cut off, the rest is too short. -/
theorem decodeBody_take_body {m : Mode} {i : Instr} (hfront : frontFits m i = true) (hfits : operandFits m i = true)
    (hext : extensionFits m i = true) {k : Nat} (hk : i.front.length + k < i.len) :
    decodeBody m i.front (i.body.take k) = .error .truncated := by
  cases i <;> simp only [Instr.len, Instr.front] at hk
  case unpcklps => exact decodeBody_legacy_take (Bool.and_eq_true_iff.mp hfront).1 hfits _ (by omega)
  case vunpcklpsVex128C5 => exact decodeBody_vexC5_take _ hfits hext _ (by omega)
  case vunpcklpsVex128C4 => exact decodeBody_vexC4_take _ _ hfits hext _ (by omega)
  case vunpcklpsVex256C5 => exact decodeBody_vexC5_take _ hfits hext _ (by omega)
  case vunpcklpsVex256C4 => exact decodeBody_vexC4_take _ _ hfits hext _ (by omega)
  case vunpcklpsEvex128 => exact decodeBody_evex_take _ _ _ _ (Bool.and_eq_true_iff.mp hfront).2 hfits hext _ (by omega)
  case vunpcklpsEvex256 => exact decodeBody_evex_take _ _ _ _ (Bool.and_eq_true_iff.mp hfront).2 hfits hext _ (by omega)
  case vunpcklpsEvex512 => exact decodeBody_evex_take _ _ _ _ (Bool.and_eq_true_iff.mp hfront).2 hfits hext _ (by omega)

/-- An encoding of more than 15 bytes, of which the first 15 are seen, is too long (R60). -/
theorem decode_take_encode {m : Mode} {i : Instr} (hm : m.admitted = true) (hfront : frontFits m i = true)
    (hfits : operandFits m i = true) (hext : extensionFits m i = true) (hlen : 15 < i.len) :
    decode m ((encode i).take maxLength) = .error .tooLong := by
  have hsum := front_length_add_body_length i
  have hmax : maxLength = 15 := rfl
  rw [encode_eq_front_body]
  refine decode_tooLong_of_window hm (hasRex_front hfront) (body_opens i) (by omega) ?_
  by_cases hroom : i.front.length < maxLength
  · rw [List.take_of_length_le (by omega)]
    exact decodeBody_take_body hfront hfits hext (by omega)
  · rw [Nat.sub_eq_zero_of_le (by omega)]
    rfl

end Sys2Proof

namespace Sys2Proof.Machine

theorem mode_admitted_of_admitted {s : State} (h : s.admitted = true) : s.mode.admitted = true :=
  (Bool.and_eq_true_iff.mp h).1

/-- Where the bytes decode to no instruction, the step's result is that of the decoder's error (R80). -/
theorem step_of_decode_error {s : State} {e : DecodeError} (hadm : s.admitted = true) (htf : s.trapFlag = false)
    (h : decode s.mode s.fetch = .error e) : step s = decodeErrorResult e := by
  simp [step, hadm, htf, h]

theorem step_of_decode_ok {s : State} {i : Instr} (hadm : s.admitted = true) (htf : s.trapFlag = false)
    (h : decode s.mode s.fetch = .ok i) : step s = exec i s := by
  simp [step, hadm, htf, h]

/-- Settles O11: the 15 bytes that are fetched are a cut-off encoding. -/
theorem longInstructionIsGeneralProtection : Obligations.LongInstructionIsGeneralProtection := by
  intro s i hadm htf hfront hfits hext hlen hfetch
  refine step_of_decode_error (e := .tooLong) hadm htf ?_
  rw [hfetch]
  exact decode_take_encode (mode_admitted_of_admitted hadm) hfront hfits hext hlen

/-! ## Where memory at the program counter holds an encoding (O14) -/

/-- The bytes that are fetched begin with those that stand where they are fetched from. -/
theorem begins_fetchFrom {s : State} {bs : List Byte} {i n : Nat} (hlen : bs.length ≤ n)
    (h : ∀ k, k < bs.length → ∃ pa, s.codeAddress (i + k) = some pa ∧ bs[k]? = some (s.mem.read pa)) :
    bs <+: s.fetchFrom i n := by
  induction bs generalizing i n with
  | nil => exact List.nil_prefix
  | cons b bs ih =>
    obtain ⟨n, rfl⟩ : ∃ n', n = n' + 1 := ⟨n - 1, by simp only [List.length_cons] at hlen; omega⟩
    obtain ⟨pa, hpa, hb⟩ := h 0 (by simp)
    simp only [List.getElem?_cons_zero, Option.some.injEq] at hb
    simp only [State.fetchFrom, show s.codeAddress i = some pa from hpa, hb]
    refine List.cons_prefix_cons.mpr ⟨rfl, ih (by simpa using hlen) fun k hk => ?_⟩
    obtain ⟨pa', hpa', hb'⟩ := h (k + 1) (by simpa using hk)
    exact ⟨pa', by rwa [Nat.add_assoc, Nat.add_comm 1], by simpa using hb'⟩

/-- Settles O14: the bytes fetched begin with the encoding, which is decoded whatever follows it. -/
theorem encodedBytesAtProgramCounterRun : Obligations.EncodedBytesAtProgramCounterRun := by
  intro s i hadm htf hwf hmem
  obtain ⟨-, -, -, -, -, -, hlen⟩ := (wellFormed_iff s.mode i).mp hwf
  have hfetch : encode i <+: s.fetch := by
    refine begins_fetchFrom (encode_length i ▸ of_decide_eq_true hlen) fun k hk => ?_
    rw [Nat.zero_add]
    exact hmem k (encode_length i ▸ hk)
  obtain ⟨rest, hrest⟩ := hfetch
  exact step_of_decode_ok hadm htf (hrest ▸ decodeInvertsEncode s.mode i rest hwf)

end Sys2Proof.Machine

namespace Sys2Proof

/-! ## What is decoded is an encoding (O2) -/

/-- The bytes begin with the instruction's own after those in front, and the instruction is well-formed but for its length. -/
structure Reads (m : Mode) (pfx : List Prefix) (bs : List Byte) (i : Instr) : Prop where
  front     : i.front = pfx
  bytes     : ∃ rest, bs = i.body ++ rest
  frontOk   : frontFits m i = true
  operand   : operandFits m i = true
  extension : extensionFits m i = true
  zeroing   : zeroingFits i = true
  broadcast : broadcastFits i = true

section
variable {m : Mode} {pfx : List Prefix} {rm : RM} {reg : BitVec 3} {p p0 p1 p2 : Byte} {bs rest : List Byte} {i : Instr}

/-! ### The operand, and what the bytes in front must be -/

theorem decodeVexTail_ok {pp : BitVec 2} {build : BitVec 3 → RM → Instr} (h : decodeVexTail m pfx pp build bs = .ok i) :
    ∃ reg rm rest, bs = 0x14#8 :: (modrmBytes reg rm ++ rest) ∧ i = build reg rm ∧ rm.fits (addrSize m pfx) = true
      ∧ pfx.all Prefix.okBeforeVex = true ∧ pp = 0#2 := by
  cases bs with
  | nil => cases h
  | cons op bs =>
    simp only [decodeVexTail, ite_error_eq_ok] at h
    obtain ⟨hop, h⟩ := h
    cases hp : parseModRM (addrSize m pfx) bs with
    | none => simp [hp] at h
    | some o =>
      obtain ⟨reg, rm⟩ := o
      simp only [hp, ite_error_eq_ok] at h
      obtain ⟨hok, hpp, h⟩ := h
      obtain ⟨hfits, rest, rfl⟩ := modrmBytes_parseModRM _ bs reg rm hp
      cases h
      exact ⟨reg, rm, rest, by rw [not_not.mp hop], rfl, hfits, by simpa using hok, not_not.mp hpp⟩

theorem decodeEvexTail_ok (h : decodeEvexTail m pfx p0 p1 p2 bs = .ok i) :
    (m = .mode32 → evexNeutral p0 p1 p2 = true ∧ pfx.contains .addrSize = false) ∧
    ∃ reg rm rest, bs = 0x14#8 :: (modrmBytes reg rm ++ rest) ∧ decodeEvexFields pfx p0 p1 p2 reg rm = .ok i
      ∧ rm.fits (addrSize m pfx) = true := by
  cases bs with
  | nil => cases h
  | cons op bs =>
    simp only [decodeEvexTail, ite_error_eq_ok] at h
    obtain ⟨hneutral, haddr, hop, h⟩ := h
    cases hp : parseModRM (addrSize m pfx) bs with
    | none => simp [hp] at h
    | some o =>
      obtain ⟨reg, rm⟩ := o
      simp only [hp] at h
      obtain ⟨hfits, rest, rfl⟩ := modrmBytes_parseModRM _ bs reg rm hp
      refine ⟨fun hm => ⟨?_, ?_⟩, reg, rm, rest, by rw [not_not.mp hop], h, hfits⟩
      · simpa [hm] using hneutral
      · simpa [hm] using haddr

/-- The EVEX bytes of an accepted instruction have none of the values that R80 excludes. -/
theorem decodeEvexFields_eq_ok (h : decodeEvexFields pfx p0 p1 p2 reg rm = .ok i) :
    i = evexBytesInstr pfx p0 p1 p2 reg rm ∧ pfx.all Prefix.okBeforeVex = true ∧ p0.extractLsb' 0 4 = 1#4
      ∧ p1.extractLsb' 0 3 = 4#3 ∧ p1.getLsbD 7 = false ∧ p2.extractLsb' 5 2 ≠ 3#2
      ∧ (!p2.getLsbD 7 || p2.extractLsb' 0 3 != 0#3) = true ∧ (!p2.getLsbD 4 || !rm.isReg) = true := by
  simp only [decodeEvexFields, ite_error_eq_ok] at h
  obtain ⟨hok, hfixed, hw, hll, hz, hb, hpp, hmap, h⟩ := h
  have h0 : ∀ p0 : Byte, p0.extractLsb' 2 2 = 0#2 → p0.extractLsb' 0 2 = 1#2 → p0.extractLsb' 0 4 = 1#4 := by decide
  have h1 : ∀ p1 : Byte, p1.getLsbD 2 = true → p1.extractLsb' 0 2 = 0#2 → p1.extractLsb' 0 3 = 4#3 := by decide
  have hfixed : p0.extractLsb' 2 2 = 0#2 ∧ p1.getLsbD 2 = true := by simpa [evexFixed] using hfixed
  have hpp := not_not.mp hpp
  cases h
  exact ⟨rfl, by simpa using hok, h0 p0 hfixed.1 (not_not.mp hmap), h1 p1 hfixed.2 hpp, by simpa [hpp] using hw, hll,
    by cases hp2 : p2.getLsbD 7 <;> simp_all, by cases hp2 : p2.getLsbD 4 <;> simp_all⟩

/-- Of the bytes in front, 66, LOCK, F2 and F3 are none that the legacy form is accepted with (R63). -/
theorem okBeforeLegacy_of_not_mem (h66 : Prefix.opSize ∉ pfx) (hlock : Prefix.lock ∉ pfx) (hf3 : Prefix.rep ∉ pfx)
    (hf2 : Prefix.repne ∉ pfx) : pfx.all Prefix.okBeforeLegacy = true := by
  rw [List.all_eq_true]
  intro q hq
  cases q with
  | seg | addrSize | rex => rfl
  | opSize => exact absurd hq h66
  | lock => exact absurd hq hlock
  | rep => exact absurd hq hf3
  | repne => exact absurd hq hf2

theorem reads_decodeLegacy (hrex : m = .mode64 ∨ hasRex pfx = false) (h : decodeLegacy m pfx bs = .ok i) :
    Reads m pfx (0x0F#8 :: bs) i := by
  cases bs with
  | nil => cases h
  | cons op bs =>
    simp only [decodeLegacy, ite_error_eq_ok] at h
    obtain ⟨hop, h66, h⟩ := h
    cases hp : parseModRM (addrSize m pfx) bs with
    | none => simp [hp] at h
    | some o =>
      obtain ⟨reg, rm⟩ := o
      simp only [hp, ite_error_eq_ok] at h
      obtain ⟨hlock, hrep, h⟩ := h
      obtain ⟨hfits, rest, rfl⟩ := modrmBytes_parseModRM _ bs reg rm hp
      simp only [List.contains_iff_mem, Bool.or_eq_true, not_or] at h66 hlock hrep
      have hok := okBeforeLegacy_of_not_mem h66 hlock hrep.1 hrep.2
      cases h
      exact ⟨rfl, ⟨rest, by rw [not_not.mp hop]; rfl⟩, by simpa [frontFits, hok] using hrex, hfits, rfl, rfl, rfl⟩

/-! ### The fields of a VEX or EVEX byte, put together again -/

theorem lowReg_append (v : BitVec 1) (reg : BitVec 3) : lowReg (v ++ reg) = reg := by
  revert v reg
  decide

theorem lowReg_append_append (u v : BitVec 1) (reg : BitVec 3) : lowReg (u ++ v ++ reg) = reg := by
  revert u v reg
  decide

theorem vexC5P_of_fields (hpp : p.extractLsb' 0 2 = 0#2) (reg : BitVec 3) :
    vexC5P (p.getLsbD 2) ((~~~p.extractLsb' 7 1) ++ reg) (~~~p.extractLsb' 3 4) = p := by
  revert p reg
  decide

theorem vexC4P0_of_fields (hmap : p0.extractLsb' 0 5 = 1#5) (reg : BitVec 3) :
    vexC4P0 (!p0.getLsbD 6) (!p0.getLsbD 5) ((~~~p0.extractLsb' 7 1) ++ reg) = p0 := by
  revert p0 reg
  decide

theorem vexC4P1_of_fields (hpp : p1.extractLsb' 0 2 = 0#2) :
    vexC4P1 (p1.getLsbD 7) (p1.getLsbD 2) (~~~p1.extractLsb' 3 4) = p1 := by
  revert p1
  decide

theorem evexP0_of_fields (hp0 : p0.extractLsb' 0 4 = 1#4) (reg : BitVec 3) :
    evexP0 (!p0.getLsbD 6) (!p0.getLsbD 5) ((~~~p0.extractLsb' 4 1) ++ (~~~p0.extractLsb' 7 1) ++ reg) = p0 := by
  revert p0 reg
  decide

theorem evexP1_of_fields (hp1 : p1.extractLsb' 0 3 = 4#3) (hw : p1.getLsbD 7 = false) (v : BitVec 1) :
    evexP1 (v ++ ~~~p1.extractLsb' 3 4) = p1 := by
  revert p1 v
  decide

theorem evexP2_of_fields (p2 : Byte) (v : BitVec 4) :
    evexP2 (p2.extractLsb' 5 2) ((~~~p2.extractLsb' 3 1) ++ v) (p2.extractLsb' 0 3) (p2.getLsbD 7) (p2.getLsbD 4) = p2 := by
  revert p2 v
  decide

/-! ### Neutral extension bits name registers 0 to 7 (R70) -/

theorem vexC5_neutral_lt (h : p.extractLsb' 6 2 = 3#2) (reg : BitVec 3) :
    ((~~~p.extractLsb' 7 1) ++ reg).toNat < 8 ∧ (~~~p.extractLsb' 3 4).toNat < 8 := by
  revert p reg
  decide

theorem vexC4_neutral_lt (htop : p0.extractLsb' 6 2 = 3#2) (reg : BitVec 3) :
    p0.getLsbD 6 = true ∧ ((~~~p0.extractLsb' 7 1) ++ reg).toNat < 8 := by
  revert p0 reg
  decide

theorem vvvv_neutral_lt (h6 : p1.getLsbD 6 = true) : (~~~p1.extractLsb' 3 4).toNat < 8 := by
  revert p1
  decide

theorem evex_dest_neutral_lt (htop : p0.extractLsb' 6 2 = 3#2) (h4 : p0.getLsbD 4 = true) (reg : BitVec 3) :
    p0.getLsbD 6 = true ∧ ((~~~p0.extractLsb' 4 1) ++ (~~~p0.extractLsb' 7 1) ++ reg).toNat < 8 := by
  revert p0 reg
  decide

theorem evex_src1_neutral_lt (h6 : p1.getLsbD 6 = true) (h3 : p2.getLsbD 3 = true) :
    ((~~~p2.extractLsb' 3 1) ++ (~~~p1.extractLsb' 3 4)).toNat < 8 := by
  have hv : ~~~p2.extractLsb' 3 1 = 0#1 := by
    revert p2
    decide
  rw [hv]
  revert p1
  decide

theorem vexC5_extension (hm : m.admitted = true) (h32 : m = .mode32 → p.extractLsb' 6 2 = 3#2) (reg : BitVec 3) :
    (m == .mode64 || (decide (((~~~p.extractLsb' 7 1) ++ reg).toNat < 8)
      && decide ((~~~p.extractLsb' 3 4).toNat < 8))) = true := by
  cases m with
  | mode64 => rfl
  | mode32 => simpa using vexC5_neutral_lt (h32 rfl) reg
  | _ => cases hm

theorem vexC4_extension (hm : m.admitted = true)
    (h32 : m = .mode32 → p0.extractLsb' 6 2 = 3#2 ∧ p0.getLsbD 5 = true ∧ p1.getLsbD 6 = true) (reg : BitVec 3) :
    (m == .mode64 || (!(!p0.getLsbD 6) && !(!p0.getLsbD 5)
      && decide (((~~~p0.extractLsb' 7 1) ++ reg).toNat < 8) && decide ((~~~p1.extractLsb' 3 4).toNat < 8))) = true := by
  cases m with
  | mode64 => rfl
  | mode32 =>
    obtain ⟨htop, h5, h6⟩ := h32 rfl
    obtain ⟨hx, hdest⟩ := vexC4_neutral_lt htop reg
    rw [hx, h5, decide_eq_true hdest, decide_eq_true (vvvv_neutral_lt h6)]
    rfl
  | _ => cases hm

theorem evex_extension (hm : m.admitted = true)
    (h32 : m = .mode32 → p0.extractLsb' 6 2 = 3#2 ∧ evexNeutral p0 p1 p2 = true) (reg : BitVec 3) :
    (m == .mode64 || (!(!p0.getLsbD 6) && !(!p0.getLsbD 5)
      && decide (((~~~p0.extractLsb' 4 1) ++ (~~~p0.extractLsb' 7 1) ++ reg).toNat < 8)
      && decide (((~~~p2.extractLsb' 3 1) ++ (~~~p1.extractLsb' 3 4)).toNat < 8))) = true := by
  cases m with
  | mode64 => rfl
  | mode32 =>
    obtain ⟨htop, hneutral⟩ := h32 rfl
    simp only [evexNeutral, Bool.and_eq_true] at hneutral
    obtain ⟨⟨⟨h5, h4⟩, h6⟩, h3⟩ := hneutral
    obtain ⟨hx, hdest⟩ := evex_dest_neutral_lt htop h4 reg
    rw [hx, h5, decide_eq_true hdest, decide_eq_true (evex_src1_neutral_lt h6 h3)]
    rfl
  | _ => cases hm

/-! ### The forms -/

theorem reads_vexC5Instr (hm : m.admitted = true) (h32 : m = .mode32 → p.extractLsb' 6 2 = 3#2)
    (hpp : p.extractLsb' 0 2 = 0#2) (hok : pfx.all Prefix.okBeforeVex = true) (hfits : rm.fits (addrSize m pfx) = true) :
    Reads m pfx (0xC5#8 :: p :: 0x14#8 :: (modrmBytes reg rm ++ rest)) (vexC5Instr pfx p reg rm) := by
  have hbytes : 0xC5#8 :: p :: 0x14#8 :: (modrmBytes reg rm ++ rest) =
      vexC5Bytes (p.getLsbD 2) ((~~~p.extractLsb' 7 1) ++ reg) (~~~p.extractLsb' 3 4)
        ++ 0x14#8 :: modrmBytes (lowReg ((~~~p.extractLsb' 7 1) ++ reg)) rm ++ rest := by
    rw [vexC5Bytes_eq, vexC5P_of_fields hpp, lowReg_append]
    rfl
  have hext := vexC5_extension hm h32 reg
  unfold vexC5Instr
  cases hl : p.getLsbD 2 <;> rw [hl] at hbytes
  · exact ⟨rfl, ⟨rest, hbytes⟩, hok, hfits, hext, rfl, rfl⟩
  · exact ⟨rfl, ⟨rest, hbytes⟩, hok, hfits, hext, rfl, rfl⟩

theorem reads_vexC4Instr (hm : m.admitted = true)
    (h32 : m = .mode32 → p0.extractLsb' 6 2 = 3#2 ∧ p0.getLsbD 5 = true ∧ p1.getLsbD 6 = true)
    (hmap : p0.extractLsb' 0 5 = 1#5) (hpp : p1.extractLsb' 0 2 = 0#2) (hok : pfx.all Prefix.okBeforeVex = true)
    (hfits : rm.fits (addrSize m pfx) = true) :
    Reads m pfx (0xC4#8 :: p0 :: p1 :: 0x14#8 :: (modrmBytes reg rm ++ rest)) (vexC4Instr pfx p0 p1 reg rm) := by
  have hbytes : 0xC4#8 :: p0 :: p1 :: 0x14#8 :: (modrmBytes reg rm ++ rest) =
      vexC4Bytes (p1.getLsbD 7) (!p0.getLsbD 6) (!p0.getLsbD 5) (p1.getLsbD 2) ((~~~p0.extractLsb' 7 1) ++ reg)
          (~~~p1.extractLsb' 3 4)
        ++ 0x14#8 :: modrmBytes (lowReg ((~~~p0.extractLsb' 7 1) ++ reg)) rm ++ rest := by
    rw [vexC4Bytes_eq, vexC4P0_of_fields hmap, vexC4P1_of_fields hpp, lowReg_append]
    rfl
  have hext := vexC4_extension hm h32 reg
  unfold vexC4Instr
  cases hl : p1.getLsbD 2 <;> rw [hl] at hbytes
  · exact ⟨rfl, ⟨rest, hbytes⟩, hok, hfits, hext, rfl, rfl⟩
  · exact ⟨rfl, ⟨rest, hbytes⟩, hok, hfits, hext, rfl, rfl⟩

/-- The three EVEX forms alike: bytes and fields that agree are read as the form of `L'L`. -/
theorem reads_evexInstr {ll : BitVec 2} {x b z bcst : Bool} {dest src1 : BitVec 5} {aaa : BitVec 3} (hll : ll ≠ 3#2)
    (hok : (pfx.all Prefix.okBeforeVex && (m == .mode64 || !pfx.contains .addrSize)) = true)
    (hfits : rm.fits (addrSize m pfx) = true)
    (hext : (m == .mode64 || (!x && !b && decide (dest.toNat < 8) && decide (src1.toNat < 8))) = true)
    (hz : (!z || aaa != 0#3) = true) (hb : (!bcst || !rm.isReg) = true)
    (hbytes : ∃ rest, bs = evexBytes ll x b dest src1 aaa z bcst ++ 0x14#8 :: modrmBytes (lowReg dest) rm ++ rest) :
    Reads m pfx bs (evexInstr ll pfx x b dest src1 aaa z bcst rm) := by
  have h4 : ∀ ll : BitVec 2, ll ≠ 3#2 → ll = 0#2 ∨ ll = 1#2 ∨ ll = 2#2 := by decide
  obtain rfl | rfl | rfl := h4 ll hll
  · exact ⟨rfl, hbytes, hok, hfits, hext, hz, hb⟩
  · exact ⟨rfl, hbytes, hok, hfits, hext, hz, hb⟩
  · exact ⟨rfl, hbytes, hok, hfits, hext, hz, hb⟩

theorem reads_decodeEvexTail (hm : m.admitted = true) (h32 : m = .mode32 → p0.extractLsb' 6 2 = 3#2)
    (h : decodeEvexTail m pfx p0 p1 p2 bs = .ok i) : Reads m pfx (0x62#8 :: p0 :: p1 :: p2 :: bs) i := by
  obtain ⟨hcertain, reg, rm, rest, rfl, h, hfits⟩ := decodeEvexTail_ok h
  obtain ⟨rfl, hok, hp0, hp1, hw, hll, hz, hb⟩ := decodeEvexFields_eq_ok h
  have haddr : (m == .mode64 || !pfx.contains .addrSize) = true := by
    cases m with
    | mode64 => rfl
    | mode32 => rw [(hcertain rfl).2]; rfl
    | _ => cases hm
  refine reads_evexInstr hll (by rw [hok, haddr]; rfl) hfits (evex_extension hm (fun e => ⟨h32 e, (hcertain e).1⟩) reg) hz hb
    ⟨rest, ?_⟩
  rw [evexBytes_eq, evexP0_of_fields hp0, evexP1_of_fields hp1 hw, evexP2_of_fields, lowReg_append_append]
  rfl

end

/-- A check of 32-bit mode that was passed. -/
theorem of_not_mode32_and {m : Mode} {c : Prop} (h : ¬(m = .mode32 ∧ ¬c)) : m = .mode32 → c :=
  fun hm => not_not.mp fun hc => h ⟨hm, hc⟩

/-- What is read after the bytes in front is the rest of an encoding (R60 to R80). -/
theorem reads_decodeBody {m : Mode} {pfx : List Prefix} {bs : List Byte} {i : Instr} (hm : m.admitted = true)
    (hrex : m = .mode64 ∨ hasRex pfx = false) (h : decodeBody m pfx bs = .ok i) : Reads m pfx bs i := by
  cases bs with
  | nil => cases h
  | cons c bs =>
    simp only [decodeBody] at h
    split at h
    · next hc => exact hc ▸ reads_decodeLegacy hrex h
    split at h
    · next hc =>
      subst hc
      match bs with
      | [] => cases h
      | p :: bs =>
        simp only [decodeVexC5, ite_error_eq_ok] at h
        obtain ⟨hles, -, h⟩ := h
        obtain ⟨reg, rm, rest, rfl, rfl, hfits, hok, hpp⟩ := decodeVexTail_ok h
        exact reads_vexC5Instr hm (of_not_mode32_and hles) hpp hok hfits
    split at h
    · next hc =>
      subst hc
      match bs with
      | [] => cases h
      | [p0] => simp [decodeVexC4, decodeVexC4P1, ite_error_eq_ok] at h
      | p0 :: p1 :: bs =>
        simp only [decodeVexC4, decodeVexC4P1, ite_error_eq_ok] at h
        obtain ⟨hles, hmap, -, hneutral, h⟩ := h
        obtain ⟨reg, rm, rest, rfl, rfl, hfits, hok, hpp⟩ := decodeVexTail_ok h
        refine reads_vexC4Instr hm (fun e => ⟨of_not_mode32_and hles e, ?_⟩) (not_not.mp hmap) hpp hok hfits
        simpa [e] using hneutral
    split at h
    · next hc =>
      subst hc
      match bs with
      | [] => cases h
      | [p0] => simp [decodeEvex, ite_error_eq_ok] at h
      | [p0, p1] => simp [decodeEvex, ite_error_eq_ok] at h
      | p0 :: p1 :: p2 :: bs =>
        simp only [decodeEvex, ite_error_eq_ok] at h
        exact reads_decodeEvexTail hm (of_not_mode32_and h.1) h.2
    · cases h

theorem mode_admitted_of_decode {m : Mode} {bs : List Byte} {i : Instr} (h : decode m bs = .ok i) : m.admitted = true := by
  by_contra hm
  simp [decode, hm] at h

theorem Reads.wellFormed {m : Mode} {pfx : List Prefix} {bs : List Byte} {i : Instr} (h : Reads m pfx bs i)
    (hm : m.admitted = true) (hlen : i.len ≤ maxLength) : wellFormed m i = true :=
  (wellFormed_iff m i).mpr
    ⟨hm, h.frontOk, h.operand, h.extension, h.zeroing, h.broadcast, decide_eq_true hlen⟩

/-- Settles O2: the bytes in front and what is read after them are those of the instruction's encoding. -/
theorem encodeInvertsDecode : Obligations.EncodeInvertsDecode := by
  intro m bs i h
  have hm := mode_admitted_of_decode h
  obtain ⟨hwindow, hrex⟩ := splitFront_append m (bs.take maxLength)
  have hreads := reads_decodeBody hm hrex (decodeBody_of_decode h)
  obtain ⟨rest, hrest⟩ := hreads.bytes
  have hbegin : encode i <+: bs := by
    refine List.IsPrefix.trans ⟨rest, ?_⟩ (List.take_prefix maxLength bs)
    rw [encode_eq_front_body, hreads.front, List.append_assoc, ← hrest, hwindow]
  have hlen := encode_length i
  obtain ⟨tail, rfl⟩ := hbegin
  refine ⟨hreads.wellFormed hm (decode_len_le h), ?_, (List.take_left' hlen).symm⟩
  rw [List.length_append, hlen]
  exact Nat.le_add_right ..

end Sys2Proof

/-! # The record of a decoded instruction meets the checks of R81 (O3) -/

namespace Sys2Proof.Machine

/-! ## The second source -/

/-- A memory operand is the address that its bytes name (R81). -/
theorem rmAddr_of_src2_mem {m : Mode} {pfx : List Prefix} {evex x b bcst : Bool} {n : Nat} {o : RM} {a : Addr} {q : Bool}
    (h : rmSrc2 m pfx evex x b n bcst o = .mem a q) : q = bcst ∧ rmAddr m pfx x b n o = some a
      ∧ a.base.map Fin.val = o.baseNumber b ∧ a.index.map Fin.val = o.indexNumber x := by
  have := rmSrc2_isNamed m pfx evex x b bcst n o
  rwa [h] at this

theorem rmNum_of_src2_reg {m : Mode} {pfx : List Prefix} {evex x b bcst : Bool} {n : Nat} {o : RM} {q : Fin 32}
    (h : rmSrc2 m pfx evex x b n bcst o = .reg q) :
    ∃ rm, o = .reg rm ∧ q.val = (if evex then 16 * x.toNat else 0) + 8 * b.toNat + rm.toNat := by
  have := rmSrc2_isNamed m pfx evex x b bcst n o
  rwa [h] at this

theorem addrSize_mode64 (pfx : List Prefix) : addrSize .mode64 pfx = if pfx.contains .addrSize then .a32 else .a64 := by
  unfold addrSize
  cases pfx.contains .addrSize <;> rfl

theorem addrSize_mode32 (pfx : List Prefix) : addrSize .mode32 pfx = if pfx.contains .addrSize then .a16 else .a32 := by
  unfold addrSize
  cases pfx.contains .addrSize <;> rfl

/-- The address size is the one of the mode and of 67 (R72, R84). -/
theorem rmAddr_asize {m : Mode} {pfx : List Prefix} {x b : Bool} {n : Nat} {o : RM} {a : Addr}
    (h : rmAddr m pfx x b n o = some a) : a.asize = addrSize m pfx := by
  cases o <;> cases h <;> rfl

/-- Only 64-bit mode has addresses relative to the next instruction (R72). -/
theorem rmAddr_riprel {m : Mode} {pfx : List Prefix} {x b : Bool} {n : Nat} {o : RM} {a : Addr}
    (h : rmAddr m pfx x b n o = some a) (hrip : a.riprel = true) : m = .mode64 := by
  cases o <;> cases h <;> simp [mkAddr] at hrip
  exact hrip

/-- Without an extension bit the base is one of the first eight registers (R26). -/
theorem baseNumber_lt {o : RM} {k : Nat} (h : o.baseNumber false = some k) : k < 8 := by
  have hall : ∀ k ∈ [3, 3, 5, 5, 6, 7, 5, 3], k < 8 := by decide
  have h3 (q : BitVec 3) (hk : 8 * false.toNat + q.toNat = k) : k < 8 := by
    have := q.isLt
    simp at hk
    omega
  cases o with
  | reg | disp32 | sibDisp32 | disp16 => cases h
  | ind q | ind8 q | ind32 q | sib _ _ q | sib8 _ _ q | sib32 _ _ q => exact h3 q (Option.some.inj h)
  | ind16 | ind16d8 | ind16d16 => exact hall k (List.mem_of_getElem? h)

theorem indexNumber_lt {o : RM} {k : Nat} (h : o.indexNumber false = some k) : k < 8 := by
  have hall : ∀ k ∈ [6, 7, 6, 7], k < 8 := by decide
  have h3 (i : BitVec 3)
      (hk : (if 8 * false.toNat + i.toNat = 4 then none else some (8 * false.toNat + i.toNat)) = some k) : k < 8 := by
    have := i.isLt
    simp at hk
    omega
  cases o with
  | reg | ind | disp32 | ind8 | ind32 | disp16 => cases h
  | sib _ i | sibDisp32 _ i | sib8 _ i | sib32 _ i => exact h3 i h
  | ind16 | ind16d8 | ind16d16 => exact hall k (List.mem_of_getElem? h)

/-! ## The checks, one by one -/

theorem nameable_eq (f : Form) (m : Mode) :
    f.nameable m = if m = .mode64 then (if f.isEvex then 32 else 16) else 8 := by
  cases f <;> rfl

/-- `reg_range`, for a record whose second source is that of an operand: in 32-bit mode without extension bits. -/
theorem regRange_of_lt {m : Mode} {r : DecodedInst} {pfx : List Prefix} {evex x b bcst : Bool} {n : Nat} {o : RM}
    (hevex : r.form.isEvex = evex) (hsrc : r.src2 = rmSrc2 m pfx evex x b n bcst o) (h32 : m ≠ .mode64 → x = false ∧ b = false)
    (hdest : r.dest.val < r.form.nameable m) (hsrc1 : r.src1.val < r.form.nameable m) : r.regRange m = true := by
  rw [DecodedInst.regRange, decide_eq_true hdest, decide_eq_true hsrc1]
  cases hs : r.src2 with
  | reg q =>
    obtain ⟨rm, -, hq⟩ := rmNum_of_src2_reg (hsrc.symm.trans hs)
    have hrm := rm.isLt
    have hx := Bool.toNat_le x
    have hb := Bool.toNat_le b
    suffices q.val < r.form.nameable m by simpa using this
    rw [nameable_eq, hevex, hq]
    by_cases hm : m = .mode64
    · simp only [hm, if_true]
      split <;> omega
    · obtain ⟨rfl, rfl⟩ := h32 hm
      simp [hm, hrm]
  | mem a q =>
    obtain ⟨-, -, hbase, hindex⟩ := rmAddr_of_src2_mem (hsrc.symm.trans hs)
    by_cases hm : m = .mode64
    · simp [hm]
    · obtain ⟨rfl, rfl⟩ := h32 hm
      have hbase8 : a.base.all (fun k => decide (k.val < 8)) = true := by
        cases hb : a.base with
        | none => rfl
        | some k => exact decide_eq_true (baseNumber_lt (by rw [← hbase, hb]; rfl))
      have hindex8 : a.index.all (fun k => decide (k.val < 8)) = true := by
        cases hi : a.index with
        | none => rfl
        | some k => exact decide_eq_true (indexNumber_lt (by rw [← hindex, hi]; rfl))
      simp [hbase8, hindex8]

/-- `mode_addr`, for a record whose second source is that of an operand. -/
theorem modeAddr_of_src2 {m : Mode} {r : DecodedInst} {pfx : List Prefix} {evex x b bcst : Bool} {n : Nat} {o : RM}
    (hm : m.admitted = true) (hsrc : r.src2 = rmSrc2 m pfx evex x b n bcst o) : r.modeAddr m = true := by
  unfold DecodedInst.modeAddr
  cases hs : r.src2 with
  | reg q => rfl
  | mem a q =>
    obtain ⟨-, haddr, -⟩ := rmAddr_of_src2_mem (hsrc.symm.trans hs)
    have hsize := rmAddr_asize haddr
    cases m with
    | mode64 =>
      suffices a.asize ≠ .a16 by simpa using this
      rw [hsize, addrSize_mode64]
      split <;> simp
    | mode32 =>
      have hrip : a.riprel = false := Bool.eq_false_iff.mpr fun h => nomatch rmAddr_riprel haddr h
      have hsize64 : a.asize ≠ .a64 := by
        rw [hsize, addrSize_mode32]
        split <;> simp
      simp [hrip, hsize64]
    | _ => cases hm

/-- `nomask_outside_evex`, for a record without a mask whose second source is that of an operand without broadcast. -/
theorem nomaskOutsideEvex_of_src2 {m : Mode} {r : DecodedInst} {pfx : List Prefix} {evex x b : Bool} {n : Nat} {o : RM}
    (haaa : r.aaa = 0) (hz : r.z = false) (hsrc : r.src2 = rmSrc2 m pfx evex x b n false o) :
    r.nomaskOutsideEvex = true := by
  rw [DecodedInst.nomaskOutsideEvex, haaa, hz]
  cases hs : r.src2 with
  | reg q => simp
  | mem a q =>
    obtain ⟨rfl, -⟩ := rmAddr_of_src2_mem (hsrc.symm.trans hs)
    simp

/-! ## The records of the three encodings -/

/-- The named checks of R81 that do not depend on the processor. -/
def MeetsChecks (m : Mode) (r : DecodedInst) : Prop :=
  r.legacySrc1 = true ∧ r.nomaskOutsideEvex = true ∧ r.zNeedsMask = true ∧ r.regRange m = true ∧ r.modeAddr m = true

theorem vecNum_legacy (r : Bool) (reg : BitVec 3) :
    (vecNum (0#1 ++ BitVec.ofBool r ++ reg)).val = 8 * r.toNat + reg.toNat := by
  revert r reg
  decide

theorem vecNum_vex (d : BitVec 4) : (vecNum (0#1 ++ d)).val = d.toNat := by
  revert d
  decide

/-- Without a REX byte in front every bit of it is 0 (R64). -/
theorem liveRex_of_hasRex {pfx : List Prefix} (h : hasRex pfx = false) : liveRex pfx = (false, false, false) := by
  unfold liveRex
  split
  · next w r x b hlast =>
    simp only [hasRex, List.any_eq_false] at h
    exact absurd rfl (h _ (List.mem_of_getLast? hlast))
  · rfl

theorem legacyRecord_meetsChecks {m : Mode} {pfx : List Prefix} (hm : m.admitted = true)
    (hrex : m = .mode64 ∨ hasRex pfx = false) (reg : BitVec 3) (rm : RM) (len : Nat) :
    MeetsChecks m (legacyRecord m pfx reg rm len) := by
  have hlive : m ≠ .mode64 → liveRex pfx = (false, false, false) := fun h => liveRex_of_hasRex (hrex.resolve_left h)
  have hdest : (vecNum (0#1 ++ BitVec.ofBool (liveRex pfx).1 ++ reg)).val < Form.nameable m .legacy128 := by
    have hreg := reg.isLt
    have hr := Bool.toNat_le (liveRex pfx).1
    rw [vecNum_legacy, nameable_eq]
    by_cases h : m = .mode64
    · simp only [h, if_true, Form.isEvex, Bool.false_eq_true, if_false]
      omega
    · rw [hlive h, if_neg h]
      simpa using hreg
  exact ⟨by simp [DecodedInst.legacySrc1, legacyRecord], nomaskOutsideEvex_of_src2 rfl rfl rfl, rfl,
    regRange_of_lt rfl rfl (fun h => by rw [hlive h]; exact ⟨rfl, rfl⟩) hdest hdest, modeAddr_of_src2 hm rfl⟩

theorem vexRecord_meetsChecks {m : Mode} {f : Form} {pfx : List Prefix} {x b : Bool} {dest src1 : BitVec 4}
    (hm : m.admitted = true) (hf : f = .vex128 ∨ f = .vex256)
    (hext : (m == .mode64 || (!x && !b && decide (dest.toNat < 8) && decide (src1.toNat < 8))) = true) (rm : RM)
    (len : Nat) : MeetsChecks m (vexRecord m f pfx x b dest src1 rm len) := by
  have hevex : f.isEvex = false := by obtain rfl | rfl := hf <;> rfl
  have h32 (h : m ≠ .mode64) : x = false ∧ b = false ∧ dest.toNat < 8 ∧ src1.toNat < 8 :=
    extensions_neutral (by simpa [h] using hext)
  have hxb (h : m ≠ .mode64) : x = false ∧ b = false := by
    obtain ⟨hx, hb, -⟩ := h32 h
    exact ⟨hx, hb⟩
  have hd (h : m ≠ .mode64) : dest.toNat < 8 := by
    obtain ⟨-, -, hd, -⟩ := h32 h
    exact hd
  have hs (h : m ≠ .mode64) : src1.toNat < 8 := by
    obtain ⟨-, -, -, hs⟩ := h32 h
    exact hs
  have hlt {d : BitVec 4} (hd : m ≠ .mode64 → d.toNat < 8) : (vecNum (0#1 ++ d)).val < f.nameable m := by
    rw [vecNum_vex, nameable_eq, hevex]
    split
    · exact d.isLt
    · next h => exact hd h
  have hsrc1 : (vexRecord m f pfx x b dest src1 rm len).legacySrc1 = true := by obtain rfl | rfl := hf <;> rfl
  exact ⟨hsrc1, nomaskOutsideEvex_of_src2 rfl rfl rfl, rfl,
    regRange_of_lt hevex rfl hxb (hlt hd) (hlt hs), modeAddr_of_src2 hm rfl⟩

theorem evexRecord_meetsChecks {m : Mode} {f : Form} {pfx : List Prefix} {x b z bcst : Bool} {dest src1 : BitVec 5}
    {aaa : BitVec 3} (hm : m.admitted = true) (hf : f.isEvex = true)
    (hext : (m == .mode64 || (!x && !b && decide (dest.toNat < 8) && decide (src1.toNat < 8))) = true)
    (hz : (!z || aaa != 0#3) = true) (rm : RM) (len : Nat) :
    MeetsChecks m (evexRecord m f pfx x b dest src1 aaa z bcst rm len) := by
  have h32 (h : m ≠ .mode64) : x = false ∧ b = false ∧ dest.toNat < 8 ∧ src1.toNat < 8 :=
    extensions_neutral (by simpa [h] using hext)
  have hxb (h : m ≠ .mode64) : x = false ∧ b = false := by
    obtain ⟨hx, hb, -⟩ := h32 h
    exact ⟨hx, hb⟩
  have hd (h : m ≠ .mode64) : dest.toNat < 8 := by
    obtain ⟨-, -, hd, -⟩ := h32 h
    exact hd
  have hs (h : m ≠ .mode64) : src1.toNat < 8 := by
    obtain ⟨-, -, -, hs⟩ := h32 h
    exact hs
  have hlt {d : BitVec 5} (hd : m ≠ .mode64 → d.toNat < 8) : (vecNum d).val < f.nameable m := by
    rw [nameable_eq, hf]
    split
    · exact d.isLt
    · next h => exact hd h
  have hevex : (evexRecord m f pfx x b dest src1 aaa z bcst rm len).form.isEvex = true := hf
  have hsrc1 : (evexRecord m f pfx x b dest src1 aaa z bcst rm len).legacySrc1 = true := by
    cases f with
    | evex128 | evex256 | evex512 => rfl
    | _ => cases hf
  exact ⟨hsrc1, Bool.or_eq_true_iff.mpr (.inl hevex), hz,
    regRange_of_lt hevex rfl hxb (hlt hd) (hlt hs), modeAddr_of_src2 hm rfl⟩

theorem record_meetsChecks {m : Mode} {i : Instr} (h : wellFormed m i = true) : MeetsChecks m (record m i) := by
  obtain ⟨hm, hfront, -, hext, hz, -, -⟩ := (wellFormed_iff m i).mp h
  cases i with
  | unpcklps pfx reg rm => exact legacyRecord_meetsChecks hm (hasRex_front hfront) reg rm _
  | vunpcklpsVex128C5 pfx dest src1 rm => exact vexRecord_meetsChecks (x := false) (b := false) hm (.inl rfl) hext rm _
  | vunpcklpsVex128C4 pfx w x b dest src1 rm => exact vexRecord_meetsChecks hm (.inl rfl) hext rm _
  | vunpcklpsVex256C5 pfx dest src1 rm => exact vexRecord_meetsChecks (x := false) (b := false) hm (.inr rfl) hext rm _
  | vunpcklpsVex256C4 pfx w x b dest src1 rm => exact vexRecord_meetsChecks hm (.inr rfl) hext rm _
  | vunpcklpsEvex128 pfx x b dest src1 aaa z bcst rm => exact evexRecord_meetsChecks hm rfl hext hz rm _
  | vunpcklpsEvex256 pfx x b dest src1 aaa z bcst rm => exact evexRecord_meetsChecks hm rfl hext hz rm _
  | vunpcklpsEvex512 pfx x b dest src1 aaa z bcst rm => exact evexRecord_meetsChecks hm rfl hext hz rm _

/-- Settles O3: what is decoded is well-formed, and the record of a well-formed instruction meets the checks. -/
theorem decodedRecordMeetsNamedChecks : Obligations.DecodedRecordMeetsNamedChecks := by
  intro m bs i h
  obtain ⟨hwf, -⟩ := encodeInvertsDecode m bs i h
  obtain ⟨hsrc1, hmask, hz, hrange, haddr⟩ := record_meetsChecks hwf
  have hlen := record_len m i
  exact ⟨hsrc1, hmask, hz, hrange, haddr, hlen ▸ three_le_len i, hlen ▸ decode_len_le h⟩

end Sys2Proof.Machine

/-! # One byte too many in front, and the neighbours of the forms (O6, O7, O8, O9, O12) -/

namespace Sys2Proof

/-! ## One more byte in front (R63, R68) -/

theorem hasRex_cons (p : Prefix) (pfx : List Prefix) : hasRex (p :: pfx) = (hasRex [p] || hasRex pfx) := by
  simp [hasRex]

/-- The decoder's answer to an encoding with one more byte in front, where what follows does not matter. -/
theorem decode_cons_encode {m : Mode} {p : Prefix} {i : Instr} {r : Except DecodeError Instr} {rest : List Byte}
    (hm : m.admitted = true) (hp : m = .mode64 ∨ hasRex [p] = false) (hfront : frontFits m i = true)
    (hlen : (p.byte :: encode i ++ rest).length ≤ maxLength) (hr : r ≠ .error .truncated)
    (h : ∀ rest, decodeBody m (p :: i.front) (i.body ++ rest) = r) : decode m (p.byte :: encode i ++ rest) = r := by
  have hrex : m = .mode64 ∨ hasRex (p :: i.front) = false := by
    rw [hasRex_cons, Bool.or_eq_false_iff]
    exact hp.elim .inl fun hp => (hasRex_front hfront).imp_right (⟨hp, ·⟩)
  have hbytes : p.byte :: encode i ++ rest = (p :: i.front).map Prefix.byte ++ (i.body ++ rest) := by
    rw [encode_eq_front_body, List.map_cons, List.cons_append, List.cons_append, List.append_assoc]
  have hsum := front_length_add_body_length i
  rw [List.cons_append, List.length_cons, List.length_append, encode_length] at hlen
  rw [hbytes]
  exact decode_append hm hrex (body_opens i) (by rw [List.length_cons]; omega) hr h rest

end Sys2Proof

namespace Sys2Proof.Machine

theorem length_fetch_le (s : State) : s.fetch.length ≤ maxLength := length_fetchFrom_le s 0 maxLength

/-- Settles O6: a VEX or EVEX form behind a byte it may not have in front. -/
theorem badBytesBeforeVexAreInvalidOpcode : Obligations.BadBytesBeforeVexAreInvalidOpcode := by
  intro s p i rest hadm htf hwf hform hbad hp hfetch
  obtain ⟨hm, hfront, -⟩ := (wellFormed_iff s.mode i).mp hwf
  refine step_of_decode_invalid (q := .badBeforeVex) hadm htf ?_
  rw [hfetch]
  exact decode_cons_encode hm hp hfront (hfetch ▸ length_fetch_le s) (by simp)
    (decodeBody_vex_of_bad_front hbad hwf hform)

end Sys2Proof.Machine

namespace Sys2Proof

/-- R63: the legacy form with 66 in front is another instruction. -/
theorem decodeBody_legacy_of_opSize (m : Mode) (pfx : List Prefix) (reg : BitVec 3) (rm : RM) (rest : List Byte) :
    decodeBody m (.opSize :: pfx) ((Instr.unpcklps pfx reg rm).body ++ rest) = .error (.other .opSizeBeforeLegacy) := by
  calc decodeBody m (.opSize :: pfx) ((Instr.unpcklps pfx reg rm).body ++ rest)
    _ = decodeLegacy m (.opSize :: pfx) (0x14#8 :: modrmBytes reg rm ++ rest) := rfl
    _ = .error (.other .opSizeBeforeLegacy) := by simp [decodeLegacy]

/-- R63, R80: the legacy form with F2 or F3 in front. -/
theorem decodeBody_legacy_of_rep {m : Mode} {p : Prefix} {pfx : List Prefix} {reg : BitVec 3} {rm : RM}
    (hp : p = .repne ∨ p = .rep) (hwf : wellFormed m (.unpcklps pfx reg rm) = true) (rest : List Byte) :
    decodeBody m (p :: pfx) ((Instr.unpcklps pfx reg rm).body ++ rest) = .error (.invalid .repBeforeLegacy) := by
  obtain ⟨-, hfront, hoperand, -⟩ := (wellFormed_iff m _).mp hwf
  have hall : pfx.all Prefix.okBeforeLegacy = true := (Bool.and_eq_true_iff.mp hfront).1
  have hop : Prefix.opSize ∉ pfx := fun h => Bool.noConfusion (List.all_eq_true.mp hall _ h)
  have hlock : Prefix.lock ∉ pfx := fun h => Bool.noConfusion (List.all_eq_true.mp hall _ h)
  have hfits : rm.fits (addrSize m (p :: pfx)) = true := by
    rw [addrSize_cons m (by obtain rfl | rfl := hp <;> simp)]
    exact hoperand
  calc decodeBody m (p :: pfx) ((Instr.unpcklps pfx reg rm).body ++ rest)
    _ = decodeLegacy m (p :: pfx) (0x14#8 :: modrmBytes reg rm ++ rest) := rfl
    _ = .error (.invalid .repBeforeLegacy) := by
      obtain rfl | rfl := hp <;> simp [decodeLegacy, hop, hlock, parseModRM_modrmBytes _ _ _ _ hfits]

end Sys2Proof

namespace Sys2Proof.Machine

/-- Settles O7: 66 is looked at first, F2 and F3 after the operand. -/
theorem mandatoryBytesBeforeLegacy : Obligations.MandatoryBytesBeforeLegacy := by
  intro s pfx reg rm rest hadm htf hwf
  obtain ⟨hm, hfront, -⟩ := (wellFormed_iff s.mode _).mp hwf
  refine ⟨fun hfetch => ?_, fun hfetch => ?_, fun hfetch => ?_⟩
  · refine step_of_decode_error (e := .other .opSizeBeforeLegacy) hadm htf ?_
    rw [hfetch]
    exact decode_cons_encode (p := .opSize) hm (.inr rfl) hfront (hfetch ▸ length_fetch_le s) (by simp)
      (decodeBody_legacy_of_opSize s.mode pfx reg rm)
  · refine step_of_decode_invalid (q := .repBeforeLegacy) hadm htf ?_
    rw [hfetch]
    exact decode_cons_encode (p := .repne) hm (.inr rfl) hfront (hfetch ▸ length_fetch_le s) (by simp)
      (decodeBody_legacy_of_rep (.inl rfl) hwf)
  · refine step_of_decode_invalid (q := .repBeforeLegacy) hadm htf ?_
    rw [hfetch]
    exact decode_cons_encode (p := .rep) hm (.inr rfl) hfront (hfetch ▸ length_fetch_le s) (by simp)
      (decodeBody_legacy_of_rep (.inr rfl) hwf)

end Sys2Proof.Machine

namespace Sys2Proof

/-! ## Bytes written out: what stands in front, the bytes up to the opcode, the operand -/

/-- The answer to bytes written out, whose operand ends within the first 15. -/
theorem decode_written {m : Mode} {pfx : List Prefix} {head : List Byte} {reg : BitVec 3} {rm : RM}
    {r : Except DecodeError Instr} (hm : m.admitted = true) (hrex : m = .mode64 ∨ hasRex pfx = false) (hopen : Opens head)
    (hlen : pfx.length + head.length + rm.len ≤ 15) (hr : r ≠ .error .truncated)
    (h : ∀ rest, decodeBody m pfx (head ++ (modrmBytes reg rm ++ rest)) = r) (rest : List Byte) :
    decode m (pfx.map Prefix.byte ++ head ++ modrmBytes reg rm ++ rest) = r := by
  rw [List.append_assoc, List.append_assoc, ← List.append_assoc head]
  refine decode_append hm hrex (hopen.append _) ?_ hr (fun rest => ?_) rest
  · rw [List.length_append, modrmBytes_length, ← Nat.add_assoc]
    exact hlen
  · rw [List.append_assoc]
    exact h rest

section
variable {m : Mode} {pfx : List Prefix} {rm : RM} {p p0 p1 p2 : Byte}

/-- R69, R78, R80: each of the reserved field values is one of the invalid encodings. -/
theorem decodeEvexFields_reserved (reg : BitVec 3)
    (h : p0.extractLsb' 2 2 ≠ 0#2 ∨ p1.getLsbD 2 = false ∨ (p1.getLsbD 7 = true ∧ p1.extractLsb' 0 2 = 0#2)
      ∨ p2.extractLsb' 5 2 = 3#2 ∨ (p2.getLsbD 7 = true ∧ p2.extractLsb' 0 3 = 0#3)
      ∨ (p2.getLsbD 4 = true ∧ rm.isReg = true)) :
    ∃ q, decodeEvexFields pfx p0 p1 p2 reg rm = .error (.invalid q) := by
  unfold decodeEvexFields
  split
  · exact ⟨_, rfl⟩
  split
  · exact ⟨_, rfl⟩
  next hfixed =>
  split
  · exact ⟨_, rfl⟩
  next hw =>
  split
  · exact ⟨_, rfl⟩
  next hll =>
  split
  · exact ⟨_, rfl⟩
  next hz =>
  split
  · exact ⟨_, rfl⟩
  next hb =>
  have hfixed : p0.extractLsb' 2 2 = 0#2 ∧ p1.getLsbD 2 = true := by simpa [evexFixed] using hfixed
  exfalso
  rcases h with h | h | h | h | h | h
  · exact h hfixed.1
  · rw [hfixed.2] at h
    cases h
  · exact hw h
  · exact hll h
  · exact hz h
  · exact hb h

/-- What `P0[7:4]` = 1111, `P1[6]` and `P2[3]` say in 32-bit mode (R70). -/
theorem evexNeutral_of_fields (h : p0.extractLsb' 4 4 = 15#4 ∧ p1.getLsbD 6 = true ∧ p2.getLsbD 3 = true) :
    p0.extractLsb' 6 2 = 3#2 ∧ evexNeutral p0 p1 p2 = true := by
  have hbits : ∀ p0 : Byte, p0.extractLsb' 4 4 = 15#4 →
      p0.extractLsb' 6 2 = 3#2 ∧ p0.getLsbD 5 = true ∧ p0.getLsbD 4 = true := by decide
  obtain ⟨hp0, h6, h3⟩ := h
  obtain ⟨htop, h5, h4⟩ := hbits p0 hp0
  exact ⟨htop, by rw [evexNeutral, h5, h4, h6, h3]; rfl⟩

theorem decodeBody_evex_operand
    (h32 : m = .mode32 → p0.extractLsb' 4 4 = 15#4 ∧ p1.getLsbD 6 = true ∧ p2.getLsbD 3 = true
      ∧ pfx.contains .addrSize = false)
    (hfits : rm.fits (addrSize m pfx) = true) (reg : BitVec 3) (rest : List Byte) :
    decodeBody m pfx ([0x62#8, p0, p1, p2, 0x14#8] ++ (modrmBytes reg rm ++ rest))
      = decodeEvexFields pfx p0 p1 p2 reg rm := by
  have hneutral (e : m = .mode32) : p0.extractLsb' 6 2 = 3#2 ∧ evexNeutral p0 p1 p2 = true := by
    obtain ⟨hp0, h6, h3, -⟩ := h32 e
    exact evexNeutral_of_fields ⟨hp0, h6, h3⟩
  have haddr (e : m = .mode32) : pfx.contains .addrSize = false := by
    obtain ⟨-, -, -, haddr⟩ := h32 e
    exact haddr
  exact (decodeBody_evex (fun e => (hneutral e).1) _).trans
    (decodeEvexTail_operand (fun e => ⟨(hneutral e).2, haddr e⟩) hfits reg rest)

end

/-- Settles O8: the bytes are decoded up to their fields, of which one is reserved. -/
theorem reservedEvexFieldsAreInvalid : Obligations.ReservedEvexFieldsAreInvalid := by
  intro m pfx p0 p1 p2 reg rm rest hm hok hfits hlen h32 hreserved
  obtain ⟨q, hq⟩ := decodeEvexFields_reserved (pfx := pfx) reg hreserved
  exact ⟨q, decode_written (head := [0x62#8, p0, p1, p2, 0x14#8]) hm (.inr (hasRex_of_okBeforeVex hok))
    ⟨_, _, rfl, by decide⟩ hlen (by simp) (fun rest => (decodeBody_evex_operand h32 hfits reg rest).trans hq) rest⟩

/-! ## The neighbours of the VEX forms (R67, R80) -/

section
variable {m : Mode} {pfx : List Prefix} {rm : RM} {p p0 p1 : Byte}

theorem decodeBody_vexC5_pd (h32 : m = .mode32 → p.extractLsb' 6 2 = 3#2) (hpp : p.extractLsb' 0 2 = 1#2) (bs : List Byte) :
    decodeBody m pfx (0xC5#8 :: p :: bs) = .error (.other .vexPd) := by
  have hles : ¬(m = .mode32 ∧ p.extractLsb' 6 2 ≠ 3#2) := fun h => h.2 (h32 h.1)
  exact (if_neg hles).trans (if_pos hpp)

theorem decodeBody_vexC4_otherMap (h32 : m = .mode32 → p0.extractLsb' 6 2 = 3#2) (hmap : p0.extractLsb' 0 5 ≠ 1#5)
    (bs : List Byte) : decodeBody m pfx (0xC4#8 :: p0 :: bs) = .error (.other .vexMap) := by
  have hles : ¬(m = .mode32 ∧ p0.extractLsb' 6 2 ≠ 3#2) := fun h => h.2 (h32 h.1)
  exact (if_neg hles).trans (if_pos hmap)

theorem decodeBody_vexC4_pd (h32 : m = .mode32 → p0.extractLsb' 6 2 = 3#2) (hmap : p0.extractLsb' 0 5 = 1#5)
    (hpp : p1.extractLsb' 0 2 = 1#2) (bs : List Byte) :
    decodeBody m pfx (0xC4#8 :: p0 :: p1 :: bs) = .error (.other .vexPd) :=
  (decodeBody_vexC4_map h32 hmap _).trans (if_pos hpp)

/-- After `C5 P 14` and an operand, `pp` not 01. -/
theorem decodeBody_vexC5_operand (hok : pfx.all Prefix.okBeforeVex = true) (hfits : rm.fits (addrSize m pfx) = true)
    (h32 : m = .mode32 → p.extractLsb' 6 2 = 3#2) (hpp : p.extractLsb' 0 2 ≠ 1#2) (reg : BitVec 3) (rest : List Byte) :
    decodeBody m pfx ([0xC5#8, p, 0x14#8] ++ (modrmBytes reg rm ++ rest))
      = if p.extractLsb' 0 2 ≠ 0#2 then .error (.invalid .vexPp) else .ok (vexC5Instr pfx p reg rm) :=
  (decodeBody_vexC5 h32 hpp _).trans (decodeVexTail_operand _ hok hfits reg rest)

/-- After `C4 P0 P1 14` and an operand, `pp` not 01. -/
theorem decodeBody_vexC4_operand (hok : pfx.all Prefix.okBeforeVex = true) (hfits : rm.fits (addrSize m pfx) = true)
    (h32 : m = .mode32 → p0.extractLsb' 6 2 = 3#2 ∧ p0.getLsbD 5 = true ∧ p1.getLsbD 6 = true)
    (hmap : p0.extractLsb' 0 5 = 1#5) (hpp : p1.extractLsb' 0 2 ≠ 1#2) (reg : BitVec 3) (rest : List Byte) :
    decodeBody m pfx ([0xC4#8, p0, p1, 0x14#8] ++ (modrmBytes reg rm ++ rest))
      = if p1.extractLsb' 0 2 ≠ 0#2 then .error (.invalid .vexPp) else .ok (vexC4Instr pfx p0 p1 reg rm) :=
  (decodeBody_vexC4 h32 hmap hpp _).trans (decodeVexTail_operand _ hok hfits reg rest)

end

/-- `pp` is 10 or 11. -/
theorem vex_pp_of_bit_one {p : Byte} (h : p.getLsbD 1 = true) : p.extractLsb' 0 2 ≠ 1#2 ∧ p.extractLsb' 0 2 ≠ 0#2 := by
  revert p
  decide

/-- The two bits that R70 asks for beside bit 5, of `P0[7:5]` = 111. -/
theorem vexC4_top_of_fields {p0 : Byte} (h : p0.extractLsb' 5 3 = 7#3) : p0.extractLsb' 6 2 = 3#2 ∧ p0.getLsbD 5 = true := by
  revert p0
  decide

/-- Settles O9: `pp` = 01 and another map are refused where they stand, `pp` = 10 and 11 after the operand. -/
theorem vexNeighboursAreRefusedOrInvalid : Obligations.VexNeighboursAreRefusedOrInvalid := by
  intro m pfx p p0 p1 reg rm rest c5 c4 hm hok hfits hlen5 h32
  have hrex : m = .mode64 ∨ hasRex pfx = false := .inr (hasRex_of_okBeforeVex hok)
  have hp (e : m = .mode32) : p.extractLsb' 6 2 = 3#2 := (h32 e).1
  have hp01 (e : m = .mode32) : p0.extractLsb' 6 2 = 3#2 ∧ p0.getLsbD 5 = true ∧ p1.getLsbD 6 = true := by
    obtain ⟨-, hp0, h6⟩ := h32 e
    obtain ⟨htop, h5⟩ := vexC4_top_of_fields hp0
    exact ⟨htop, h5, h6⟩
  have hp0 (e : m = .mode32) : p0.extractLsb' 6 2 = 3#2 := (hp01 e).1
  have answer5 {r : Except DecodeError Instr} (hr : r ≠ .error .truncated)
      (h : ∀ rest, decodeBody m pfx ([0xC5#8, p, 0x14#8] ++ (modrmBytes reg rm ++ rest)) = r) : c5 = r :=
    decode_written (head := [0xC5#8, p, 0x14#8]) hm hrex ⟨_, _, rfl, by decide⟩ hlen5 hr h rest
  refine ⟨fun hpp => answer5 (by simp) fun _ => decodeBody_vexC5_pd hp hpp _, fun h1 => ?_, fun hlen4 => ?_⟩
  · obtain ⟨hpd, hpp⟩ := vex_pp_of_bit_one h1
    exact answer5 (by simp) fun rest => (decodeBody_vexC5_operand hok hfits hp hpd reg rest).trans (if_pos hpp)
  have answer4 {r : Except DecodeError Instr} (hr : r ≠ .error .truncated)
      (h : ∀ rest, decodeBody m pfx ([0xC4#8, p0, p1, 0x14#8] ++ (modrmBytes reg rm ++ rest)) = r) : c4 = r :=
    decode_written (head := [0xC4#8, p0, p1, 0x14#8]) hm hrex ⟨_, _, rfl, by decide⟩ hlen4 hr h rest
  refine ⟨fun hmap => answer4 (by simp) fun _ => decodeBody_vexC4_otherMap hp0 hmap _,
    fun hmap hpp => answer4 (by simp) fun _ => decodeBody_vexC4_pd hp0 hmap hpp _, fun hmap h1 => ?_, fun hmap hpp => ?_⟩
  · obtain ⟨hpd, hpp⟩ := vex_pp_of_bit_one h1
    exact answer4 (by simp) fun rest => (decodeBody_vexC4_operand hok hfits hp01 hmap hpd reg rest).trans (if_pos hpp)
  · refine ⟨vexC4Instr pfx p0 p1 reg rm, answer4 (by simp) fun rest => ?_⟩
    exact (decodeBody_vexC4_operand hok hfits hp01 hmap (by rw [hpp]; decide) reg rest).trans (if_neg (not_not_intro hpp))

/-! ## What 32-bit mode refuses (R70, R84, D22) -/

/-- C4, C5 or 62 and a byte whose bits 7:6 are not 11. -/
theorem decodeBody_mode32_lesLdsBound {b q : Byte} (hb : b = 0xC4#8 ∨ b = 0xC5#8 ∨ b = 0x62#8)
    (hq : q.extractLsb' 6 2 ≠ 3#2) (pfx : List Prefix) (bs : List Byte) :
    decodeBody .mode32 pfx (b :: q :: bs) = .error (.other .lesLdsBound) := by
  obtain rfl | rfl | rfl := hb
  · exact if_pos ⟨rfl, hq⟩
  · exact if_pos ⟨rfl, hq⟩
  · exact if_pos ⟨rfl, hq⟩

/-- The two refusals of an encoding with an extension bit that is not neutral. -/
def RefusedInMode32 (r : Except DecodeError Instr) : Prop :=
  r = .error (.uncertain .mode32Extension) ∨ r = .error (.other .lesLdsBound)

section
variable {pfx : List Prefix}

theorem decodeBody_vexC5_refused (l : Bool) {dest src1 : BitVec 4}
    (hext : (Mode.mode32 == .mode64 || (decide (dest.toNat < 8) && decide (src1.toNat < 8))) = false) :
    ∃ r, RefusedInMode32 r ∧ ∀ bs, decodeBody .mode32 pfx (vexC5Bytes l dest src1 ++ bs) = r := by
  refine ⟨_, .inr rfl, decodeBody_mode32_lesLdsBound (.inr (.inl rfl)) (fun htop => ?_) pfx⟩
  obtain ⟨-, hdest, hsrc⟩ := vexC5P_fields l dest src1
  have hno := vexC5_extension (m := .mode32) (p := vexC5P l dest src1) rfl (fun _ => htop) (lowReg dest)
  rw [hdest, hsrc, hext] at hno
  cases hno

theorem decodeBody_vexC4_refused (w l : Bool) {x b : Bool} {dest src1 : BitVec 4}
    (hext : (Mode.mode32 == .mode64 || (!x && !b && decide (dest.toNat < 8) && decide (src1.toNat < 8))) = false) :
    ∃ r, RefusedInMode32 r ∧ ∀ bs, decodeBody .mode32 pfx (vexC4Bytes w x b l dest src1 ++ bs) = r := by
  by_cases htop : (vexC4P0 x b dest).extractLsb' 6 2 = 3#2
  · have hbits : (vexC4P0 x b dest).getLsbD 5 = false ∨ (vexC4P1 w l src1).getLsbD 6 = false := by
      by_contra h
      simp only [not_or, Bool.not_eq_false] at h
      obtain ⟨hx, hb, hdest⟩ := vexC4P0_fields x b dest
      obtain ⟨-, -, hsrc⟩ := vexC4P1_fields w l src1
      have hno := vexC4_extension (m := .mode32) rfl (fun _ => ⟨htop, h⟩) (lowReg dest)
      rw [hx, hb, hdest, hsrc, hext] at hno
      cases hno
    have hpp : (vexC4P1 w l src1).extractLsb' 0 2 ≠ 1#2 := by
      rw [show (vexC4P1 w l src1).extractLsb' 0 2 = 0#2 from vexC4_pp w l src1]
      decide
    exact ⟨_, .inl rfl, fun bs => (decodeBody_vexC4_map (fun _ => htop) (vexC4_map x b dest) _).trans
      ((if_neg hpp).trans (if_pos ⟨rfl, hbits⟩))⟩
  · exact ⟨_, .inr rfl, fun bs => decodeBody_mode32_lesLdsBound (.inl rfl) htop pfx _⟩

theorem decodeBody_evex_refused (ll : BitVec 2) {x b : Bool} {dest src1 : BitVec 5} (aaa : BitVec 3) (z bcst : Bool)
    (hext : (Mode.mode32 == .mode64 || (!x && !b && decide (dest.toNat < 8) && decide (src1.toNat < 8))) = false) :
    ∃ r, RefusedInMode32 r
      ∧ ∀ bs, decodeBody .mode32 pfx (evexBytes ll x b dest src1 aaa z bcst ++ 0x14#8 :: bs) = r := by
  by_cases htop : (evexP0 x b dest).extractLsb' 6 2 = 3#2
  · have hneutral : evexNeutral (evexP0 x b dest) (evexP1 src1) (evexP2 ll src1 aaa z bcst) = false := by
      by_contra h
      obtain ⟨-, hx, hb, hdest⟩ := evexP0_fields x b dest
      obtain ⟨-, -, hlow⟩ := evexP1_fields src1
      obtain ⟨-, hbit, -⟩ := evexP2_fields ll src1 aaa z bcst
      have hno := evex_extension (m := .mode32) rfl (fun _ => ⟨htop, by simpa using h⟩) (lowReg dest)
      rw [hx, hb, hdest, hlow, hbit, bit_append_low, hext] at hno
      cases hno
    exact ⟨_, .inl rfl, fun bs => (decodeBody_evex (fun _ => htop) _).trans (if_pos ⟨rfl, hneutral⟩)⟩
  · exact ⟨_, .inr rfl, fun bs => decodeBody_mode32_lesLdsBound (.inr (.inr rfl)) htop pfx _⟩

/-- R84: an EVEX form with 67. -/
theorem decodeBody_evex_addrSize (ll : BitVec 2) {x b : Bool} {dest src1 : BitVec 5} (aaa : BitVec 3) (z bcst : Bool)
    (hext : (Mode.mode32 == .mode64 || (!x && !b && decide (dest.toNat < 8) && decide (src1.toNat < 8))) = true)
    (haddr : pfx.contains .addrSize = true) (bs : List Byte) :
    decodeBody .mode32 pfx (evexBytes ll x b dest src1 aaa z bcst ++ 0x14#8 :: bs) = .error (.uncertain .evexAddr16) := by
  have hneutral (h : Mode.mode32 = .mode32 ∧
      evexNeutral (evexP0 x b dest) (evexP1 src1) (evexP2 ll src1 aaa z bcst) = false) : False := by
    rw [(evexP_neutral hext rfl).2] at h
    cases h.2
  exact (decodeBody_evexBytes hext ll aaa z bcst _).trans ((if_neg hneutral).trans (if_pos ⟨rfl, haddr⟩))

end

/-- The bytes in front of a VEX or EVEX form are ones it may have (R68). -/
theorem front_okBeforeVex {m : Mode} {i : Instr} (h : frontFits m i = true)
    (hform : (Machine.record m i).form ≠ .legacy128) : i.front.all Prefix.okBeforeVex = true := by
  cases i with
  | unpcklps => exact absurd rfl hform
  | vunpcklpsVex128C5 | vunpcklpsVex128C4 | vunpcklpsVex256C5 | vunpcklpsVex256C4 => exact h
  | vunpcklpsEvex128 | vunpcklpsEvex256 | vunpcklpsEvex512 => exact (Bool.and_eq_true_iff.mp h).1

/-- R70: after the bytes in front, an encoding of 64-bit mode with an extension bit that is not neutral. -/
theorem decodeBody_mode32_refused {i : Instr} (hext : extensionFits .mode32 i = false) :
    ∃ r, RefusedInMode32 r ∧ ∀ rest, decodeBody .mode32 i.front (i.body ++ rest) = r := by
  have append {r : Except DecodeError Instr} {head tail : List Byte}
      (h : ∀ bs, decodeBody .mode32 i.front (head ++ 0x14#8 :: bs) = r) (rest : List Byte) :
      decodeBody .mode32 i.front (head ++ 0x14#8 :: tail ++ rest) = r := by
    rw [List.append_assoc]
    exact h _
  cases i with
  | unpcklps => cases hext
  | vunpcklpsVex128C5 | vunpcklpsVex256C5 =>
    obtain ⟨r, hr, h⟩ := decodeBody_vexC5_refused _ hext
    exact ⟨r, hr, append fun _ => h _⟩
  | vunpcklpsVex128C4 | vunpcklpsVex256C4 =>
    obtain ⟨r, hr, h⟩ := decodeBody_vexC4_refused _ _ hext
    exact ⟨r, hr, append fun _ => h _⟩
  | vunpcklpsEvex128 | vunpcklpsEvex256 | vunpcklpsEvex512 =>
    obtain ⟨r, hr, h⟩ := decodeBody_evex_refused _ _ _ _ hext
    exact ⟨r, hr, append h⟩

/-- R84: after the bytes in front, an EVEX encoding with 67 among them. -/
theorem decodeBody_mode32_evexAddr16 {i : Instr} (hext : extensionFits .mode32 i = true)
    (hform : (Machine.record .mode64 i).form.isEvex = true) (h64 : frontFits .mode64 i = true)
    (h32 : frontFits .mode32 i = false) (rest : List Byte) :
    decodeBody .mode32 i.front (i.body ++ rest) = .error (.uncertain .evexAddr16) := by
  have haddr {pfx : List Prefix}
      (hok : (pfx.all Prefix.okBeforeVex && (Mode.mode64 == .mode64 || !pfx.contains .addrSize)) = true)
      (hno : (pfx.all Prefix.okBeforeVex && (Mode.mode32 == .mode64 || !pfx.contains .addrSize)) = false) :
      pfx.contains .addrSize = true := by
    rw [(Bool.and_eq_true_iff.mp hok).1] at hno
    simpa using hno
  cases i with
  | vunpcklpsEvex128 | vunpcklpsEvex256 | vunpcklpsEvex512 =>
    exact (congrArg _ (List.append_assoc ..)).trans (decodeBody_evex_addrSize _ _ _ _ hext (haddr h64 h32) _)
  | _ => cases hform

/-- The decoder's answer in 32-bit mode to an encoding of 64-bit mode, where what follows does not matter. -/
theorem decode_mode32_encode {i : Instr} {r : Except DecodeError Instr} (hwf : wellFormed .mode64 i = true)
    (hform : (Machine.record .mode64 i).form ≠ .legacy128) (hr : r ≠ .error .truncated)
    (h : ∀ rest, decodeBody .mode32 i.front (i.body ++ rest) = r) (rest : List Byte) :
    decode .mode32 (encode i ++ rest) = r := by
  obtain ⟨-, hfront, -, -, -, -, hlen⟩ := (wellFormed_iff .mode64 i).mp hwf
  rw [encode_eq_front_body, List.append_assoc]
  exact decode_append rfl (.inr (hasRex_of_okBeforeVex (front_okBeforeVex hfront hform))) (body_opens i)
    (front_length_add_body_length i ▸ of_decide_eq_true hlen) hr h rest

/-- Settles O12: the checks of 32-bit mode stand before those of length. -/
theorem mode32RefusesWhatItIsUnsureOf : Obligations.Mode32RefusesWhatItIsUnsureOf := by
  refine ⟨fun b q rest hb hq => ?_, fun i rest hwf hext => ?_, fun i rest hwf hext hform hfront => ?_⟩
  · exact decode_append (pfx := []) (bs := [b, q]) rfl (.inr rfl)
      ⟨_, _, rfl, by obtain rfl | rfl | rfl := hb <;> decide⟩ (Nat.le_of_ble_eq_true rfl) (by simp)
      (fun _ => decodeBody_mode32_lesLdsBound hb hq [] _) rest
  · have hform : (Machine.record .mode64 i).form ≠ .legacy128 := by
      cases i with
      | unpcklps => cases hext
      | _ => exact Form.noConfusion
    obtain ⟨r, hr, h⟩ := decodeBody_mode32_refused hext
    have hdecode := decode_mode32_encode hwf hform (by obtain rfl | rfl := hr <;> simp) h rest
    exact hdecode ▸ hr
  · obtain ⟨-, h64, -⟩ := (wellFormed_iff .mode64 i).mp hwf
    have hlegacy : (Machine.record .mode64 i).form ≠ .legacy128 := fun e => by
      rw [e] at hform
      cases hform
    exact decode_mode32_encode hwf hlegacy (by simp) (decodeBody_mode32_evexAddr16 hext hform h64 hfront) rest

end Sys2Proof

/-! # Which bits of the bytes make up the record (O51) -/

namespace Sys2Proof

/-! ## The fields as numbers (R64 to R66, R69, R76) -/

theorem toNat_not_bit (p : Byte) :
    (~~~p.extractLsb' 7 1).toNat = (!p.getLsbD 7).toNat ∧ (~~~p.extractLsb' 4 1).toNat = (!p.getLsbD 4).toNat
      ∧ (~~~p.extractLsb' 3 1).toNat = (!p.getLsbD 3).toNat := by
  revert p
  decide

theorem toNat_bit_append_three (v : BitVec 1) (reg : BitVec 3) : (v ++ reg).toNat = 8 * v.toNat + reg.toNat := by
  revert v reg
  decide

theorem toNat_bit_append_four (v : BitVec 1) (w : BitVec 4) : (v ++ w).toNat = 16 * v.toNat + w.toNat := by
  revert v w
  decide

theorem toNat_two_bits_append (u v : BitVec 1) (reg : BitVec 3) :
    (u ++ v ++ reg).toNat = 16 * u.toNat + 8 * v.toNat + reg.toNat := by
  revert u v reg
  decide

/-- Four bits stored complemented. -/
theorem toNat_not_four (v : BitVec 4) : (~~~v).toNat = 15 - v.toNat := by
  revert v
  decide

/-! ## The REX byte that takes effect (R63, R64) -/

theorem liveRex_append_rex (pfx : List Prefix) (w r x b : Bool) : liveRex (pfx ++ [.rex w r x b]) = (r, x, b) := by
  simp [liveRex]

theorem liveRex_of_getLast {pfx : List Prefix} (h : ∀ w r x b, pfx.getLast? ≠ some (.rex w r x b)) :
    liveRex pfx = (false, false, false) := by
  unfold liveRex
  split
  · next hlast => exact absurd hlast (h _ _ _ _)
  · rfl

theorem addrSize_append_rex (m : Mode) (pfx : List Prefix) (w r x b : Bool) :
    addrSize m (pfx ++ [.rex w r x b]) = addrSize m pfx := by
  have h : (pfx ++ [Prefix.rex w r x b]).contains .addrSize = pfx.contains .addrSize := by simp
  simp only [addrSize, h]

end Sys2Proof

namespace Sys2Proof.Machine

/-! ## The records of the instructions that the bytes spell -/

theorem record_vexC5Instr (m : Mode) (pfx : List Prefix) (p : Byte) (reg : BitVec 3) (rm : RM) :
    record m (vexC5Instr pfx p reg rm) = vexRecord m (if p.getLsbD 2 then .vex256 else .vex128) pfx false false
      ((~~~p.extractLsb' 7 1) ++ reg) (~~~p.extractLsb' 3 4) rm (pfx.length + 2 + 1 + rm.len) := by
  unfold vexC5Instr
  cases p.getLsbD 2 <;> rfl

theorem record_vexC4Instr (m : Mode) (pfx : List Prefix) (p0 p1 : Byte) (reg : BitVec 3) (rm : RM) :
    record m (vexC4Instr pfx p0 p1 reg rm) = vexRecord m (if p1.getLsbD 2 then .vex256 else .vex128) pfx (!p0.getLsbD 6)
      (!p0.getLsbD 5) ((~~~p0.extractLsb' 7 1) ++ reg) (~~~p1.extractLsb' 3 4) rm (pfx.length + 3 + 1 + rm.len) := by
  unfold vexC4Instr
  cases p1.getLsbD 2 <;> rfl

/-- The EVEX form of `L'L` 00, 01 or 10 (R78). -/
def evexForm (ll : BitVec 2) : Form := if ll = 0#2 then .evex128 else if ll = 1#2 then .evex256 else .evex512

theorem isEvex_evexForm (ll : BitVec 2) : (evexForm ll).isEvex = true := by
  revert ll
  decide

theorem disp8Factor_evexForm (ll : BitVec 2) (bcst : Bool) : disp8Factor (evexForm ll).vlen bcst =
    if bcst then 4 else if ll = 0#2 then 16 else if ll = 1#2 then 32 else 64 := by
  revert ll bcst
  decide

theorem record_evexInstr (m : Mode) (ll : BitVec 2) (pfx : List Prefix) (x b : Bool) (dest src1 : BitVec 5) (aaa : BitVec 3)
    (z bcst : Bool) (rm : RM) : record m (evexInstr ll pfx x b dest src1 aaa z bcst rm) =
      evexRecord m (evexForm ll) pfx x b dest src1 aaa z bcst rm (pfx.length + 4 + 1 + rm.len) := by
  by_cases h0 : ll = 0#2
  · subst h0
    rfl
  by_cases h1 : ll = 1#2
  · subst h1
    rfl
  · rw [evexInstr, evexForm, if_neg h0, if_neg h1, if_neg h0, if_neg h1]
    rfl

/-! ## From the record to the bits -/

/-- Bytes written out, `mid` between those in front and the operand, are decoded to a record of these fields, with the second
source that the operand names (R71, R75, R76, R79). -/
def Assembles (m : Mode) (reg : BitVec 3) (o : RM) (rest : List Byte) (front : List Prefix) (mid : List Byte) (f : Form)
    (dest src1 : Nat) (x b bcst : Bool) (n : Nat) (aaa : BitVec 3) (z : Bool) : Prop :=
  ∃ i, decode m (front.map Prefix.byte ++ mid ++ modrmBytes reg o ++ rest) = .ok i ∧ (record m i).form = f
    ∧ (record m i).dest.val = dest ∧ (record m i).src1.val = src1
    ∧ (record m i).src2.isNamed m front f.isEvex x b bcst n o ∧ (record m i).aaa = aaa ∧ (record m i).z = z
    ∧ (record m i).len = front.length + mid.length + (modrmBytes reg o).length

section
variable {m : Mode} {reg : BitVec 3} {o : RM} {rest mid : List Byte} {front : List Prefix} {i : Instr} {len : Nat}

theorem assembles_of_legacyRecord {r x b : Bool}
    (hdec : decode m (front.map Prefix.byte ++ mid ++ modrmBytes reg o ++ rest) = .ok i)
    (hrec : record m i = legacyRecord m front reg o len) (hlive : liveRex front = (r, x, b))
    (hlen : len = front.length + mid.length + o.len) :
    Assembles m reg o rest front mid .legacy128 (8 * r.toNat + reg.toNat) (8 * r.toNat + reg.toNat) x b false 1 0 false := by
  have hdest : (vecNum (0#1 ++ BitVec.ofBool (liveRex front).1 ++ reg)).val = 8 * r.toNat + reg.toNat := by
    rw [vecNum_legacy, hlive]
  have hsrc := rmSrc2_isNamed m front false (liveRex front).2.1 (liveRex front).2.2 false 1 o
  refine ⟨i, hdec, ?_⟩
  rw [hrec, modrmBytes_length]
  refine ⟨rfl, hdest, hdest, ?_, rfl, rfl, hlen⟩
  rw [hlive] at hsrc
  rw [legacyRecord, hlive]
  exact hsrc

theorem assembles_of_vexRecord {f : Form} {x b : Bool} {dest src1 : BitVec 4} {d s : Nat}
    (hdec : decode m (front.map Prefix.byte ++ mid ++ modrmBytes reg o ++ rest) = .ok i)
    (hrec : record m i = vexRecord m f front x b dest src1 o len) (hf : f.isEvex = false) (hd : dest.toNat = d)
    (hs : src1.toNat = s) (hlen : len = front.length + mid.length + o.len) :
    Assembles m reg o rest front mid f d s x b false 1 0 false := by
  refine ⟨i, hdec, ?_⟩
  rw [hrec, modrmBytes_length, hf]
  exact ⟨rfl, (vecNum_vex dest).trans hd, (vecNum_vex src1).trans hs, rmSrc2_isNamed .., rfl, rfl, hlen⟩

theorem assembles_of_evexRecord {f : Form} {x b z bcst : Bool} {dest src1 : BitVec 5} {aaa : BitVec 3} {d s : Nat}
    (hdec : decode m (front.map Prefix.byte ++ mid ++ modrmBytes reg o ++ rest) = .ok i)
    (hrec : record m i = evexRecord m f front x b dest src1 aaa z bcst o len) (hf : f.isEvex = true) (hd : dest.toNat = d)
    (hs : src1.toNat = s) (hlen : len = front.length + mid.length + o.len) :
    Assembles m reg o rest front mid f d s x b bcst (disp8Factor f.vlen bcst) aaa z := by
  refine ⟨i, hdec, ?_⟩
  rw [hrec, modrmBytes_length, hf]
  exact ⟨rfl, hd, hs, rmSrc2_isNamed .., rfl, rfl, hlen⟩

end

/-! ## The five spellings -/

section
variable {m : Mode} {pfx : List Prefix} {p p0 p1 p2 : Byte} {reg : BitVec 3} {o : RM}

theorem assembles_legacy {r x b : Bool} (hm : m.admitted = true) (hok : pfx.all Prefix.okBeforeLegacy = true)
    (hrex : m = .mode64 ∨ hasRex pfx = false) (hlive : liveRex pfx = (r, x, b)) (hfits : o.fits (addrSize m pfx) = true)
    (hlen : pfx.length + 2 + (modrmBytes reg o).length ≤ 15) (rest : List Byte) :
    Assembles m reg o rest pfx [0x0F#8, 0x14#8] .legacy128 (8 * r.toNat + reg.toNat) (8 * r.toNat + reg.toNat) x b false 1 0
      false := by
  rw [modrmBytes_length] at hlen
  exact assembles_of_legacyRecord (decode_written (head := [0x0F#8, 0x14#8]) hm hrex ⟨_, _, rfl, by decide⟩ hlen (by simp)
    (fun rest => decodeLegacy_operand hok hfits reg rest) rest) rfl hlive rfl

theorem assembles_vexC5 (hm : m.admitted = true) (hok : pfx.all Prefix.okBeforeVex = true)
    (hfits : o.fits (addrSize m pfx) = true) (hpp : p.extractLsb' 0 2 = 0#2) (h32 : m = .mode32 → p.extractLsb' 6 2 = 3#2)
    (hlen : pfx.length + 3 + (modrmBytes reg o).length ≤ 15) (rest : List Byte) :
    Assembles m reg o rest pfx [0xC5#8, p, 0x14#8] (if p.getLsbD 2 then .vex256 else .vex128)
      (8 * (!p.getLsbD 7).toNat + reg.toNat) (15 - (p.extractLsb' 3 4).toNat) false false false 1 0 false := by
  have hbody (rest : List Byte) := (decodeBody_vexC5_operand hok hfits h32 (by rw [hpp]; decide) reg rest).trans
    (if_neg (not_not_intro hpp))
  obtain ⟨hbit, -⟩ := toNat_not_bit p
  rw [modrmBytes_length] at hlen
  exact assembles_of_vexRecord (decode_written (head := [0xC5#8, p, 0x14#8]) hm (.inr (hasRex_of_okBeforeVex hok))
    ⟨_, _, rfl, by decide⟩ hlen (by simp) hbody rest) (record_vexC5Instr ..) (by split <;> rfl)
    (by rw [toNat_bit_append_three, hbit]) (toNat_not_four _) rfl

theorem assembles_vexC4 (hm : m.admitted = true) (hok : pfx.all Prefix.okBeforeVex = true)
    (hfits : o.fits (addrSize m pfx) = true) (hmap : p0.extractLsb' 0 5 = 1#5) (hpp : p1.extractLsb' 0 2 = 0#2)
    (h32 : m = .mode32 → p0.extractLsb' 5 3 = 7#3 ∧ p1.getLsbD 6 = true)
    (hlen : pfx.length + 4 + (modrmBytes reg o).length ≤ 15) (rest : List Byte) :
    Assembles m reg o rest pfx [0xC4#8, p0, p1, 0x14#8] (if p1.getLsbD 2 then .vex256 else .vex128)
      (8 * (!p0.getLsbD 7).toNat + reg.toNat) (15 - (p1.extractLsb' 3 4).toNat) (!p0.getLsbD 6) (!p0.getLsbD 5) false 1 0
      false := by
  have hneutral (e : m = .mode32) : p0.extractLsb' 6 2 = 3#2 ∧ p0.getLsbD 5 = true ∧ p1.getLsbD 6 = true := by
    obtain ⟨hp0, h6⟩ := h32 e
    obtain ⟨htop, h5⟩ := vexC4_top_of_fields hp0
    exact ⟨htop, h5, h6⟩
  have hbody (rest : List Byte) := (decodeBody_vexC4_operand hok hfits hneutral hmap (by rw [hpp]; decide) reg rest).trans
    (if_neg (not_not_intro hpp))
  obtain ⟨hbit, -⟩ := toNat_not_bit p0
  rw [modrmBytes_length] at hlen
  exact assembles_of_vexRecord (decode_written (head := [0xC4#8, p0, p1, 0x14#8]) hm (.inr (hasRex_of_okBeforeVex hok))
    ⟨_, _, rfl, by decide⟩ hlen (by simp) hbody rest) (record_vexC4Instr ..) (by split <;> rfl)
    (by rw [toNat_bit_append_three, hbit]) (toNat_not_four _) rfl

theorem assembles_evex (hm : m.admitted = true) (hok : pfx.all Prefix.okBeforeVex = true)
    (hfits : o.fits (addrSize m pfx) = true) (hp0 : p0.extractLsb' 0 4 = 1#4) (hp1 : p1.extractLsb' 0 3 = 4#3)
    (hw : p1.getLsbD 7 = false) (hll : p2.extractLsb' 5 2 ≠ 3#2) (hz : p2.getLsbD 7 = true → p2.extractLsb' 0 3 ≠ 0#3)
    (hb : p2.getLsbD 4 = true → o.isReg = false)
    (h32 : m = .mode32 → p0.extractLsb' 4 4 = 15#4 ∧ p1.getLsbD 6 = true ∧ p2.getLsbD 3 = true
      ∧ pfx.contains .addrSize = false)
    (hlen : pfx.length + 5 + (modrmBytes reg o).length ≤ 15) (rest : List Byte) :
    Assembles m reg o rest pfx [0x62#8, p0, p1, p2, 0x14#8] (evexForm (p2.extractLsb' 5 2))
      (16 * (!p0.getLsbD 4).toNat + 8 * (!p0.getLsbD 7).toNat + reg.toNat)
      (16 * (!p2.getLsbD 3).toNat + (15 - (p1.extractLsb' 3 4).toNat)) (!p0.getLsbD 6) (!p0.getLsbD 5) (p2.getLsbD 4)
      (disp8Factor (evexForm (p2.extractLsb' 5 2)).vlen (p2.getLsbD 4)) (p2.extractLsb' 0 3) (p2.getLsbD 7) := by
  have hbody (rest : List Byte) := (decodeBody_evex_operand h32 hfits reg rest).trans
    (decodeEvexFields_ok hok hp0 hp1 hw hll hz hb reg)
  obtain ⟨h7, h4, -⟩ := toNat_not_bit p0
  obtain ⟨-, -, h3⟩ := toNat_not_bit p2
  rw [modrmBytes_length] at hlen
  exact assembles_of_evexRecord (decode_written (head := [0x62#8, p0, p1, p2, 0x14#8]) hm (.inr (hasRex_of_okBeforeVex hok))
    ⟨_, _, rfl, by decide⟩ hlen (by simp) hbody rest) (record_evexInstr ..) (isEvex_evexForm _)
    (by rw [toNat_two_bits_append, h4, h7]) (by rw [toNat_bit_append_four, h3, toNat_not_four]) rfl

end

/-- Settles O51: spelling by spelling; the operand written out is that of the encoder. -/
theorem registerNumbersAreAssembled : Obligations.RegisterNumbersAreAssembled := by
  intro m pfx w r x b p p0 p1 p2 reg o rest operand stored fits assembled hm hfits
  have hoperand : operand = modrmBytes reg o := by cases o <;> rfl
  clear_value operand
  subst hoperand
  refine ⟨fun hok h64 hlen => ?_, fun hok h32 hlast hlen => ?_, fun hok hpp h32 hlen => ?_,
    fun hok hmap hpp h32 hlen => ?_, fun hok hp0 hp1 hw hll hz hb h32 hlen => ?_⟩
  · exact assembles_legacy hm (by simp [hok, Prefix.okBeforeLegacy]) (.inl h64) (liveRex_append_rex pfx w r x b)
      (by rwa [addrSize_append_rex]) hlen rest
  · have hrex : m = .mode64 ∨ hasRex pfx = false := by
      cases m with
      | mode64 => exact .inl rfl
      | mode32 => exact .inr (h32 rfl)
      | _ => cases hm
    have h := assembles_legacy (reg := reg) hm hok hrex (liveRex_of_getLast hlast) hfits hlen rest
    simp only [Bool.toNat_false, Nat.mul_zero, Nat.zero_add] at h
    exact h
  · exact assembles_vexC5 hm hok hfits hpp h32 hlen rest
  · exact assembles_vexC4 hm hok hfits hmap hpp h32 hlen rest
  · have h := assembles_evex hm hok hfits hp0 hp1 hw hll hz hb h32 hlen rest
    rw [disp8Factor_evexForm] at h
    exact h

end Sys2Proof.Machine

/-! # Operands and addresses (O52 to O57), words written out and `VEX.W` (O4, O10) -/

namespace Sys2Proof.Machine

/-! ## The effective address as a sum, for every address size (R72, R73, R84) -/

/-- The parts of an operand's address, added modulo `2^w`: `n` is the factor of a disp8, `pc` what a relative address adds. -/
def operandSum (w : Nat) (s : State) (x b : Bool) (n : Nat) (pc : BitVec w) : RM → BitVec w
  | .reg _ => 0
  | .ind r => base r
  | .disp32 d => pc + d.signExtend w
  | .ind8 r d => base r + disp8 d
  | .ind32 r d => base r + d.signExtend w
  | .sib sc i r => base r + index sc i
  | .sibDisp32 sc i d => index sc i + d.signExtend w
  | .sib8 sc i r d => base r + index sc i + disp8 d
  | .sib32 sc i r d => base r + index sc i + d.signExtend w
  | .ind16 r => pair r
  | .disp16 d => d.signExtend w
  | .ind16d8 r d => pair r + disp8 d
  | .ind16d16 r d => pair r + d.signExtend w
where
  base (r : BitVec 3) : BitVec w := (s.readGpr (gprNum b r)).setWidth w
  index (sc : BitVec 2) (r : BitVec 3) : BitVec w :=
    if x = false ∧ r = 4#3 then 0 else (s.readGpr (gprNum x r)).setWidth w <<< sc.toNat
  disp8 (d : BitVec 8) : BitVec w := d.signExtend w * BitVec.ofNat w n
  pair (r : BitVec 3) : BitVec w := (s.readGpr (base16 r)).setWidth w + BitVec.ofNat w (s.readGprOpt (index16 r))

theorem ofInt_disp8 {w : Nat} (d : BitVec 8) (n : Nat) :
    BitVec.ofInt w (d.toInt * n) = d.signExtend w * BitVec.ofNat w n := by
  rw [BitVec.ofInt_mul, BitVec.ofInt_natCast]
  rfl

theorem ofInt_toInt_eq_signExtend {w v : Nat} (d : BitVec v) : BitVec.ofInt w d.toInt = d.signExtend w := rfl

theorem effectiveAddress_eq_operandSum {m : Mode} {pfx : List Prefix} {x b : Bool} {n w : Nat} {o : RM} {a : Addr}
    (s : State) (len : Nat) (hw : asizeBits (addrSize m pfx) = w) (h : rmAddr m pfx x b n o = some a) :
    BitVec.ofNat w (effectiveAddress s len a) = operandSum w s x b n
      (if m = .mode64 then BitVec.ofNat w s.rip.toNat + BitVec.ofNat w len else 0) o := by
  rw [effectiveAddress_eq s len a w (by rw [rmAddr_asize h, hw])]
  cases o <;> cases h <;>
    simp only [mkAddr, ofNat_readGprOpt_some, ofNat_readGprOpt_none, ofNat_sibIndex, ofInt_disp8,
      ofInt_toInt_eq_signExtend, operandSum, operandSum.base, operandSum.index, operandSum.disp8, operandSum.pair] <;>
    simp

/-- Settles O52: the sum modulo `2^64`, with an address relative to the next instruction. -/
theorem effectiveAddress64 : Obligations.EffectiveAddress64 := by
  intro s pfx x b n len o a h67 h base index disp8
  have hsize : addrSize .mode64 pfx = .a64 := by rw [addrSize_mode64, h67]; rfl
  have hbits : asizeBits (addrSize .mode64 pfx) = 64 := by rw [hsize]; rfl
  have hsum := effectiveAddress_eq_operandSum s len hbits h
  rw [if_pos rfl, BitVec.ofNat_toNat, BitVec.setWidth_eq] at hsum
  have hbase (r : BitVec 3) : operandSum.base 64 s b r = base r := BitVec.setWidth_eq _
  have hindex (sc : BitVec 2) (r : BitVec 3) : operandSum.index 64 s x sc r = index sc r := by
    simp only [operandSum.index, index, BitVec.setWidth_eq]
  refine ⟨effectiveAddress_lt s len a 64 (by rw [rmAddr_asize h, hbits]), ?_, fun hfits => ?_⟩
  · cases o with
    | reg | ind16 | disp16 | ind16d8 | ind16d16 => rfl
    | _ =>
      simp only [operandSum, hbase, hindex] at hsum
      exact hsum
  · rw [hsize] at hfits
    cases o with
    | ind16 | disp16 | ind16d8 | ind16d16 => cases hfits
    | _ => trivial

/-- Settles O53: the sum modulo `2^32`, relative to the next instruction in 64-bit mode only. -/
theorem effectiveAddress32 : Obligations.EffectiveAddress32 := by
  intro m s pfx x b n len o a hmode h base index disp8
  have hsize : addrSize m pfx = .a32 := by
    obtain ⟨rfl, h67⟩ | ⟨rfl, h67⟩ := hmode
    · rw [addrSize_mode32, if_neg (by simpa using h67)]
    · rw [addrSize_mode64, if_pos (by simpa using h67)]
  have hbits : asizeBits (addrSize m pfx) = 32 := by rw [hsize]; rfl
  have hsum := effectiveAddress_eq_operandSum s len hbits h
  rw [BitVec.ofNat_toNat] at hsum
  refine ⟨effectiveAddress_lt s len a 32 (by rw [rmAddr_asize h, hbits]), ?_, fun hfits => ?_⟩
  · cases o with
    | reg | ind16 | disp16 | ind16d8 | ind16d16 => rfl
    | disp32 d =>
      refine hsum.trans ?_
      by_cases hm : m = .mode64
      · simp [operandSum, hm]
      · simp [operandSum, hm]
    | ind8 | sib | sib8 | ind => exact hsum
    | ind32 | sib32 | sibDisp32 =>
      simp only [operandSum, BitVec.signExtend_eq] at hsum
      exact hsum
  · rw [hsize] at hfits
    cases o with
    | ind16 | disp16 | ind16d8 | ind16d16 => cases hfits
    | _ => trivial

/-- The register pairs of 16-bit addressing: BX or BP with SI or DI, then SI, DI, BP and BX alone (R84). -/
theorem operandSum_pair (s : State) (r : BitVec 3) : operandSum.pair 16 s r =
    if r = 0#3 then (s.readGpr 3).setWidth 16 + (s.readGpr 6).setWidth 16
    else if r = 1#3 then (s.readGpr 3).setWidth 16 + (s.readGpr 7).setWidth 16
    else if r = 2#3 then (s.readGpr 5).setWidth 16 + (s.readGpr 6).setWidth 16
    else if r = 3#3 then (s.readGpr 5).setWidth 16 + (s.readGpr 7).setWidth 16
    else if r = 4#3 then (s.readGpr 6).setWidth 16 else if r = 5#3 then (s.readGpr 7).setWidth 16
    else if r = 6#3 then (s.readGpr 5).setWidth 16 else (s.readGpr 3).setWidth 16 := by
  have hall : ∀ r : BitVec 3, r = 0#3 ∨ r = 1#3 ∨ r = 2#3 ∨ r = 3#3 ∨ r = 4#3 ∨ r = 5#3 ∨ r = 6#3 ∨ r = 7#3 := by decide
  obtain rfl | rfl | rfl | rfl | rfl | rfl | rfl | rfl := hall r <;>
    simp [operandSum.pair, base16, index16, ofNat_readGprOpt_some, ofNat_readGprOpt_none]

/-- Settles O54: the sum modulo `2^16`; a disp8 has the factor 1. -/
theorem effectiveAddress16 : Obligations.EffectiveAddress16 := by
  intro s pfx x b len o a h67 h reg pair
  have hsize : addrSize .mode32 pfx = .a16 := by rw [addrSize_mode32, h67]; rfl
  have hbits : asizeBits (addrSize .mode32 pfx) = 16 := by rw [hsize]; rfl
  have hsum := effectiveAddress_eq_operandSum s len hbits h
  have hpair (r : BitVec 3) : operandSum.pair 16 s r = pair r := operandSum_pair s r
  refine ⟨effectiveAddress_lt s len a 16 (by rw [rmAddr_asize h, hbits]), ?_, fun hfits => ?_⟩
  · cases o with
    | ind16 => simpa only [operandSum, hpair] using hsum
    | disp16 => simpa only [operandSum, BitVec.signExtend_eq] using hsum
    | ind16d8 => simpa only [operandSum, hpair, operandSum.disp8, BitVec.mul_one] using hsum
    | ind16d16 => simpa only [operandSum, hpair, BitVec.signExtend_eq] using hsum
    | _ => rfl
  · rw [hsize] at hfits
    cases o with
    | ind16 | disp16 | ind16d8 | ind16d16 => trivial
    | reg => cases h
    | _ => cases hfits

/-! ## Segments (R63, R77) -/

/-- The segment of an operand's address: the override that has an effect, or the default of its base. -/
theorem rmAddr_seg {m : Mode} {pfx : List Prefix} {x b : Bool} {n : Nat} {o : RM} {a : Addr}
    (h : rmAddr m pfx x b n o = some a) : a.seg = (segOverride m pfx).getD (defaultSeg a.base) := by
  cases o <;> cases h <;> rfl

theorem segOverride_of_no_seg (m : Mode) {pfx : List Prefix} (h : ∀ r, Prefix.seg r ∉ pfx) : segOverride m pfx = none := by
  rw [segOverride_eq]
  exact foldl_overrideStep m pfx none fun r hr => absurd hr (h r)

theorem defaultSeg_eq_ss_iff (base : Option (Fin 16)) : defaultSeg base = .ss ↔ base = some 4 ∨ base = some 5 := by
  unfold defaultSeg
  split
  · next h => simp [h]
  · next h => simp [h]

theorem defaultSeg_cases (base : Option (Fin 16)) : defaultSeg base = .ss ∨ defaultSeg base = .ds := by
  unfold defaultSeg
  split
  · exact .inl rfl
  · exact .inr rfl

/-- R77: RSP or RBP as base, with the extension bit 0. -/
theorem defaultSeg_gprNum (b : Bool) (r : BitVec 3) :
    defaultSeg (some (gprNum b r)) = .ss ↔ b = false ∧ (r = 4#3 ∨ r = 5#3) := by
  rw [defaultSeg_eq_ss_iff, Option.some.injEq, Option.some.injEq, gprNum_four, gprNum_five, ← and_or_left]

/-- R77, R84: BP as base. -/
theorem defaultSeg_base16 (r : BitVec 3) : defaultSeg (some (base16 r)) = .ss ↔ r = 2#3 ∨ r = 3#3 ∨ r = 6#3 := by
  revert r
  decide

/-- Settles O56: the base of each operand, and the values of `r/m` and `base` that it may have. -/
theorem defaultSegment : Obligations.DefaultSegment := by
  intro m pfx x b n o a hfits hseg h
  have hdefault : a.seg = defaultSeg a.base := by rw [rmAddr_seg h, segOverride_of_no_seg m hseg]; rfl
  rw [hdefault]
  refine ⟨defaultSeg_cases a.base, ?_⟩
  cases o with
  | reg => cases h
  | disp32 | sibDisp32 | disp16 =>
    cases h
    exact ⟨nofun, False.elim⟩
  | ind r =>
    cases h
    simp only [RM.fits, Bool.and_eq_true, bne_iff_ne] at hfits
    simp [mkAddr, defaultSeg_gprNum, hfits]
  | ind8 r | ind32 r =>
    cases h
    simp only [RM.fits, Bool.and_eq_true, bne_iff_ne] at hfits
    simp [mkAddr, defaultSeg_gprNum, hfits]
  | sib sc i r =>
    cases h
    simp only [RM.fits, Bool.and_eq_true, bne_iff_ne] at hfits
    simp [mkAddr, defaultSeg_gprNum, hfits]
  | sib8 sc i r | sib32 sc i r =>
    cases h
    exact defaultSeg_gprNum b r
  | ind16 r =>
    cases h
    simp only [RM.fits, Bool.and_eq_true, bne_iff_ne] at hfits
    simp [mkAddr, defaultSeg_base16, hfits]
  | ind16d8 r | ind16d16 r =>
    cases h
    exact defaultSeg_base16 r

/-- The bytes after an override start from what it makes of the one found before. -/
theorem segOverride_append_seg (m : Mode) (front back : List Prefix) (r : SegReg) :
    segOverride m (front ++ .seg r :: back) =
      back.foldl (overrideStep m) (overrideStep m (segOverride m front) (.seg r)) := by
  rw [segOverride_eq, segOverride_eq, List.foldl_append, List.foldl_cons]

/-- An override with an effect, and none after it, is the one of the address. -/
theorem seg_of_last_override {m : Mode} {front back : List Prefix} {r : SegReg} {x b : Bool} {n : Nat} {o : RM} {a : Addr}
    (hback : ∀ q, Prefix.seg q ∈ back → m = .mode64 ∧ q ≠ .fs ∧ q ≠ .gs) (hr : ¬(m = .mode64 ∧ r ≠ .fs ∧ r ≠ .gs))
    (h : rmAddr m (front ++ .seg r :: back) x b n o = some a) : a.seg = r := by
  rw [rmAddr_seg h, segOverride_append_seg, foldl_overrideStep m back _ hback, overrideStep, if_neg hr, Option.getD_some]

/-- The address depends on the bytes in front only by the override and the address size that they give. -/
theorem rmAddr_congr {m : Mode} {pfx pfx' : List Prefix} (hseg : segOverride m pfx = segOverride m pfx')
    (hsize : addrSize m pfx = addrSize m pfx') (x b : Bool) (n : Nat) (o : RM) :
    rmAddr m pfx x b n o = rmAddr m pfx' x b n o := by
  have hmk (base index : Option (Fin 16)) (scale : Nat) (disp : Int) (rip : Bool) :
      mkAddr m pfx base index scale disp rip = mkAddr m pfx' base index scale disp rip := by
    rw [mkAddr, mkAddr, hseg, hsize]
  cases o <;> simp only [rmAddr, hmk]

/-- In 64-bit mode an override other than FS and GS changes no address (log entry 18). -/
theorem rmAddr_ignored_override {front back : List Prefix} {r : SegReg} (hfs : r ≠ .fs) (hgs : r ≠ .gs) (x b : Bool) (n : Nat)
    (o : RM) : rmAddr .mode64 (front ++ .seg r :: back) x b n o = rmAddr .mode64 (front ++ back) x b n o := by
  refine rmAddr_congr ?_ ?_ x b n o
  · rw [segOverride_append_seg, overrideStep, if_pos ⟨rfl, hfs, hgs⟩, segOverride_eq, segOverride_eq, List.foldl_append]
  · have h : (front ++ .seg r :: back).contains .addrSize = (front ++ back).contains .addrSize := by simp
    rw [addrSize_mode64, addrSize_mode64, h]

/-- Settles O57: only an override with an effect changes the one found so far. -/
theorem segmentOverrides : Obligations.SegmentOverrides := by
  intro front back r x b n o a
  refine ⟨fun hback h => ?_, fun hback hr h => ?_, fun hfs hgs h => ?_⟩
  · exact seg_of_last_override (fun q hq => absurd hq (hback q)) (by simp) h
  · exact seg_of_last_override (fun q hq => ⟨rfl, hback q hq⟩) (by obtain rfl | rfl := hr <;> simp) h
  · exact ⟨a, rmAddr_ignored_override hfs hgs x b n o ▸ h, rfl⟩

/-! ## disp8 (R74) -/

theorem src2_disp8 (m : Mode) (pfx : List Prefix) (evex x b bcst : Bool) (n : Nat) {rm index base : BitVec 3}
    {scale : BitVec 2} {d : BitVec 8} {o : RM} (h : o = .ind8 rm d ∨ o = .sib8 scale index base d) :
    ∃ a q, rmSrc2 m pfx evex x b n bcst o = .mem a q ∧ a.disp = d.toInt * n := by
  obtain rfl | rfl := h
  · exact ⟨_, _, rfl, rfl⟩
  · exact ⟨_, _, rfl, rfl⟩

theorem src2_disp32 (m : Mode) (pfx : List Prefix) (evex x b bcst : Bool) (n : Nat) {rm index base : BitVec 3}
    {scale : BitVec 2} {d : BitVec 32} {o : RM}
    (h : o = .ind32 rm d ∨ o = .sib32 scale index base d ∨ o = .sibDisp32 scale index d ∨ o = .disp32 d) :
    ∃ a q, rmSrc2 m pfx evex x b n bcst o = .mem a q ∧ a.disp = d.toInt := by
  obtain rfl | rfl | rfl | rfl := h
  · exact ⟨_, _, rfl, rfl⟩
  · exact ⟨_, _, rfl, rfl⟩
  · exact ⟨_, _, rfl, rfl⟩
  · exact ⟨_, _, rfl, rfl⟩

/-- Settles O55: the factor is 1 outside EVEX, and `disp8Factor` under it. -/
theorem disp8IsScaledUnderEvexOnly : Obligations.Disp8IsScaledUnderEvexOnly := by
  intro m pfx w x b z bcst reg rm index base aaa scale d4 v4 d5 v5 d d32 o o32 ho ho32 disp
  have unscaled (x b : Bool) : ∃ a q, rmSrc2 m pfx false x b 1 false o = .mem a q ∧ a.disp = d.toInt := by
    simpa using src2_disp8 m pfx false x b false 1 ho
  have scaled (v : VLen) {k : Int} (hk : (disp8Factor v bcst : Int) = k) :
      ∃ a q, rmSrc2 m pfx true x b (disp8Factor v bcst) bcst o = .mem a q ∧ a.disp = d.toInt * k :=
    hk ▸ src2_disp8 m pfx true x b bcst (disp8Factor v bcst) ho
  have unscaled32 (evex x b bcst : Bool) (n : Nat) := src2_disp32 m pfx evex x b bcst n ho32
  exact ⟨unscaled _ _, unscaled32 .., unscaled _ _, unscaled32 .., unscaled _ _, unscaled32 .., unscaled _ _,
    unscaled32 .., unscaled _ _, unscaled32 .., scaled .v128 (by cases bcst <;> rfl), unscaled32 ..,
    scaled .v256 (by cases bcst <;> rfl), unscaled32 .., scaled .v512 (by cases bcst <;> rfl), unscaled32 ..⟩

/-! ## Words written out (R62, R67, R76, R78), and `VEX.W` (R67) -/

/-- Settles O4, by running the decoder on each word. -/
theorem writtenWordsDecode : Obligations.WrittenWordsDecode :=
  ⟨rfl, rfl, rfl, rfl, rfl, rfl, rfl, rfl, rfl⟩

/-- Settles O10: neither the record, nor the length, nor the result looks at `W`. -/
theorem vexWIsIgnored : Obligations.VexWIsIgnored :=
  fun _ _ _ _ _ _ _ => ⟨rfl, rfl⟩

end Sys2Proof.Machine

/-! # What the forms compute, and that they complete with it (O13, O20 to O24, O26 to O28, O30 to O33) -/

namespace Sys2Proof.Machine

/-! ## A step runs what the bytes at the program counter decode to (R100, R150) -/

/-- Settles O13: once the state is admitted and TF is clear, the decoder's answer decides. -/
theorem stepRunsDecodedInstruction : Obligations.StepRunsDecodedInstruction := by
  intro s hadm
  refine ⟨fun htf => by simp [step, hadm, htf], fun htf => ?_⟩
  have herror {e : DecodeError} (he : decode s.mode s.fetch = .error e) := step_of_decode_error hadm htf he
  exact ⟨fun _ => step_of_decode_ok hadm htf, herror, fun _ => herror, herror, fun _ => herror, fun _ => herror⟩

/-! ## The interleave (R101, R102) -/

/-- Settles O26: each slice lies within one part of the concatenation. -/
theorem laneInterleavesLowQuadwords : Obligations.LaneInterleavesLowQuadwords := by
  intro a b
  have drop {v w start : Nat} {hi : BitVec v} {lo : BitVec w} (h : w ≤ start) :=
    BitVec.extractLsb'_append_eq_of_le (xhi := hi) (xlo := lo) (len := 32) h
  refine ⟨BitVec.extractLsb'_append_eq_right, ?_, ?_, ?_⟩
  · exact (drop (by decide)).trans BitVec.extractLsb'_append_eq_right
  · exact (drop (by decide)).trans ((drop (by decide)).trans BitVec.extractLsb'_append_eq_right)
  · exact (drop (by decide)).trans ((drop (by decide)).trans BitVec.extractLsb'_append_eq_left)

theorem elems_eq_lanes (v : VLen) : v.elems = 4 * v.lanes := by cases v <;> rfl

theorem bits_eq_elems (v : VLen) : v.bits = 32 * v.elems := by cases v <;> rfl

theorem elems_le (v : VLen) : v.elems ≤ 16 := by cases v <;> decide

theorem lanes_le (v : VLen) : v.lanes ≤ 4 := by cases v <;> decide

/-- R102, first as lanes. -/
theorem lane_interleaveLow {v : VLen} {n : Nat} (hn : n < v.lanes) (s1 s2 : Vec) :
    lane n (interleaveLow v s1 s2) = lane128 (lane n s1) (lane n s2) := by
  rw [interleaveLow, lane_ofLanes _ _ _ (lanes_le v), if_pos hn]

/-- Element `p` of one interleaved lane: of the first source when `p` is even, of the second when it is odd. -/
theorem extractLsb'_lane128_lane (n p : Nat) (hp : p < 4) (s1 s2 : Vec) :
    (lane128 (lane n s1) (lane n s2)).extractLsb' (32 * p) 32 =
      if p % 2 = 0 then elem (4 * n + p / 2) s1 else elem (4 * n + p / 2) s2 := by
  obtain ⟨h0, h1, h2, h3⟩ := laneInterleavesLowQuadwords (lane n s1) (lane n s2)
  have low (v : Vec) := extractLsb'_lane n 0 (by decide) v
  have high (v : Vec) := extractLsb'_lane n 1 (by decide) v
  match p, hp with
  | 0, _ => exact h0.trans (low s1)
  | 1, _ => exact h1.trans (low s2)
  | 2, _ => exact h2.trans (high s1)
  | 3, _ => exact h3.trans (high s2)

/-- R102, then as elements. -/
theorem elem_interleaveLow {v : VLen} {j : Nat} (hj : j < v.elems) (s1 s2 : Vec) :
    elem j (interleaveLow v s1 s2) = unpacked (fun i => elem i s1) (fun i => elem i s2) j := by
  have hlane : j / 4 < v.lanes := by have := elems_eq_lanes v; omega
  calc elem j (interleaveLow v s1 s2)
    _ = elem (4 * (j / 4) + j % 4) (interleaveLow v s1 s2) := by rw [Nat.div_add_mod]
    _ = (lane (j / 4) (interleaveLow v s1 s2)).extractLsb' (32 * (j % 4)) 32 :=
      (extractLsb'_lane _ _ (Nat.mod_lt _ (by decide)) _).symm
    _ = unpacked (fun i => elem i s1) (fun i => elem i s2) j := by
      rw [lane_interleaveLow hlane, extractLsb'_lane128_lane _ _ (Nat.mod_lt _ (by decide))]
      rfl

/-- Settles O27: by lane from the definition, by element from the slices of a lane. -/
theorem interleaveLowByLaneAndByElement : Obligations.InterleaveLowByLaneAndByElement :=
  fun _ s1 s2 => ⟨fun _ hn => lane_interleaveLow hn s1 s2, fun _ hj => elem_interleaveLow hj s1 s2⟩

theorem getLsbD_interleaveLow_of_ge {v : VLen} {b : Nat} (hb : v.bits ≤ b) (s1 s2 : Vec) :
    (interleaveLow v s1 s2).getLsbD b = false := by
  have hlanes : ¬b < 128 * v.lanes := by rw [bits_eq_elems, elems_eq_lanes] at hb; omega
  simp [interleaveLow, getLsbD_ofLanes _ _ _ (lanes_le v), hlanes]

/-! ## Write-masking and the results of the forms (R103 to R108, R111) -/

theorem enabled_iff (aaa : BitVec 3) (m : Word) (j : Nat) : enabled aaa m j = true ↔ aaa = 0 ∨ m.getLsbD j = true := by
  simp [enabled]

theorem elem_applyMask {v : VLen} {j : Nat} (hj : j < v.elems) (tmp old : Vec) (aaa : BitVec 3) (z : Bool) (m : Word) :
    elem j (applyMask v tmp old aaa z m) =
      if aaa = 0 ∨ m.getLsbD j = true then elem j tmp else if z then 0 else elem j old := by
  simp only [applyMask, elem_ofElems _ _ _ (elems_le v), if_pos hj, enabled_iff]
  rfl

theorem getLsbD_applyMask_of_ge {v : VLen} {b : Nat} (hb : v.bits ≤ b) (tmp old : Vec) (aaa : BitVec 3) (z : Bool)
    (m : Word) : (applyMask v tmp old aaa z m).getLsbD b = false := by
  have : ¬b < 32 * v.elems := by rw [bits_eq_elems] at hb; omega
  simp [applyMask, getLsbD_ofElems _ _ _ (elems_le v), this]

/-- Settles O28: masking puts a vector of `KL` elements together. -/
theorem applyMaskByElement : Obligations.ApplyMaskByElement :=
  fun _ tmp old aaa z m => ⟨fun _ hj => elem_applyMask hj tmp old aaa z m,
    fun _ hb => getLsbD_applyMask_of_ge hb tmp old aaa z m⟩

/-- Two vectors with the same `KL` elements and nothing above `VL` are equal. -/
theorem vec_ext_vlen {v : VLen} {x y : Vec} (h : ∀ j, j < v.elems → elem j x = elem j y)
    (hx : ∀ b, v.bits ≤ b → x.getLsbD b = false) (hy : ∀ b, v.bits ≤ b → y.getLsbD b = false) : x = y := by
  refine vec_ext_elem x y fun j _ => ?_
  by_cases hj : j < v.elems
  · exact h j hj
  · apply BitVec.eq_of_getLsbD_eq
    intro i _
    have hb : v.bits ≤ 32 * j + i := by rw [bits_eq_elems]; omega
    rw [getLsbD_elem, getLsbD_elem, hx _ hb, hy _ hb]

/-- Form 1 is form 2 in bits 127:0 and its first source above (R103, R115 (c)). -/
theorem getLsbD_legacyResult (s1 s2 : Vec) (b : Nat) :
    (legacyResult s1 s2).getLsbD b = if b < 128 then (vexResult .v128 s1 s2).getLsbD b else s1.getLsbD b := by
  unfold legacyResult vexResult interleaveLow
  rw [BitVec.getLsbD_append, getLsbD_ofLanes _ _ _ (lanes_le _)]
  by_cases hb : b < 128
  · have h0 : b / 128 = 0 := by omega
    have hm : b % 128 = b := by omega
    simp [hb, VLen.lanes, h0, hm]
  · simp only [hb, if_false, BitVec.getLsbD_extractLsb']
    by_cases h : b < 512
    · have hin : b - 128 < 384 := by omega
      have hbit : 128 + (b - 128) = b := by omega
      simp [hin, hbit]
    · have hout : ¬b - 128 < 384 := by omega
      simp [hout, BitVec.getLsbD_of_ge s1 b (by omega)]

theorem elem_legacyResult {j : Nat} (hj : j < 4) (s1 s2 : Vec) :
    elem j (legacyResult s1 s2) = elem j (vexResult .v128 s1 s2) := by
  apply BitVec.eq_of_getLsbD_eq
  intro i hi
  rw [getLsbD_elem, getLsbD_elem, getLsbD_legacyResult, if_pos (by omega)]

/-- A mask that enables every element is no mask (R115 (d)). -/
theorem evexResult_of_all_enabled {v : VLen} {aaa : BitVec 3} {m : Word}
    (h : ∀ j, j < v.elems → aaa = 0 ∨ m.getLsbD j = true) (s1 s2 old : Vec) (z : Bool) :
    evexResult v s1 s2 old aaa z m = vexResult v s1 s2 :=
  vec_ext_vlen (fun j hj => (elem_applyMask hj ..).trans (if_pos (h j hj)))
    (fun _ hb => getLsbD_applyMask_of_ge hb ..) (fun _ hb => getLsbD_interleaveLow_of_ge hb ..)

/-- A mask that enables no element leaves 0 under zeroing and the old elements under merging (R115 (d)). -/
theorem evexResult_of_none_enabled {v : VLen} {aaa : BitVec 3} {m : Word} (ha : aaa ≠ 0)
    (h : ∀ j, j < v.elems → m.getLsbD j = false) (s1 s2 old : Vec) (z : Bool) :
    evexResult v s1 s2 old aaa z m = if z then 0 else truncate v old := by
  refine vec_ext_vlen (v := v) (fun j hj => ?_) (fun _ hb => getLsbD_applyMask_of_ge hb ..) fun b hb => ?_
  · have hoff : ¬(aaa = 0 ∨ m.getLsbD j = true) := not_or.mpr ⟨ha, by simp [h j hj]⟩
    rw [evexResult, elem_applyMask hj, if_neg hoff]
    cases z with
    | true => simp [elem]
    | false => simp [elem_truncate v old j hj]
  · cases z with
    | true => simp
    | false => simp [getLsbD_truncate, Nat.not_lt.mpr hb]

/-- Settles O33, from what each result holds by element and by bit. -/
theorem relationsBetweenTheForms : Obligations.RelationsBetweenTheForms := by
  intro v s1 s2 old aaa z m
  refine ⟨fun j hj => ?_, fun j hj => elem_legacyResult hj s1 s2, fun b hb => ⟨?_, getLsbD_interleaveLow_of_ge hb s1 s2⟩,
    fun hm => evexResult_of_all_enabled (fun j hj => .inr (hm j hj)) s1 s2 old z, fun hm ha => ⟨?_, ?_⟩⟩
  · have hj16 : j < VLen.elems .v512 := lt_of_lt_of_le hj (elems_le v)
    rw [evexResult_of_all_enabled fun _ _ => .inl rfl, vexResult, vexResult, elem_interleaveLow hj16, elem_interleaveLow hj]
  · rw [getLsbD_legacyResult, if_neg (by omega)]
  · exact evexResult_of_none_enabled ha hm s1 s2 old true
  · exact evexResult_of_none_enabled ha hm s1 s2 old false

/-- Every form's result by element; a form that is no EVEX form has no mask (R103 to R108, R111). -/
theorem elem_recordResult {r : DecodedInst} (haaa : r.form.isEvex = false → r.aaa = 0) {j : Nat} (hj : j < r.form.vlen.elems)
    (s1 s2 old : Vec) (m : Word) : elem j (recordResult r s1 s2 old m) =
      if r.aaa = 0 ∨ m.getLsbD j = true then unpacked (fun i => elem i s1) (fun i => elem i s2) j
      else if r.z then 0 else elem j old := by
  cases hf : r.form <;> simp only [hf, Form.isEvex, Form.vlen, true_implies] at haaa hj <;>
    simp only [recordResult, hf]
  case legacy128 => rw [if_pos (.inl haaa), elem_legacyResult hj, vexResult, elem_interleaveLow hj]
  case vex128 | vex256 => rw [if_pos (.inl haaa), vexResult, elem_interleaveLow hj]
  case evex128 | evex256 | evex512 => rw [evexResult, elem_applyMask hj, elem_interleaveLow hj]

/-- Every form but the legacy one has nothing above `VL` in its result. -/
theorem getLsbD_recordResult_of_ge {r : DecodedInst} (hf : r.form ≠ .legacy128) {b : Nat} (hb : r.form.vlen.bits ≤ b)
    (s1 s2 old : Vec) (m : Word) : (recordResult r s1 s2 old m).getLsbD b = false := by
  cases h : r.form <;> rw [h] at hb <;> simp only [recordResult, h]
  case legacy128 => exact absurd h hf
  case vex128 | vex256 => exact getLsbD_interleaveLow_of_ge hb ..
  case evex128 | evex256 | evex512 => exact getLsbD_applyMask_of_ge hb ..

/-! ## The second source (R109) -/

/-- Settles O30: a register is truncated to `VL`, memory is read as its little-endian value, or its first element broadcast. -/
theorem secondSourceElements : Obligations.SecondSourceElements := by
  intro s narrow r v hv j hj
  have hvl : j < r.form.vlen.elems := by
    split at hj
    · next hf => rw [hf]; exact lt_trans hj (by decide)
    · exact hj
  unfold src2Value at hv
  unfold State.srcElem
  cases hsrc : r.src2 with
  | reg n =>
    simp only [hsrc, Except.ok.injEq] at hv
    rw [← hv, elem_truncate _ _ _ hvl]
  | mem a bcst =>
    rw [hsrc] at hv
    cases bcst with
    | true =>
      simp only at hv
      split at hv
      · next w hw =>
        cases hv
        rw [broadcast, elem_ofElems _ _ _ (elems_le _), if_pos hvl, (memRead_ok _ _ _ _ _ hw).2]
        exact elem_leValue s _ 4 0 (by decide) (by decide)
      · cases hv
    | false =>
      simp only at hv
      split at hv
      · next hf =>
        rw [if_pos hf] at hj
        obtain ⟨n, hn8, hn16, hn⟩ := memReadLegacy_ok _ _ _ _ _ hv
        rw [hn j hj]
        exact elem_leValue s _ n j (by omega) (by omega)
      · rw [(memRead_ok _ _ _ _ _ hv).2]
        have hbytes : r.form.vlen.bytes = 4 * r.form.vlen.elems := by cases r.form <;> rfl
        have := elems_le r.form.vlen
        exact elem_leValue s _ _ j (by omega) (by omega)

/-- The interleave looks at element `4n + p div 2` of the second source, which for the legacy form is 0 or 1. -/
theorem unpacked_src2Value {s : State} {narrow : Bool} {r : DecodedInst} {s2 : Vec} (h : src2Value s narrow r = .ok s2)
    {j : Nat} (hj : j < r.form.vlen.elems) :
    unpacked (fun i => elem i (s.readZmm r.src1)) (fun i => elem i s2) j = s.unpackedElem r j := by
  have hsrc : elem (4 * (j / 4) + j % 4 / 2) s2 = s.srcElem r (4 * (j / 4) + j % 4 / 2) := by
    refine secondSourceElements s narrow r s2 h _ ?_
    split
    · next hf =>
      rw [hf] at hj
      have : j < 4 := hj
      omega
    · omega
  simp only [State.unpackedElem, unpacked, hsrc]

/-! ## A completed execution: the destination (R103 to R108) -/

theorem record_aaa_of_not_evex (m : Mode) (i : Instr) (h : (record m i).form.isEvex = false) : (record m i).aaa = 0 := by
  cases i with
  | vunpcklpsEvex128 => cases h
  | vunpcklpsEvex256 => cases h
  | vunpcklpsEvex512 => cases h
  | _ => rfl

/-- R4: a processor's registers are as wide as every form it has. -/
theorem vlen_le_maxvl {c : Config} {f : Form} (hwf : c.wf = true) (hf : f.featuresPresent c.feat = true) :
    f.vlen.bits ≤ c.maxvl.bits := by
  simp only [Config.wf, Bool.and_eq_true, Bool.or_eq_true, Bool.not_eq_true', decide_eq_true_eq, beq_iff_eq] at hwf
  obtain ⟨⟨⟨havx, h512⟩, -⟩, -⟩ := hwf
  cases f <;> simp only [Form.featuresPresent, Bool.and_eq_true] at hf
  case legacy128 => cases c.maxvl <;> decide
  case vex128 | vex256 => exact le_trans (by decide) (havx.resolve_left (by simp [hf]))
  case evex128 | evex256 | evex512 =>
    rw [h512.resolve_left (by simp [hf])]
    exact vlen_bits_le _

section
variable {i : Instr} {s t : State}

/-- Every element below `KL` of the destination: the interleave's, 0 or the old one, as the mask says. -/
theorem elem_dest_of_exec_next (hwf : s.cfg.wf = true) (h : exec i s = .next t) {j : Nat}
    (hj : j < (record s.mode i).form.vlen.elems) :
    elem j (t.readZmm (record s.mode i).dest) =
      if (record s.mode i).aaa = 0 ∨ (s.readMask (record s.mode i).aaa).getLsbD j = true then
        s.unpackedElem (record s.mode i) j
      else if (record s.mode i).z then 0 else elem j (s.readZmm (record s.mode i).dest) := by
  obtain ⟨hud, -, -, s2, hs2, rfl⟩ := (exec_next_iff i s t).mp h
  have hfeat : (record s.mode i).form.featuresPresent s.cfg.feat = true := by
    simp only [invalidOpcode, Bool.or_eq_false_iff, Bool.not_eq_false'] at hud
    obtain ⟨⟨hfeat, -⟩, -⟩ := hud
    exact hfeat
  have hwidth : 32 * j + 32 ≤ s.cfg.maxvl.bits := by
    have := vlen_le_maxvl hwf hfeat
    rw [bits_eq_elems] at this
    omega
  rw [State.readZmm_finish, State.readZmm_writeZmm_same, elem_and_ones _ _ _ hwidth,
    elem_recordResult (record_aaa_of_not_evex _ i) hj, unpacked_src2Value hs2 hj]

/-- Nothing above `VL` is left in the destination by any form but the legacy one (R104 to R108). -/
theorem getLsbD_dest_of_exec_next (hf : (record s.mode i).form ≠ .legacy128) (h : exec i s = .next t) {b : Nat}
    (hb : (record s.mode i).form.vlen.bits ≤ b) : (t.readZmm (record s.mode i).dest).getLsbD b = false := by
  obtain ⟨-, -, -, s2, -, rfl⟩ := (exec_next_iff i s t).mp h
  rw [State.readZmm_finish, State.readZmm_writeZmm_same, BitVec.getLsbD_and, getLsbD_recordResult_of_ge hf hb,
    Bool.false_and]

/-- Enabled, with no reserved field and with a second source that can be read, an execution completes within its frame (R32, R100,
R150, R152). -/
theorem exec_completes (hready : s.ready (record s.mode i).form = true) (hz : zeroingFits i = true)
    (hb : broadcastFits i = true) (hsrc : s.srcReadable (record s.mode i) = true) :
    ∃ t, exec i s = .next t ∧ pcAdvanced s t i.len ∧ onlyWrites s t (record s.mode i).dest := by
  obtain ⟨-, hadm, hts, hud⟩ := ready_checks _ hready
  obtain ⟨s2, hs2⟩ := src2Value_of_readable s (narrowOf s i) _ hsrc (record_legacy_src2 s.mode i)
  have hres : reservedOf i = false := by simp [reservedOf, hz, hb]
  have ht := (exec_next_iff i s _).mpr ⟨hres ▸ hud, hts, hadm, s2, hs2, rfl⟩
  obtain ⟨hframe, hpc, -⟩ := executionFrame i s _ ht
  exact ⟨_, ht, hpc, hframe⟩

end

/-! ## The forms (R103 to R108) -/

/-- Settles O20: the first source of the legacy form is its destination, whose upper bits the result keeps. -/
theorem legacyFormInterleavesAndKeepsUpperBits : Obligations.LegacyFormInterleavesAndKeepsUpperBits := by
  intro pfx reg rm s i r hready hsrc
  obtain ⟨t, ht, hpc, hframe⟩ := exec_completes (i := i) hready rfl rfl hsrc
  obtain ⟨hwf, -⟩ := ready_checks _ hready
  refine ⟨t, ht, fun j hj => (elem_dest_of_exec_next hwf ht hj).trans (if_pos (.inl rfl)), fun b hb hmax => ?_, hpc, hframe⟩
  obtain ⟨-, -, -, s2, -, rfl⟩ := (exec_next_iff i s t).mp ht
  rw [State.readZmm_finish, State.readZmm_writeZmm_same, BitVec.getLsbD_and, getLsbD_registerOnes, decide_eq_true hmax,
    Bool.and_true]
  exact (getLsbD_legacyResult _ s2 b).trans (if_neg (by omega))

/-- What R106 to R108 say holds of every form but the legacy one, with the vector length, mask and zeroing of its record: the VEX
forms have `aaa = 0`. -/
theorem evexCompletes_of_not_legacy {i : Instr} {s : State} (hf : (record s.mode i).form ≠ .legacy128) :
    evexCompletes (record s.mode i).form.vlen i (record s.mode i).aaa (record s.mode i).z s := by
  intro hready hz hb hsrc
  obtain ⟨t, ht, hpc, hframe⟩ := exec_completes hready hz hb hsrc
  obtain ⟨hwf, -⟩ := ready_checks _ hready
  exact ⟨t, ht, fun j hj => elem_dest_of_exec_next hwf ht hj, fun b hb => getLsbD_dest_of_exec_next hf ht hb, hpc, hframe⟩

/-- Settles O21: the four constructors have no mask and no reserved field. -/
theorem vexFormsInterleaveAndZeroUpperBits : Obligations.VexFormsInterleaveAndZeroUpperBits := by
  intro i v s hi r hready hsrc
  obtain ⟨hv, hf, haaa, hz, hb⟩ : r.form.vlen = v ∧ r.form ≠ .legacy128 ∧ r.aaa = 0 ∧ zeroingFits i = true ∧
      broadcastFits i = true := by
    obtain ⟨pfx, dest, src1, rm, ⟨rfl, rfl⟩ | ⟨rfl, rfl⟩ | ⟨w, x, b, ⟨rfl, rfl⟩ | ⟨rfl, rfl⟩⟩⟩ := hi
    all_goals exact ⟨rfl, nofun, rfl, rfl, rfl⟩
  obtain ⟨t, ht, helem, hupper, hpc, hframe⟩ := evexCompletes_of_not_legacy hf hready hz hb hsrc
  subst hv
  exact ⟨t, ht, fun j hj => (helem j hj).trans (if_pos (.inl haaa)), hupper, hpc, hframe⟩

/-- Settles O22: form 4 is no legacy form. -/
theorem evex128InterleavesUnderMask : Obligations.Evex128InterleavesUnderMask :=
  fun pfx x b dest src1 aaa z bcst rm _ =>
    evexCompletes_of_not_legacy (i := .vunpcklpsEvex128 pfx x b dest src1 aaa z bcst rm) nofun

/-- Settles O23: form 5 is no legacy form. -/
theorem evex256InterleavesUnderMask : Obligations.Evex256InterleavesUnderMask :=
  fun pfx x b dest src1 aaa z bcst rm _ =>
    evexCompletes_of_not_legacy (i := .vunpcklpsEvex256 pfx x b dest src1 aaa z bcst rm) nofun

/-- Settles O24: form 6 is no legacy form. -/
theorem evex512InterleavesUnderMask : Obligations.Evex512InterleavesUnderMask :=
  fun pfx x b dest src1 aaa z bcst rm _ =>
    evexCompletes_of_not_legacy (i := .vunpcklpsEvex512 pfx x b dest src1 aaa z bcst rm) nofun

/-! ## One register as both sources, and EVEX without a mask (R114, R115 (a)) -/

/-- Settles O31: with equal sources it is no matter which of the two an element comes from. -/
theorem sameSourceIsDuplicated : Obligations.SameSourceIsDuplicated := by
  intro i s t hwf ht hsrc haaa j hj
  rw [elem_dest_of_exec_next hwf ht hj, if_pos (.inl haaa)]
  simp only [State.unpackedElem, unpacked, State.srcElem, hsrc, ite_self]

/-- The interleave looks at the elements below `KL` of its sources only (R23, R102). -/
theorem interleaveLow_congr_src2 {v : VLen} {s2 s2' : Vec} (h : ∀ j, j < v.elems → elem j s2 = elem j s2') (s1 : Vec) :
    interleaveLow v s1 s2 = interleaveLow v s1 s2' :=
  upperQuadwordsAreIgnored v s1 s2 s1 s2' fun n hn p hp =>
    ⟨rfl, h _ (by have := elems_eq_lanes v; omega)⟩

/-- What forms 2 and 3, and forms 4 and 5 without a mask, write: the interleave. -/
theorem recordResult_unmasked {r : DecodedInst} (hf : r.form ≠ .legacy128) (haaa : r.form.isEvex = true → r.aaa = 0)
    (s1 s2 old : Vec) (m : Word) : recordResult r s1 s2 old m = interleaveLow r.form.vlen s1 s2 := by
  cases h : r.form <;> simp only [h, Form.isEvex, true_implies] at haaa <;> simp only [recordResult, h]
  case legacy128 => exact absurd h hf
  case vex128 | vex256 => rfl
  case evex128 | evex256 | evex512 => exact evexResult_of_all_enabled (fun _ _ => .inl haaa) ..

/-- Settles O32: both forms write the interleave of the same elements to the same register. -/
theorem unmaskedEvexAgreesWithVex : Obligations.UnmaskedEvexAgreesWithVex := by
  intro i i' s t t' hforms haaa hdest hsrc1 hsrc2 ht ht'
  obtain ⟨-, -, -, s2, hs2, rfl⟩ := (exec_next_iff i s t).mp ht
  obtain ⟨-, -, -, s2', hs2', rfl⟩ := (exec_next_iff i' s t').mp ht'
  obtain ⟨hf, hf', hvex, hv⟩ : (record s.mode i).form ≠ .legacy128 ∧ (record s.mode i').form ≠ .legacy128 ∧
      (record s.mode i).form.isEvex = false ∧ (record s.mode i).form.vlen = (record s.mode i').form.vlen := by
    obtain ⟨h, h'⟩ | ⟨h, h'⟩ := hforms <;> rw [h, h'] <;> decide
  have helems (j : Nat) (hj : j < (record s.mode i').form.vlen.elems) : elem j s2 = elem j s2' := by
    rw [secondSourceElements s _ _ s2 hs2 j (by rwa [if_neg hf, hv]),
      secondSourceElements s _ _ s2' hs2' j (by rwa [if_neg hf']), hsrc2]
  rw [State.finish_zmm, State.finish_zmm, recordResult_unmasked hf (by simp [hvex]),
    recordResult_unmasked hf' fun _ => haaa, hv, interleaveLow_congr_src2 helems, hdest, hsrc1]

end Sys2Proof.Machine

/-! # Exceptions: when each is raised, and what it reports (O37, O40, O41, O45, O48, O49, O50) -/

namespace Sys2Proof.Machine

/-- Settles O50, row by row of the table of R122. -/
theorem faultVectorsAndCodes : Obligations.FaultVectorsAndCodes := by
  refine ⟨rfl, rfl, rfl, rfl, rfl, rfl, rfl, rfl, fun _ _ => ⟨rfl, rfl, rfl⟩, rfl, rfl, fun f hf => ?_⟩
  cases f with
  | pageFault c la => rfl
  | _ => cases hf

/-! ## CS and the privilege level (R135) -/

/-- Another CS is unseen by an instruction whose second source is a register. -/
theorem unseen_cs {s : State} {r : DecodedInst} {n : Fin 32} (c : Segment) (hreg : r.src2 = .reg n) :
    Unseen (fun t => { t with cs := c }) s r where
  mode := rfl
  draws := rfl
  invalid _ := rfl
  ts := rfl
  admitted := rfl
  src2 _ := by simp only [src2Value, hreg]; rfl
  vectors := rfl
  result _ _ _ := rfl
  finish _ _ _ := rfl

/-- Settles O37: only the read of a memory operand looks at a segment register. -/
theorem registerFormsIgnorePrivilege : Obligations.RegisterFormsIgnorePrivilege :=
  fun _ _ c _ hreg => exec_mapNext_of_unseen (unseen_cs c hreg)

/-- The privilege level is the selector of CS modulo 4 (R34). -/
theorem cpl_eq_mod (s : State) : s.cpl = s.cs.selector.toNat % 4 := by
  simp [State.cpl, BitVec.extractLsb'_toNat]

/-- R129: the three conditions under which alignment checking is active. -/
theorem alignmentChecking_iff (s : State) : s.alignmentChecking = true ↔
    s.cr0.getLsbD 18 = true ∧ s.rflags.getLsbD 18 = true ∧ s.cs.selector.toNat % 4 = 3 := by
  simp only [State.alignmentChecking, State.am, State.acFlag, cpl_eq_mod, Bool.and_eq_true, beq_iff_eq, and_assoc]

/-! ## The checks made before any operand is read (R123, R124) -/

/-- A field of a register is all ones when each of its bits is 1. -/
theorem extractLsb'_eq_allOnes_iff {w : Nat} (x : BitVec w) (k n : Nat) :
    x.extractLsb' k n = BitVec.allOnes n ↔ ∀ j, j < n → x.getLsbD (k + j) = true := by
  constructor
  · intro h j hj
    simpa [hj] using congrArg (·.getLsbD j) h
  · intro h
    refine BitVec.eq_of_getLsbD_eq fun j hj => ?_
    simp [hj, h j hj]

/-- `XCR0[2:1]` as a field (R34). -/
theorem xcr0Avx_iff (s : State) : s.xcr0Avx = true ↔ s.xcr0.extractLsb' 1 2 = 3#2 := by
  rw [show 3#2 = BitVec.allOnes 2 from rfl, extractLsb'_eq_allOnes_iff]
  simp only [State.xcr0Avx, Bool.and_eq_true, Nat.forall_lt_succ_right, Nat.not_lt_zero, false_implies, implies_true, true_and,
    Nat.reduceAdd]

/-- `XCR0[7:5]` as a field (R34). -/
theorem xcr0Avx512_iff (s : State) : s.xcr0Avx512 = true ↔ s.xcr0.extractLsb' 5 3 = 7#3 := by
  rw [show 7#3 = BitVec.allOnes 3 from rfl, extractLsb'_eq_allOnes_iff]
  simp only [State.xcr0Avx512, Bool.and_eq_true, Nat.forall_lt_succ_right, Nat.not_lt_zero, false_implies, implies_true,
    true_and, Nat.reduceAdd]

theorem realOrV86_iff (s : State) :
    s.realOrV86 = true ↔ s.mode = .real ∨ s.mode = .virtual8086 ∨ s.rflags.getLsbD 17 = true := by
  simp only [State.realOrV86, State.vmFlag, Bool.or_eq_true, beq_iff_eq, or_assoc]

/-- The control bits that R123 asks for, form by form. -/
theorem controlsAllow_eq_false_iff (s : State) (f : Form) : controlsAllow s f = false ↔
    (f = .legacy128 ∧ (s.cr0.getLsbD 2 = true ∨ s.cr4.getLsbD 9 = false))
    ∨ (f ≠ .legacy128 ∧ (s.cr4.getLsbD 18 = false ∨ s.xcr0.extractLsb' 1 2 ≠ 3#2
        ∨ s.mode = .real ∨ s.mode = .virtual8086 ∨ s.rflags.getLsbD 17 = true))
    ∨ (f.isEvex = true ∧ s.xcr0.extractLsb' 5 3 ≠ 7#3) := by
  rw [← realOrV86_iff, ne_eq (s.xcr0.extractLsb' 1 2), ← xcr0Avx_iff, ne_eq (s.xcr0.extractLsb' 5 3), ← xcr0Avx512_iff]
  cases f <;> simp only [controlsAllow, Form.isEvex, State.em, State.osfxsr, State.osxsave, Bool.and_eq_false_iff,
    Bool.not_eq_false', Bool.not_eq_true, reduceCtorEq, ne_eq, not_true_eq_false, not_false_eq_true, true_and, false_and,
    or_false, false_or, or_assoc]
  case evex128 | evex256 | evex512 => exact or_congr_right (or_congr_right or_comm)

theorem reservedOf_iff (i : Instr) : reservedOf i = true ↔ zeroingFits i = false ∨ broadcastFits i = false := by
  simp [reservedOf]

/-- An execution is `#UD` exactly where its first check says so: no read of an operand raises it. -/
theorem exec_invalidOpcode_iff (i : Instr) (s : State) :
    exec i s = .fault .invalidOpcode ↔ invalidOpcode s (record s.mode i).form (reservedOf i) = true := by
  rw [exec_eq_execute, execute_fault_iff]
  constructor
  · rintro (⟨hud, -⟩ | ⟨-, -, hnm⟩ | ⟨-, -, -, hread⟩)
    · exact hud
    · cases hnm
    · exact absurd rfl (src2Value_fault s _ _ _ hread).1
  · exact fun hud => .inl ⟨hud, rfl⟩

/-- An execution is `#NM` exactly where its first check passes and `CR0.TS` is 1. -/
theorem exec_deviceNotAvailable_iff (i : Instr) (s : State) : exec i s = .fault .deviceNotAvailable ↔
    invalidOpcode s (record s.mode i).form (reservedOf i) = false ∧ s.ts = true := by
  rw [exec_eq_execute, execute_fault_iff]
  constructor
  · rintro (⟨-, hud⟩ | ⟨hpass, hts, -⟩ | ⟨-, -, -, hread⟩)
    · cases hud
    · exact ⟨hpass, hts⟩
    · exact absurd rfl (src2Value_fault s _ _ _ hread).2
  · exact fun ⟨hpass, hts⟩ => .inr (.inl ⟨hpass, hts, rfl⟩)

/-- Settles O40: the first check is of the features, of the control bits and of the reserved fields. -/
theorem invalidOpcodeConditions : Obligations.InvalidOpcodeConditions := by
  intro i s
  rw [exec_invalidOpcode_iff, invalidOpcode, Bool.or_eq_true, Bool.or_eq_true, Bool.not_eq_true', Bool.not_eq_true',
    controlsAllow_eq_false_iff, reservedOf_iff]
  simp only [or_assoc]

/-- Settles O41: `CR0.TS` is looked at right after the `#UD` checks, and `CR0.EM` is one of these. -/
theorem deviceNotAvailableCondition : Obligations.DeviceNotAvailableCondition := by
  intro i s
  refine ⟨?_, fun hlegacy hem => ?_⟩
  · rw [exec_deviceNotAvailable_iff, ne_eq, exec_invalidOpcode_iff, Bool.not_eq_true, State.ts]
  · exact (invalidOpcodeConditions i s).mpr (.inr (.inl ⟨hlegacy, .inl hem⟩))

/-! ## Page faults (R43, R127, R130) -/

/-- R127: what every error code of a failed translation says of the access. -/
theorem pageFaultCode_of_translate_error {s : State} {acc : Access} {la : Nat} {c : PageFaultCode}
    (h : s.translate acc la = .error c) : ∃ present reserved key, c = s.pageFaultCode acc present reserved key := by
  unfold State.translate at h
  split at h
  · split at h
    · cases h; exact ⟨_, _, _, rfl⟩
    · next p _ =>
      cases hk : p.kind with
      | user => simp [hk] at h
      | supervisor =>
        simp only [hk] at h
        split at h
        · cases h; exact ⟨_, _, _, rfl⟩
        · cases h
      | denied | absent | reservedBit | keyDenied =>
        simp only [hk] at h
        cases h
        exact ⟨_, _, _, rfl⟩
  · cases h

/-- The stop is a page fault of one of the bytes `la .. la+n-1`, with its address and its code. -/
def State.stopsAtByte (s : State) (la n : Nat) (e : Stop) : Prop :=
  ∃ k c, k < n ∧ s.translate .read (la + k) = .error c ∧ e = .fault (.pageFault c (BitVec.ofNat 64 (la + k)))

theorem State.stopsAtByte.mono {s : State} {la n m : Nat} {e : Stop} (h : s.stopsAtByte la n e) (hnm : n ≤ m) :
    s.stopsAtByte la m e := by
  obtain ⟨k, c, hk, hc, he⟩ := h
  exact ⟨k, c, by omega, hc, he⟩

section
variable {s : State} {la k n : Nat} {c : PageFaultCode}

/-- Steps 4 to 6 of `MemRead` of an operand with a byte that does not translate. -/
theorem readLinear_of_translate_error (hk : k < n) (hc : s.translate .read (la + k) = .error c) :
    ∃ e, s.readLinear la n = .error e ∧ s.stopsAtByte la n e := by
  have hfaults : s.byteFaults la n ≠ [] := fun hnil => by
    obtain ⟨pa, hpa⟩ := (byteFaults_eq_nil s la n).mp hnil k hk
    rw [hc] at hpa
    cases hpa
  obtain ⟨c', x, hread⟩ := readLinear_of_byteFaults hfaults
  obtain hstop | ⟨hnil, -⟩ := readLinear_error s la n _ hread
  · exact ⟨_, hread, hstop⟩
  · exact absurd hnil hfaults

/-- A byte of the low 8 that does not translate faults under either draw: both draws read it (R45). -/
theorem readLegacy_of_translate_error (narrow : Bool) (hk : k < 8) (hc : s.translate .read (la + k) = .error c) :
    ∃ e, s.readLegacy narrow la = .error e ∧ s.stopsAtByte la 16 e := by
  obtain ⟨e16, hread16, hstop16⟩ := readLinear_of_translate_error (n := 16) (by omega) hc
  cases narrow with
  | false => exact ⟨e16, by simp [State.readLegacy, hread16], hstop16⟩
  | true =>
    obtain ⟨e8, hread8, hstop8⟩ := readLinear_of_translate_error hk hc
    exact ⟨e8, by simp [State.readLegacy, hread16, hread8], hstop8.mono (by decide)⟩

end

/-- R129: no alignment check of an operand that is aligned to its size, nor while alignment checking is not active. -/
theorem checkAlignment_of_inactive_or_aligned {s : State} {r : SegReg} {ea n : Nat}
    (h : s.alignmentChecking = false ∨ s.linear r ea % n = 0) : s.checkAlignment r ea n = .ok () :=
  checkAlignment_of_aligned s r ea n (by simpa using h)

/-- `exec_of_memReadLegacy_error` where the stop depends on the draw: the stop under the execution's own draw. -/
theorem exec_of_memReadLegacy_error_drawn {i : Instr} {s : State} {a : Addr} {bcst : Bool} {e : Stop}
    (hready : s.ready (record s.mode i).form = true) (hz : zeroingFits i = true) (hmem : (record s.mode i).src2 = .mem a bcst)
    (hf : (record s.mode i).form = .legacy128)
    (he : s.memReadLegacy (narrowOf s i) a.seg (effectiveAddress s i.len a) = .error e) : exec i s = e.result := by
  cases bcst with
  | true => exact absurd hmem (record_legacy_src2 s.mode i hf a)
  | false =>
    refine exec_of_src2Value_error hready hz hmem ?_
    rw [src2Value_of_legacy_mem s _ hmem hf, record_len, he]

/-- Settles O45: past the checks, the read stops at one of the operand's bytes that do not translate. -/
theorem pageFaultIsOfAnOperandByte : Obligations.PageFaultIsOfAnOperandByte := by
  intro i s a bcst n c f ea size hready hz hmem halign hs hw hac hn hc
  obtain ⟨e, hexec, k, c', hk, hc', rfl⟩ : ∃ e : Stop, exec i s = e.result ∧ s.stopsAtByte (s.linear a.seg ea) size e := by
    by_cases hf : f = .legacy128
    · obtain ⟨hb, hl⟩ := halign hf
      have hsize : size = 16 := if_pos hf
      rw [if_pos hf] at hn
      rw [hsize] at hs hw ⊢
      obtain ⟨e, hread, hstop⟩ := readLegacy_of_translate_error (narrowOf s i) hn hc
      refine ⟨e, exec_of_memReadLegacy_error_drawn hready hz hmem hf ?_, hstop⟩
      rw [memReadLegacy_of_checks _ hb hl hs hw, hread]
    · have hsize : size = operandBytes f bcst := if_neg hf
      rw [if_neg hf] at hn
      obtain ⟨e, hread, hstop⟩ := readLinear_of_translate_error hn hc
      refine ⟨e, exec_of_memRead_error hready hz hmem hf ?_, hstop⟩
      rw [hsize] at hs hw hac hread
      rw [memRead_of_checks hs hw (checkAlignment_of_inactive_or_aligned (hac.imp_right (·.resolve_left hf))), hread]
  obtain ⟨present, reserved, key, rfl⟩ := pageFaultCode_of_translate_error hc'
  refine ⟨k, _, hk, hc', hexec, rfl, rfl, ?_⟩
  simp only [State.pageFaultCode, beq_iff_eq, cpl_eq_mod]

/-! ## Alignment checking (R129, D13) -/

/-- The read of bytes raises page faults only. -/
theorem readLinear_ne_alignmentCheck (s : State) (la n : Nat) : s.readLinear la n ≠ .error (.fault .alignmentCheck) := by
  intro h
  obtain ⟨_, _, _, _, he⟩ | ⟨_, _, _, _, _, he⟩ := readLinear_error s la n _ h <;> cases he

theorem segmentFault_ne_alignmentCheck (r : SegReg) : segmentFault r ≠ .alignmentCheck := by
  unfold segmentFault
  split <;> nofun

/-- R129: a legacy operand that is not aligned is `#GP(0)`; no check of it is `#AC(0)`. -/
theorem memReadLegacy_ne_alignmentCheck (s : State) (narrow : Bool) (r : SegReg) (ea : Nat) :
    s.memReadLegacy narrow r ea ≠ .error (.fault .alignmentCheck) := by
  intro h
  obtain ⟨-, he⟩ | ⟨-, he⟩ | ⟨-, he⟩ | ⟨-, he⟩ | hread := memReadLegacy_error s narrow r ea _ h
  · cases he
  · cases he
  · exact segmentFault_ne_alignmentCheck r (Stop.fault.inj he).symm
  · cases he
  · obtain hlin | ⟨-, q, -, he⟩ := readLegacy_error s narrow _ _ hread
    · exact readLinear_ne_alignmentCheck s _ _ hlin
    · cases he

/-- R129: `MemRead` of forms 2 to 6 is `#AC(0)` only of a misaligned operand while alignment checking is active. -/
theorem memRead_alignmentCheck {s : State} {r : SegReg} {ea n : Nat} (h : s.memRead r ea n = .error (.fault .alignmentCheck)) :
    s.alignmentChecking = true ∧ s.linear r ea % n ≠ 0 := by
  obtain ⟨-, he⟩ | ⟨-, he⟩ | ⟨hactive, hmis, -⟩ | hlin := memRead_error s r ea n _ h
  · exact absurd (Stop.fault.inj he).symm (segmentFault_ne_alignmentCheck r)
  · cases he
  · exact ⟨hactive, hmis⟩
  · exact absurd hlin (readLinear_ne_alignmentCheck s _ _)

/-- R129: what an `#AC(0)` of an execution says. -/
theorem exec_alignmentCheck {i : Instr} {s : State} (h : exec i s = .fault .alignmentCheck) :
    (record s.mode i).form ≠ .legacy128 ∧ s.alignmentChecking = true ∧ ∃ a bcst, (record s.mode i).src2 = .mem a bcst ∧
      s.linear a.seg (effectiveAddress s i.len a) % operandBytes (record s.mode i).form bcst ≠ 0 := by
  rw [exec_eq_execute, execute_fault_iff] at h
  obtain ⟨-, he⟩ | ⟨-, -, he⟩ | ⟨-, -, -, hsrc⟩ := h
  · cases he
  · cases he
  · obtain ⟨a, bcst, hmem, ⟨-, -, hread⟩ | ⟨hform, hread⟩⟩ := src2Value_error s _ _ _ hsrc
    · exact absurd hread (memReadLegacy_ne_alignmentCheck s _ _ _)
    · rw [record_len] at hread
      obtain ⟨hactive, hmis⟩ := memRead_alignmentCheck hread
      refine ⟨fun hf => ?_, hactive, a, bcst, hmem, hmis⟩
      obtain rfl | hf' := hform
      · exact record_legacy_src2 s.mode i hf a hmem
      · exact hf' hf

/-- Settles O48: each of the conditions excludes what an `#AC(0)` says. -/
theorem alignmentCheckOnlyWhereActive : Obligations.AlignmentCheckOnlyWhereActive := by
  intro i s hcond hexec
  obtain ⟨hf, hactive, a, bcst, hmem, hmis⟩ := exec_alignmentCheck hexec
  obtain ⟨ham, hacf, hcpl⟩ := (alignmentChecking_iff s).mp hactive
  obtain h | h | h | h | h := hcond
  · exact hf h
  · exact absurd (ham.symm.trans h) nofun
  · exact absurd (hacf.symm.trans h) nofun
  · exact h hcpl
  · exact hmis (h a bcst hmem)

section
variable {s : State} {r : SegReg} {ea n : Nat}

/-- Past the segment check and the wrap, a misaligned operand is `#AC(0)` where the draw says so (D13). -/
theorem memRead_of_misaligned_fault (hread : s.rangeReadable r ea n = true) (hactive : s.alignmentChecking = true)
    (hmis : s.linear r ea % n ≠ 0) (hdraw : Config.acUnalignedFaults s.draws = true) :
    s.memRead r ea n = .error (.fault .alignmentCheck) := by
  simp only [State.rangeReadable, Bool.and_eq_true, decide_eq_true_eq] at hread
  obtain ⟨⟨hs, hw⟩, -⟩ := hread
  simp [State.memRead, checkSegment_of_allows hs, checkWrap_of_le hw, State.checkAlignment, hactive, hmis, hdraw]

/-- Where the draw says that no misaligned operand faults, `MemRead` gives a value whatever the alignment (D13). -/
theorem memRead_of_draw_no_fault (hread : s.rangeReadable r ea n = true) (hdraw : Config.acUnalignedFaults s.draws = false) :
    s.memRead r ea n = .ok (leValue (s.operandByteList (s.linear r ea) n)) := by
  simp only [State.rangeReadable, Bool.and_eq_true, decide_eq_true_eq] at hread
  obtain ⟨⟨hs, hw⟩, hb⟩ := hread
  have ha : s.checkAlignment r ea n = .ok () := by simp [State.checkAlignment, hdraw]
  rw [memRead_of_checks hs hw ha, readLinear_of_readable s _ n hb]

end

/-- Enabled, with no reserved field and with a second source that has a value, an execution completes (R100, R152). -/
theorem exec_next_of_src2Value_ok {i : Instr} {s : State} (hready : s.ready (record s.mode i).form = true)
    (hz : zeroingFits i = true) (hb : broadcastFits i = true)
    (hsrc : ∃ s2, src2Value s (narrowOf s i) (record s.mode i) = .ok s2) : ∃ t, exec i s = .next t := by
  obtain ⟨s2, hs2⟩ := hsrc
  obtain ⟨-, hadm, hts, hud⟩ := ready_checks _ hready
  have hres : reservedOf i = false := by simp [reservedOf, hz, hb]
  exact ⟨_, (exec_next_iff i s _).mpr ⟨hres ▸ hud, hts, hadm, s2, hs2, rfl⟩⟩

/-- Settles O49: the draw decides the alignment check, and past it the operand is read. -/
theorem misalignedOperandFaultsOrCompletes : Obligations.MisalignedOperandFaultsOrCompletes := by
  intro i s a bcst r ea hready hz hf hmem hread hactive hmis
  refine ⟨fun hdraw => ?_, fun hdraw => ?_⟩
  · exact exec_of_memRead_error hready hz hmem hf (memRead_of_misaligned_fault hread hactive hmis hdraw)
  · obtain ⟨t, ht⟩ : ∃ t, exec i s = .next t := by
      refine exec_next_of_src2Value_ok hready hz (broadcastFits_of_mem _ _ _ _ hmem) ?_
      rw [src2Value_of_mem s _ hmem hf, record_len, memRead_of_draw_no_fault hread hdraw]
      exact ⟨_, rfl⟩
    obtain ⟨hwf, -⟩ := ready_checks _ hready
    obtain ⟨hframe, hpc, -⟩ := executionFrame i s t ht
    exact ⟨t, ht, fun j hj => elem_dest_of_exec_next hwf ht hj, fun b hb => getLsbD_dest_of_exec_next hf ht hb, hpc, hframe⟩

end Sys2Proof.Machine

/-! # Reset and launch (O15, O19, O59, O60) -/

namespace Sys2Proof.Machine

/-! ## The reset state (R151) -/

@[simp] theorem readZmm_reset (i : Fin 32) : State.reset.readZmm i = 0 := Vector.getElem_replicate _

@[simp] theorem readMask_reset (a : BitVec 3) : State.reset.readMask a = 0 := Vector.getElem_replicate _

@[simp] theorem readGpr_reset (n : Fin 16) : State.reset.readGpr n = 0 := Vector.getElem_replicate _

/-- Settles O59: the fields one by one, and every register of the three register files. -/
theorem resetValuesAsListed : Obligations.ResetValuesAsListed :=
  ⟨rfl, rfl, rfl, rfl, rfl, rfl, rfl, rfl, rfl, rfl, fun n _ => readGpr_reset n, readZmm_reset, readMask_reset⟩

/-- Settles O19: every vector and opmask register is 0, memory is empty, and the mode is neither of the admitted two. -/
theorem resetMeetsInvariant : Obligations.ResetMeetsInvariant where
  config := rfl
  vectors i := by rw [readZmm_reset]; exact BitVec.zero_and
  masks a := by rw [readMask_reset]; exact Nat.two_pow_pos _
  eip := nofun
  notV86 := nofun
  memory := reset_memory_wf

/-- R123 at reset: the legacy form lacks `CR4.OSFXSR`, every other form is in real-address mode. -/
theorem controlsAllow_reset (f : Form) : controlsAllow State.reset f = false := by
  rw [controlsAllow_eq_false_iff]
  by_cases hf : f = .legacy128
  · exact .inl ⟨hf, .inr rfl⟩
  · exact .inr (.inl ⟨hf, .inr (.inr (.inl rfl))⟩)

/-- Settles O60: the control bits make the first check of every execution fail. -/
theorem noFormExecutesAtReset : Obligations.NoFormExecutesAtReset := by
  refine ⟨fun i => ?_, rfl, rfl⟩
  rw [exec_invalidOpcode_iff, invalidOpcode, controlsAllow_reset, Bool.not_false, Bool.or_true, Bool.true_or]

/-! ## Bytes placed where the machine fetches (log entry 8) -/

/-- The machine fetches the `n` instruction bytes from the `i`-th on from consecutive addresses, the first of them `a`. -/
def State.fetchesFrom (s : State) (i a n : Nat) : Prop := ∀ k, k < n → s.codeAddress (i + k) = some (a + k)

section
variable {s : State} {m : Memory} {i a n : Nat} {b : Byte} {bs : List Byte}

theorem State.fetchesFrom.head (h : s.fetchesFrom i a (n + 1)) : s.codeAddress i = some a := h 0 n.succ_pos

theorem State.fetchesFrom.tail (h : s.fetchesFrom i a (n + 1)) : s.fetchesFrom (i + 1) (a + 1) n := fun k hk => by
  rw [Nat.add_right_comm i, Nat.add_right_comm a]
  exact h (k + 1) (Nat.succ_lt_succ hk)

theorem placeCode_cons (h : s.fetchesFrom i a (b :: bs).length) :
    placeCode s m i (b :: bs) = placeCode s (m.write a b) (i + 1) bs := by
  simp only [placeCode, h.head]

/-- Placing code writes nothing below the first address. -/
theorem read_placeCode_below {x : Nat} (hm : m.wf = true) (h : s.fetchesFrom i a bs.length) (hx : x < a) :
    (placeCode s m i bs).read x = m.read x := by
  induction bs generalizing m i a with
  | nil => rfl
  | cons b bs ih =>
    rw [placeCode_cons h, ih (Memory.write_wf m a b hm) h.tail (by omega), Memory.read_write m a x b hm, if_neg (by omega)]

/-- Each byte of placed code is the one read at its address afterwards: the bytes behind it are written above it. -/
theorem read_placeCode (hm : m.wf = true) (h : s.fetchesFrom i a bs.length) {k : Nat} (hk : k < bs.length) :
    bs[k]? = some ((placeCode s m i bs).read (a + k)) := by
  induction bs generalizing m i a k with
  | nil => cases hk
  | cons b bs ih =>
    have hwf : (m.write a b).wf = true := Memory.write_wf m a b hm
    rw [placeCode_cons h]
    cases k with
    | zero =>
      have hread : (placeCode s (m.write a b) (i + 1) bs).read a = b := by
        rw [read_placeCode_below hwf h.tail a.lt_succ_self, Memory.read_write m a a b hm, if_pos rfl]
      exact congrArg some hread.symm
    | succ k =>
      rw [List.getElem?_cons_succ, Nat.add_comm k, ← Nat.add_assoc]
      exact ih hwf h.tail (Nat.lt_of_succ_lt_succ hk)

/-- As many bytes as the longest instruction has, placed at the program counter, are the bytes fetched: where code is fetched
from does not depend on memory. -/
theorem fetch_placeCode (hm : s.mem.wf = true) (hlen : bs.length = maxLength) (h : s.fetchesFrom 0 a maxLength) :
    ({ s with mem := placeCode s s.mem 0 bs } : State).fetch = bs := by
  rw [← hlen] at h
  have hbegins : bs <+: ({ s with mem := placeCode s s.mem 0 bs } : State).fetch :=
    begins_fetchFrom hlen.le fun k hk => ⟨a + k, h k hk, read_placeCode hm h hk⟩
  exact (hbegins.eq_of_length_le (hlen ▸ length_fetch_le _)).symm

end

/-! ## The launched state (R153) -/

section
variable (s : State)

@[simp] theorem launch_mode : s.launch.mode = .mode64 := rfl

theorem launch_admitted : s.launch.admitted = true := by
  simp [State.admitted, State.vmFlag, State.launch, Mode.admitted]

theorem launch_trapFlag : s.launch.trapFlag = false := by simp [State.trapFlag, State.launch]

theorem launch_pagingOn : s.launch.pagingOn = true := by simp [State.pagingOn, State.launch]

theorem cpl_lt_four : s.cpl < 4 := BitVec.isLt _

/-- A range for both accesses and every privilege level holds each of its addresses. -/
theorem holds_anyAccess (acc : Access) {first size phys cpl la : Nat} {kind : PageKind} (hcpl : cpl < 4) (hfirst : first ≤ la)
    (hlast : la < first + size) : (PageRange.anyAccess first size phys kind).holds acc cpl la = true := by
  have hlevel : [0, 1, 2, 3].contains cpl = true := by
    rw [List.contains_iff_mem, List.mem_cons, List.mem_cons, List.mem_cons, List.mem_singleton]
    omega
  cases acc <;>
    simp only [PageRange.holds, PageRange.anyAccess, PageRange.allows, hfirst, hlast, hlevel, decide_true, Bool.and_self]

/-- Every linear address is mapped to itself, for both accesses and at every privilege level. -/
theorem translate_launch (acc : Access) {la : Nat} (hla : la < 2 ^ 64) : s.launch.translate acc la = .ok la := by
  have hfind : s.launch.pages.find? (PageRange.holds acc s.launch.cpl la) = some (.anyAccess 0 (2 ^ 64) 0 .user) :=
    List.find?_cons_of_pos (holds_anyAccess acc (cpl_lt_four _) la.zero_le (by rwa [Nat.zero_add]))
  rw [State.translate, if_pos (launch_pagingOn s), hfind]
  simp only [PageRange.anyAccess, Nat.sub_zero, Nat.zero_add]

/-- An address below `2^47` is canonical with either number of linear-address bits (R48). -/
theorem canonical_of_lt {la : Nat} (hla : la < 2 ^ 47) : s.canonical la = true := by
  have hbits : 2 ^ 47 ≤ 2 ^ (s.linearBits - 1) := by
    unfold State.linearBits
    split <;> decide
  simp [State.canonical, Nat.div_eq_of_lt (hla.trans_le hbits)]

/-- After the launch, where all memory is ordinary, an instruction byte below `2^47` is fetched from the address that the
program counter says. -/
theorem codeAddress_launch (hwindows : s.windows = []) {k : Nat} (hk : s.rip.toNat + k < 2 ^ 47) :
    s.launch.codeAddress k = some (s.rip.toNat + k) := by
  have hlt : s.rip.toNat + k < 2 ^ 64 := by omega
  have hlin : s.launch.codeLinear (s.rip.toNat + k) = some (s.rip.toNat + k) := by
    simp only [State.codeLinear, launch_mode, decide_eq_true hlt, canonical_of_lt _ hk, Bool.and_self, if_true]
  have hwin : s.launch.windowAt (s.rip.toNat + k) = none := by
    simp [State.windowAt, show s.launch.windows = [] from hwindows]
  simp [State.codeAddress, show s.launch.rip = s.rip from rfl, hlin, translate_launch s .fetch hlt, hwin]

theorem launch_fetchesFrom {n : Nat} (hwindows : s.windows = []) (hn : s.rip.toNat + n ≤ 2 ^ 47) :
    s.launch.fetchesFrom 0 s.rip.toNat n := fun k hk => by
  rw [Nat.zero_add]
  exact codeAddress_launch s hwindows (by omega)

end

/-! ## The step after a launch (O15) -/

theorem length_wordBytes (nbits w : Nat) : (wordBytes nbits w).length = maxLength := by
  simp [wordBytes]

theorem decodeTableWord_eq_some {nbits w : Nat} {i : Instr} (h : decodeTableWord nbits w = some i) :
    decode .mode64 (wordBytes nbits w) = .ok i := by
  unfold decodeTableWord at h
  split at h
  · next j hj => cases h; exact hj
  · cases h

/-- A word stored in a state that has to be launched first is what the next step runs, if all memory is ordinary and the bytes
lie below `2^47`. -/
theorem step_withFetchWord_of_launch {s : State} {nbits w : Nat} {i : Instr} (hadm : s.admitted = false)
    (hm : s.mem.wf = true) (hwindows : s.windows = []) (hrip : s.rip.toNat + maxLength ≤ 2 ^ 47)
    (h : decodeTableWord nbits w = some i) : step (s.withFetchWord nbits w) = exec i (s.withFetchWord nbits w) := by
  have hstate : s.withFetchWord nbits w =
      ({ s.launch with mem := placeCode s.launch s.launch.mem 0 (wordBytes nbits w) } : State) := by
    simp [State.withFetchWord, State.withCode, hadm]
  have hfetch : (s.withFetchWord nbits w).fetch = wordBytes nbits w :=
    hstate ▸ fetch_placeCode (s := s.launch) hm (length_wordBytes nbits w) (launch_fetchesFrom s hwindows hrip)
  have hmode : (s.withFetchWord nbits w).mode = .mode64 := hstate ▸ launch_mode s
  refine step_of_decode_ok (hstate ▸ launch_admitted s) (hstate ▸ launch_trapFlag s) ?_
  rw [hmode, hfetch]
  exact decodeTableWord_eq_some h

/-- Settles O15: the reset state is launched, its memory is empty and all ordinary, and its program counter is `FFF0`. -/
theorem launchedWordRuns : Obligations.LaunchedWordRuns :=
  fun _ _ _ h => step_withFetchWord_of_launch rfl reset_memory_wf rfl (by decide) h

end Sys2Proof.Machine
